-- ==== Sys2Proof/Word.lean ====
section
/-! DEFINITION. The word types of the block: every unit on the wire and in memory is one byte (30_encoding.md R100),
the page index has 16 bits (10_state.md R23), a checksum 32 (45_nvm_primitives.md R227). All are unsigned
(00_scope.md R9). -/

namespace Sys2Proof

/-- One byte: the unit of the wire, of the regions and of the buffer. -/
abbrev Byte := BitVec 8

/-- The 16-bit page index. -/
abbrev Half := BitVec 16

/-- A 32-bit checksum value. -/
abbrev Word32 := BitVec 32

end Sys2Proof
end

