-- ==== Sys2Proof/Config.lean ====
section
/-! DEFINITION. The configuration record of 00_scope.md R5, its two reference values, and the two opaque constants that
stand for what nothing in the spec fixes: the checksum function and the draws. -/

namespace Sys2Proof

/-- `PROTOCOL_VARIANT` (R5, D1). -/
inductive Protocol where
  | legacy | halfDuplex
deriving DecidableEq, Repr, Inhabited

/-- `ENTRY_VARIANT` (R5, D2): `a` decides by the input line, `b` by the timed handshake. -/
inductive EntryVariant where
  | a | b
deriving DecidableEq, Repr, Inhabited

/-- `WRITE_ACK_MODE` (R5, R115). -/
inductive AckMode where
  | single | earlyAndFinal
deriving DecidableEq, Repr, Inhabited

/-- The four Memory Regions (20_memory.md R60). -/
inductive Region where
  | app | boot | ee | us
deriving DecidableEq, Repr, Inhabited

/-- Base address, total bytes and page bytes of a region (R60). -/
structure Geometry where
  base : Nat
  size : Nat
  page : Nat
deriving DecidableEq, Repr, Inhabited

/-- A quantity that READ_GEOMETRY can report (43_query_commands.md R184). -/
inductive Quantity where
  | totalBytes (r : Region)
  | pageBytes (r : Region)
deriving DecidableEq, Repr, Inhabited

/-- The fifteen `OP_*` parameters (R5, R107). -/
structure Opcodes where
  eraseApp : Byte
  writePage : Byte
  readPage : Byte
  readCrc : Byte
  readMcuId : Byte
  readSerial : Byte
  readVersion : Byte
  reset : Byte
  readFuses : Byte
  readEeprom : Byte
  writeEeprom : Byte
  eraseUsersig : Byte
  readUsersig : Byte
  writeUsersig : Byte
  readGeometry : Byte
deriving DecidableEq, Repr, Inhabited

/-- The configuration record (R5): "each is a parameter the model takes as an argument (a field of one configuration
record)". `FUSE_COUNT` and `SERIAL_LEN` are the lengths of their lists. `CRC32_FN` is `Config.crc32Fn` below.
`resetDelayCoversTx` is the model's own (log 13): R336's assumption that `T_RESET_DELAY` is at least the time the
transmitter needs. -/
structure Config where
  protocol : Protocol
  entryVariant : EntryVariant
  ackMode : AckMode
  ops : Opcodes
  nopByte : Byte
  arbAckByte : Byte
  stOk : Byte
  stFail : Byte
  app : Geometry
  boot : Geometry
  ee : Geometry
  us : Geometry
  bufSize : Nat
  erasedByte : Byte
  flashWriteRequiresErased : Bool
  fuses : List Byte
  mcuId : List Byte
  serial : List Byte
  version : Byte
  geomW : Nat
  geomFields : List Quantity
  bootTimeoutTicks : Nat
  entryLineAsserted : Bool
  tDriveSettle : Nat
  tListenSettle : Nat
  tResetDelay : Nat
  resetDelayCoversTx : Bool
  echoMax : Nat
  echoDiscardReads : Nat
  unlockKey : Nat
  unlockWindow : Nat
  appEntryAddr : Nat
  uartBaud : Nat
  wdtEnabled : Bool
deriving DecidableEq, Repr, Inhabited

/-- `CRC32_FN` (R227, D14): an uninterpreted total function of the byte sequence. -/
opaque Config.crc32Fn : List Byte → Word32

/-- The draws (00_scope.md R11: "a value the model takes as a free input under no law"), numbered by the counter
`State.draws` (log 5). -/
opaque Config.freeByte : Nat → Byte

namespace Config

/-- The geometry of a region (R60). -/
def geo (c : Config) : Region → Geometry
  | .app => c.app
  | .boot => c.boot
  | .ee => c.ee
  | .us => c.us

/-- `SIZE(r)` (R60). -/
def size (c : Config) (r : Region) : Nat := (c.geo r).size

/-- `PAGE(r)` (R60). -/
def page (c : Config) (r : Region) : Nat := (c.geo r).page

/-- `page_count(r) = SIZE(r) / PAGE(r)` (R8(b)). -/
def pageCount (c : Config) (r : Region) : Nat := c.size r / c.page r

/-- The value of a reported quantity (R184). -/
def quantity (c : Config) : Quantity → Nat
  | .totalBytes r => c.size r
  | .pageBytes r => c.page r

/-- Whether the transceiver control exists (46_transceiver.md, R246). -/
def halfDuplex (c : Config) : Bool := c.protocol == .halfDuplex

/-- The reference opcodes 0x01 to 0x0F in table order (D3). -/
def referenceOpcodes : Opcodes where
  eraseApp := 0x01
  writePage := 0x02
  readPage := 0x03
  readCrc := 0x04
  readMcuId := 0x05
  readSerial := 0x06
  readVersion := 0x07
  reset := 0x08
  readFuses := 0x09
  readEeprom := 0x0A
  writeEeprom := 0x0B
  eraseUsersig := 0x0C
  readUsersig := 0x0D
  writeUsersig := 0x0E
  readGeometry := 0x0F

/-- The six geometry fields in order (R184, D13). -/
def referenceFields : List Quantity :=
  [.totalBytes .app, .totalBytes .boot, .pageBytes .app, .totalBytes .ee, .pageBytes .ee, .totalBytes .us]

/-- TINYCFG (R5). The parameters it calls symbolic stand at 0 (DESIGN CHOICE, log 20). `ENTRY_LINE_ASSERTED`, which it does
not use, stands at false (DESIGN CHOICE, log 22). -/
def tiny : Config where
  protocol := .halfDuplex
  entryVariant := .b
  ackMode := .single
  ops := referenceOpcodes
  nopByte := 0x00
  arbAckByte := 0x4F
  stOk := 0x4F
  stFail := 0x46
  app := ⟨0x0000, 16, 4⟩
  boot := ⟨0x0010, 8, 4⟩
  ee := ⟨0x0000, 8, 2⟩
  us := ⟨0x0000, 4, 4⟩
  bufSize := 4
  erasedByte := 0xFF
  flashWriteRequiresErased := false
  fuses := [0xF0, 0xF1, 0xF2, 0xF3, 0xF4, 0xF5]
  mcuId := [0xA1, 0xA2, 0xA3, 0xA4]
  serial := [0x50, 0x51, 0x52, 0x53, 0x54, 0x55, 0x56, 0x57, 0x58, 0x59, 0x5A]
  version := 0x02
  geomW := 4
  geomFields := referenceFields
  bootTimeoutTicks := 3
  entryLineAsserted := false
  tDriveSettle := 0
  tListenSettle := 0
  tResetDelay := 0
  resetDelayCoversTx := true
  echoMax := 2
  echoDiscardReads := 2
  unlockKey := 0
  unlockWindow := 0
  appEntryAddr := 0
  uartBaud := 0
  wdtEnabled := false

/-- REFCFG (R5): TINYCFG with the larger geometry and timeout. What R5 gives no value stands as in TINYCFG, the unused
`ENTRY_LINE_ASSERTED` at false among it (DESIGN CHOICE, logs 20 and 22). -/
def reference : Config :=
  { tiny with
    app := ⟨0x0000, 2048, 256⟩
    boot := ⟨0x0800, 512, 256⟩
    ee := ⟨0x0000, 128, 32⟩
    us := ⟨0x0000, 256, 256⟩
    bufSize := 256
    bootTimeoutTicks := 2000 }

end Config

end Sys2Proof
end

