-- ==== Sys2Proof/Syntax.lean ====
section
/-! DEFINITION. The instructions: one constructor per row of spec/opcode_table.json, and the command frames that carry
them on the wire (30_encoding.md R102, R107). -/

namespace Sys2Proof

/-- The fifteen wire commands of R107 in table order, the no-op byte (R202) and the default case (R201). An instruction
is what the one opcode byte selects; the index and the payload of a command are read from the wire by the command itself
(R117, R118, R120). -/
inductive Instr where
  | eraseApp
  | writePage
  | readPage
  | readCrc
  | readMcuId
  | readSerial
  | readVersion
  | reset
  | readFuses
  | readEeprom
  | writeEeprom
  | eraseUsersig
  | readUsersig
  | writeUsersig
  | readGeometry
  | nop
  | unknown (b : Byte)
deriving DecidableEq, Repr, Inhabited

/-- The four command frame formats (R102). -/
inductive Format where
  | f0
  | fi
  | fip (r : Region)
  | fp (r : Region)
deriving DecidableEq, Repr, Inhabited

/-- The format and the region each command frame has (R107, columns "Command frame" and "r"). -/
def Instr.format : Instr → Format
  | .eraseApp => .f0
  | .writePage => .fip .app
  | .readPage => .fi
  | .readCrc => .f0
  | .readMcuId => .f0
  | .readSerial => .f0
  | .readVersion => .f0
  | .reset => .f0
  | .readFuses => .f0
  | .readEeprom => .fi
  | .writeEeprom => .fip .ee
  | .eraseUsersig => .f0
  | .readUsersig => .f0
  | .writeUsersig => .fp .us
  | .readGeometry => .f0
  | .nop => .f0
  | .unknown _ => .f0

/-- A whole command frame (R102): the opcode, and the index and payload its format has. -/
inductive Frame where
  | f0 (i : Instr)
  | fi (i : Instr) (idx : Half)
  | fip (i : Instr) (idx : Half) (payload : List Byte)
  | fp (i : Instr) (payload : List Byte)
deriving DecidableEq, Repr, Inhabited

/-- The command of a frame. -/
def Frame.instr : Frame → Instr
  | .f0 i => i
  | .fi i _ => i
  | .fip i _ _ => i
  | .fp i _ => i

end Sys2Proof
end

