-- ==== Sys2Proof/WellFormed.lean ====
section
/-! DEFINITION. What a configuration must meet (00_scope.md R8), what an instruction and a frame must meet to have an
encoding (30_encoding.md R102, R107, R109, R111). -/

namespace Sys2Proof

namespace Opcodes

/-- The fifteen opcode values in table order (R107). -/
def toList (o : Opcodes) : List Byte :=
  [o.eraseApp, o.writePage, o.readPage, o.readCrc, o.readMcuId, o.readSerial, o.readVersion, o.reset,
   o.readFuses, o.readEeprom, o.writeEeprom, o.eraseUsersig, o.readUsersig, o.writeUsersig, o.readGeometry]

end Opcodes

namespace Config

/-- The first bytes that have a row of their own: the fifteen opcodes and the no-op byte. -/
def knownBytes (c : Config) : List Byte := c.ops.toList ++ [c.nopByte]

/-- R8(a): the size is an exact multiple of the page size, and a page has at least one byte. -/
def regionOk (c : Config) (r : Region) : Bool := decide (1 ≤ c.page r) && decide (c.size r % c.page r = 0)

/-- R8(a) for the four regions. -/
def pagesOk (c : Config) : Bool := c.regionOk .app && (c.regionOk .boot && (c.regionOk .ee && c.regionOk .us))

/-- R8(c): the buffer is sized to the largest page among the writable regions. -/
def bufferOk (c : Config) : Bool := decide (c.bufSize = max (max (c.page .app) (c.page .ee)) (c.page .us))

/-- R8(d): the opcodes are pairwise distinct and none equals the no-op byte. -/
def opcodesOk (c : Config) : Bool := decide c.knownBytes.Nodup

/-- R8(e): the two status values differ and are in the ASCII range. -/
def statusOk (c : Config) : Bool :=
  decide (c.stOk ≠ c.stFail) && decide (c.stOk.toNat ≤ 0x7F) && decide (c.stFail.toNat ≤ 0x7F)

/-- R8(f): the 16-bit count field holds every page that is read back. -/
def countsOk (c : Config) : Bool :=
  decide (c.page .app ≤ 65535) && decide (c.page .ee ≤ 65535) && decide (c.size .us ≤ 65535)

/-- 20_memory.md R81: every page of an indexed region has a 16-bit index (log 10). -/
def indicesOk (c : Config) : Bool := decide (c.pageCount .app ≤ 65536) && decide (c.pageCount .ee ≤ 65536)

/-- R8(g): the user signature row is one page. -/
def rowOk (c : Config) : Bool := decide (c.size .us = c.page .us)

/-- R8(h): the geometry width is 2 exactly when the protocol is the legacy one, 4 otherwise (R184). -/
def widthOk (c : Config) : Bool := decide (c.geomW = if c.protocol = .legacy then 2 else 4)

/-- R184: six quantities, each of which fits its field. -/
def fieldsOk (c : Config) : Bool :=
  decide (c.geomFields.length = 6) && c.geomFields.all fun q => decide (c.quantity q < 2 ^ (8 * c.geomW))

/-- R8(i): one or two echo bytes per switch. -/
def echoOk (c : Config) : Bool := decide (1 ≤ c.echoMax) && decide (c.echoMax ≤ 2)

/-- R180: four identifier bytes; R181: 1 to 65535 serial bytes; at most 65535 fuse bytes, without which `cnt` would pass
65535 in READ_FUSES, and R24 says it never does (log 11). -/
def constantsOk (c : Config) : Bool :=
  decide (c.mcuId.length = 4) && decide (1 ≤ c.serial.length) && decide (c.serial.length ≤ 65535) &&
    decide (c.fuses.length ≤ 65535)

/-- A configuration the block can have (R8, R81, R184): "a model refuses a configuration that breaks one". -/
def wf (c : Config) : Bool :=
  c.pagesOk && (c.bufferOk && (c.opcodesOk && (c.statusOk && (c.countsOk && (c.indicesOk && (c.rowOk && (c.widthOk &&
    (c.fieldsOk && (c.echoOk && c.constantsOk)))))))))

end Config

/-- An instruction with an encoding: the default case stands for a byte with no row of its own (R109, R201). -/
def Instr.wf (c : Config) : Instr → Bool
  | .unknown b => !(c.knownBytes.contains b)
  | _ => true

/-- The payload a frame with index `idx` for region `r` carries (R103, R111): the page if the index is valid, else
nothing. -/
def payloadLength (c : Config) (r : Region) (idx : Half) : Nat :=
  if idx.toNat < c.pageCount r then c.page r else 0

/-- A frame as the wire carries it (R102, R103, R111): the shape is the command's format and the payload has the length
the device reads. -/
def Frame.wf (c : Config) : Frame → Bool
  | .f0 i => i.wf c && decide (i.format = .f0)
  | .fi i _ => i.wf c && decide (i.format = .fi)
  | .fip i idx payload =>
    match i.format with
    | .fip r => i.wf c && decide (payload.length = payloadLength c r idx)
    | _ => false
  | .fp i payload =>
    match i.format with
    | .fp r => i.wf c && decide (payload.length = c.page r)
    | _ => false

end Sys2Proof
end

