-- ==== Sys2Proof/Decode.lean ====
section
/-! DEFINITION. The byte orders (00_scope.md R9, 20_memory.md R66), the decoder of the opcode byte and of whole command
frames, the encoders, and the host's `decodeTableWord`. -/

namespace Sys2Proof

/-- `le16(v)` (R9) of a natural: the low byte first. -/
def le16 (n : Nat) : List Byte := [BitVec.ofNat 8 n, BitVec.ofNat 8 (n / 256)]

/-- `le(W, v)` (R9): `W` bytes of `n`, the least significant first. -/
def leBytes : Nat → Nat → List Byte
  | 0, _ => []
  | w + 1, n => BitVec.ofNat 8 n :: leBytes w (n / 256)

/-- `le32(v)` (R9). -/
def le32 (v : Word32) : List Byte := leBytes 4 v.toNat

/-- `be16(v)` (R9): the high byte first. -/
def be16 (v : Half) : List Byte := [v.extractLsb' 8 8, v.extractLsb' 0 8]

/-- `(zext_16(h) << 8) | zext_16(l)` (30_encoding.md R117). -/
def indexOf (h l : Byte) : Half := (h.setWidth 16 <<< 8) ||| l.setWidth 16

/-- The opcode map (R107, R108) and the no-op byte (R110), a row each. -/
def opcodeRows (c : Config) : List (Byte × Instr) :=
  [(c.ops.eraseApp, .eraseApp), (c.ops.writePage, .writePage), (c.ops.readPage, .readPage), (c.ops.readCrc, .readCrc),
   (c.ops.readMcuId, .readMcuId), (c.ops.readSerial, .readSerial), (c.ops.readVersion, .readVersion),
   (c.ops.reset, .reset), (c.ops.readFuses, .readFuses), (c.ops.readEeprom, .readEeprom),
   (c.ops.writeEeprom, .writeEeprom), (c.ops.eraseUsersig, .eraseUsersig), (c.ops.readUsersig, .readUsersig),
   (c.ops.writeUsersig, .writeUsersig), (c.ops.readGeometry, .readGeometry), (c.nopByte, .nop)]

/-- The decode of the opcode byte (R107, R108, R120): the whole byte is compared; a byte without a row is the default
case (R109). -/
def decodeOp (c : Config) (b : Byte) : Instr :=
  match (opcodeRows c).lookup b with
  | some i => i
  | none => .unknown b

/-- The opcode byte of an instruction (R107). -/
def opcodeOf (c : Config) : Instr → Byte
  | .eraseApp => c.ops.eraseApp
  | .writePage => c.ops.writePage
  | .readPage => c.ops.readPage
  | .readCrc => c.ops.readCrc
  | .readMcuId => c.ops.readMcuId
  | .readSerial => c.ops.readSerial
  | .readVersion => c.ops.readVersion
  | .reset => c.ops.reset
  | .readFuses => c.ops.readFuses
  | .readEeprom => c.ops.readEeprom
  | .writeEeprom => c.ops.writeEeprom
  | .eraseUsersig => c.ops.eraseUsersig
  | .readUsersig => c.ops.readUsersig
  | .writeUsersig => c.ops.writeUsersig
  | .readGeometry => c.ops.readGeometry
  | .nop => c.nopByte
  | .unknown b => b

/-- Why bytes hold no instruction or no whole frame. No byte value is refused (R109); only a sequence can be short. -/
inductive DecodeError where
  /-- There is no opcode byte. -/
  | noByte
  /-- The frame is cut short: the device would wait for the rest (60_exceptions.md R299(b)). -/
  | cutShort
deriving DecidableEq, Repr

/-- The instruction at the head of a byte sequence, and the bytes after its opcode. -/
def decode (c : Config) : List Byte → Except DecodeError (Instr × List Byte)
  | [] => .error .noByte
  | b :: rest => .ok (decodeOp c b, rest)

/-- The words of an instruction: its one opcode byte (R102). -/
def encode (c : Config) (i : Instr) : List Byte := [opcodeOf c i]

/-- The first `n` bytes and the rest, or the sequence is cut short. -/
def takeBytes : Nat → List Byte → Except DecodeError (List Byte × List Byte)
  | 0, bs => .ok ([], bs)
  | _ + 1, [] => .error .cutShort
  | n + 1, b :: bs =>
    match takeBytes n bs with
    | .ok (p, rest) => .ok (b :: p, rest)
    | .error e => .error e

/-- The frame at the head of a byte sequence (R102, R103, R111), and the bytes after it. -/
def decodeFrame (c : Config) : List Byte → Except DecodeError (Frame × List Byte)
  | [] => .error .noByte
  | b :: bs =>
    let i := decodeOp c b
    match i.format, bs with
    | .f0, rest => .ok (.f0 i, rest)
    | .fi, h :: l :: rest => .ok (.fi i (indexOf h l), rest)
    | .fip r, h :: l :: rest =>
      match takeBytes (payloadLength c r (indexOf h l)) rest with
      | .ok (p, rest') => .ok (.fip i (indexOf h l) p, rest')
      | .error e => .error e
    | .fp r, rest =>
      match takeBytes (c.page r) rest with
      | .ok (p, rest') => .ok (.fp i p, rest')
      | .error e => .error e
    | .fi, _ => .error .cutShort
    | .fip _, _ => .error .cutShort

/-- The bytes of a frame, first on the wire first (R102). -/
def encodeFrame (c : Config) : Frame → List Byte
  | .f0 i => encode c i
  | .fi i idx => encode c i ++ be16 idx
  | .fip i idx payload => encode c i ++ be16 idx ++ payload
  | .fp i payload => encode c i ++ payload

/-- The first `n` bytes of a table word: bit 0 of the word is the least significant bit of the first byte. -/
def tableBytes : Nat → Nat → List Byte
  | 0, _ => []
  | n + 1, w => BitVec.ofNat 8 w :: tableBytes n (w / 256)

/-- The instruction the decoder reads from a table word, with the reference opcodes the table is written in. -/
def decodeTableWord (nbits w : Nat) : Option Instr :=
  match decode Config.tiny (tableBytes (nbits / 8) w) with
  | .ok (i, _) => some i
  | .error _ => none

end Sys2Proof
end

