-- ==== Sys2Proof/Machine/State.lean ====
section
/-! DEFINITION. The state of the block (10_state.md R20), all of it, as plain data; the reasons a step can stop; the state
right after reset (R40). -/

namespace Sys2Proof.Machine

/-- The labels of the control point `seq` (R21). -/
inductive Seq where
  | rst | arbPoll | arbAck | jump | app | fetch | idxHi | idxLo | check | payload | exec | reply | resetting
deriving DecidableEq, Repr, Inhabited

/-- The Entry State (R26). -/
inductive Entry where
  | undecided | application | bootloader
deriving DecidableEq, Repr, Inhabited

/-- The interrupt-vector-table selection (R35). -/
inductive IvSel where
  | appTable | relocated
deriving DecidableEq, Repr, Inhabited

/-- The indirect-jump and extended-addressing register state (R35). -/
inductive ExtAddr where
  | clean | dirty
deriving DecidableEq, Repr, Inhabited

/-- The controller commands (45_nvm_primitives.md R217). None of them names Boot Flash (20_memory.md R65). -/
inductive NvmCmd where
  | eraseAppSection
  | flashWritePage (p : Nat)
  | eepromAtomicWrite (p : Nat)
  | eepromEraseAll
  | eraseUsersigRow
  | writeUsersigRow
deriving DecidableEq, Repr, Inhabited

/-- The two page commits whose page is the latched index (R220, R221). -/
inductive PageCommit where
  | flash | eeprom
deriving DecidableEq, Repr, Inhabited

/-- The three named delays (70_reset_and_hazards.md R345). -/
inductive DelayName where
  | driveSettle | listenSettle | resetDelay
deriving DecidableEq, Repr, Inhabited

/-- The protected registers: the source names one (R228). -/
inductive ProtectedReg where
  | resetTrigger
deriving DecidableEq, Repr, Inhabited

/-- The reset causes (R320). -/
inductive ResetCause where
  | powerOn | external | software | watchdog
deriving DecidableEq, Repr, Inhabited

/-- The events of the trace (R38). -/
inductive Event where
  | rx (b : Byte)
  | tx (b : Byte)
  | txq (b : Byte)
  | de (v : Bool)
  | rxdis (v : Bool)
  | delay (d : DelayName)
  | stage (k : Nat) (v : Byte)
  | issue (c : NvmCmd)
  | done (c : NvmCmd)
  | wdtPet
  | timerStart
  | timerStop
  | protectedWrite (r : ProtectedReg) (v : Nat)
  | jump (addr : Nat)
  | reset (cause : ResetCause)
deriving DecidableEq, Repr, Inhabited

/-- Where the data bytes of a reply come from: `MemRead` (20_memory.md R63), `Crc` (R227), `ConstRead` (R226) and the
geometry parameters (R184). -/
inductive Source where
  | page (r : Region)
  | userRow
  | crc (r : Region)
  | mcuId
  | serial
  | version
  | fuses
  | geometry
deriving DecidableEq, Repr, Inhabited

/-- The pseudocode primitives (00_scope.md R10) and the branches between them. `goto` and `fresh` are assignments that
stand between two primitives (`seq <- LABEL`, and `cnt <- 0` with an empty `data`): they are no step of their own. -/
inductive Prim where
  /-- `seq <- l`. -/
  | goto (l : Seq)
  /-- `cnt <- 0`, and the local `data` is empty. -/
  | fresh
  /-- The arbiter's first primitive after a reset (R322). -/
  | arbitrate
  /-- One poll of Variant B (R324, R325). -/
  | poll
  /-- `WdtPet()` (R294). -/
  | wdtPet
  /-- `op <- RxByte()` and the branch on the opcode (R120). -/
  | rxOp
  /-- `h <- RxByte()` of `ReadIndex()` (R117). -/
  | rxIdxHi
  /-- `l <- RxByte()` of `ReadIndex()`, which latches `idx` (R117). -/
  | rxIdxLo
  /-- `CheckIndex(r)` (R62). -/
  | check (r : Region)
  /-- `ReadPayload(n)` from position `cnt` on (R118). -/
  | rxPayload (n : Nat)
  /-- `Stage(k, buf[k])` (R216). -/
  | stage (k : Nat)
  /-- `Stage(k, v)` (R216). -/
  | stageByte (k : Nat) (v : Byte)
  /-- `WaitReady()` (R215). -/
  | waitReady
  /-- `NvmIssue(c)` (R217). -/
  | issue (c : NvmCmd)
  /-- `NvmIssue` of a page commit to page `idx` (R220, R221). -/
  | issuePage (k : PageCommit)
  /-- `data <- ...`, the bytes of a source after those already there. -/
  | fetch (src : Source)
  /-- `TxByte(b)` (R242). -/
  | txByte (b : Byte)
  /-- `TxByte` of the data bytes from position `cnt` on (R119). -/
  | txData
  /-- `TxWaitComplete()` (R243). -/
  | txWaitComplete
  /-- `SetDE(v)` (R240). -/
  | setDE (v : Bool)
  /-- `SetRxDis(v)` (R240). -/
  | setRxDis (v : Bool)
  /-- `Delay(T)` (R345). -/
  | delay (d : DelayName)
  /-- Where `XCVR` may inject an echo byte (R245); the first one is certain. -/
  | echo (certain : Bool)
  /-- `RxPoll()`, its result thrown away (R244). -/
  | rxPoll
  /-- `TimerStop()` (R293). -/
  | timerStop
  /-- `ProtectedWrite(reg, v)` (R228). -/
  | protectedWrite (r : ProtectedReg) (v : Nat)
  /-- `gie <- 0` (R326). -/
  | clearGie
  /-- `ivsel <- APP_TABLE` (R326). -/
  | selectAppTable
  /-- `extaddr <- CLEAN` (R326). -/
  | cleanExtAddr
  /-- `trace += Jump(APP_ENTRY_ADDR) ; seq <- APP` (R326). -/
  | jumpToApp
deriving DecidableEq, Repr, Inhabited

/-- One move of one agent (00_scope.md R7). -/
inductive Move where
  /-- `SEQ` performs its next primitive. -/
  | seq
  /-- `NVMC` completes the command in flight (R218). -/
  | nvmc
  /-- `UTX` puts the oldest queued byte on the wire (R249). -/
  | utx
  /-- `TMR` ticks (R293). -/
  | tmr
  /-- `XCVR` injects an echo byte (R245). -/
  | xcvr
  /-- `HOST` sends a byte (R260). -/
  | send (b : Byte)
  /-- `HOST` observes the next byte of `wire_out` (R260). -/
  | recv
  /-- `ENV` raises a reset (R320). -/
  | reset (cause : ResetCause)
  /-- `ENV` asserts or releases the entry line (R323). -/
  | line (asserted : Bool)
deriving DecidableEq, Repr, Inhabited

/-- The contents of one region: (offset, byte) pairs with offsets strictly rising and no byte equal to what an unlisted
offset reads as (`Memory.wf`). -/
abbrev Memory := List Host.Cell

/-- `mem[r]` for the four regions (R28). -/
structure NvMem where
  app : Memory
  boot : Memory
  ee : Memory
  us : Memory
deriving DecidableEq, Repr, Inhabited

/-- The state of the block (R20; that `cnt` is below 65536 is a part of the invariant, `Steady.count` of Safety.lean),
and the model's own fields `cfg`, `todo`, `idxHi`, `data`, `hostRead`, `entryLine`, `sched`, `tape`, `draws`
(INVENTORY.md, State). -/
structure State where
  cfg : Config
  seq : Seq
  todo : List Prim
  op : Byte
  idx : Half
  idxHi : Byte
  cnt : Nat
  data : List Byte
  buf : List (Option Byte)
  entry : Entry
  nvmBusy : Bool
  nvmPending : Option NvmCmd
  nvmStage : List Host.Cell
  mem : NvMem
  rxq : List Byte
  txq : List Byte
  wireOut : List Byte
  hostRead : Nat
  de : Bool
  rxdis : Bool
  tcnt : Nat
  trun : Bool
  gie : Bool
  ivsel : IvSel
  extaddr : ExtAddr
  unlockArmed : Bool
  entryLine : Bool
  trace : List Event
  sched : List Move
  tape : List Byte
  draws : Nat
deriving DecidableEq, Repr, Inhabited

/-- Why the machine stops. Each reason is one the spec names; each is SAFE (the machine stops where the spec makes the
targets unspecified, or where it asks for a fault) and none can be reached from reset. -/
inductive Fault where
  /-- `NvmIssue` with `nvm_busy = 1` (R217, R229, U5). Raised by the primitives `issue` and `issuePage`. Safe. -/
  | nvmCommandWhileBusy
  /-- A position of the Page Buffer that no command has written is read (R25, D31, U12). Raised by `stage`. Safe. -/
  | unwrittenBufferRead
  /-- `ProtectedWrite` with interrupts enabled (R228, U6). Raised by `protectedWrite`. Safe. -/
  | unlockWindowMissed
  /-- A page outside its region is read or committed (R63, R220, R221: precondition `p < page_count(r)`; log 12).
  Raised by `fetch`, `issue` and `issuePage`. Safe. -/
  | outsideRegion
deriving DecidableEq, Repr

/-- Why an instruction has no meaning here. -/
inductive Refusal where
  /-- The instruction has no meaning yet. Raised by `exec` only. Safe. -/
  | notModelled (mnemonic : String)
  /-- The configuration breaks a constraint of 00_scope.md R8: "a model refuses a configuration that breaks one"
  (U13). Raised by `step`. Safe. -/
  | configurationRefused
deriving DecidableEq, Repr

/-- What a step answers. -/
abbrev Result := Host.Outcome State Fault Refusal

namespace State

/-- Every piece of state at its value after a reset (R40), for a device built with configuration `c`, no history, no
input pending and nothing listed in memory. `op`, `idx`, `cnt`, `ivsel` and `extaddr` have no value in the spec (log 6).
-/
def resetOf (c : Config) : State where
  cfg := c
  seq := .rst
  todo := [.arbitrate]
  op := 0
  idx := 0
  idxHi := 0
  cnt := 0
  data := []
  buf := List.replicate c.bufSize none
  entry := .undecided
  nvmBusy := false
  nvmPending := none
  nvmStage := []
  mem := ⟨[], [], [], []⟩
  rxq := []
  txq := []
  wireOut := []
  hostRead := 0
  de := false
  rxdis := false
  tcnt := 0
  trun := false
  gie := false
  ivsel := .relocated
  extaddr := .dirty
  unlockArmed := false
  entryLine := false
  trace := []
  sched := []
  tape := []
  draws := 0

/-- The machine right after `Reset(POWER_ON)`, with the configuration TINYCFG (log 2). -/
def reset : State := { resetOf Config.tiny with trace := [.reset .powerOn] }

end State

end Sys2Proof.Machine
end

