-- ==== Sys2Proof/Machine/Ops.lean ====
section
/-! DEFINITION. The named operations over memory, the queues, the lines, the controller and the timer; the macros of the
pseudocode as lists of primitives; RangeError and the return to the command loop; the effect of a reset. -/

namespace Sys2Proof.Machine

/-! ### Byte maps: lists of (key, byte) with keys strictly rising -/

/-- The byte at a key, if there is one. -/
def Cells.get? : List Host.Cell → Nat → Option Byte
  | [], _ => none
  | (k, v) :: cs, a => if a = k then some v else Cells.get? cs a

/-- The map with `b` at key `a`, replacing what was there. -/
def Cells.set : List Host.Cell → Nat → Byte → List Host.Cell
  | [], a, b => [(a, b)]
  | (k, v) :: cs, a, b =>
    if a < k then (a, b) :: (k, v) :: cs else if a = k then (a, b) :: cs else (k, v) :: Cells.set cs a b

/-- The map without key `a`. -/
def Cells.erase : List Host.Cell → Nat → List Host.Cell
  | [], _ => []
  | (k, v) :: cs, a => if a = k then cs else (k, v) :: Cells.erase cs a

/-- Keys strictly rising. -/
def Cells.rising (cs : List Host.Cell) : Bool := decide (cs.Pairwise fun x y => x.1 < y.1)

/-! ### One region, and the four regions -/

/-- What an offset that nothing has written reads as (log 7): the erased value of EEPROM (45_nvm_primitives.md R222). -/
def Memory.blank : Byte := 0xFF

/-- The byte at offset `a`. -/
def Memory.read (m : Memory) (a : Nat) : Byte := (Cells.get? m a).getD Memory.blank

/-- The region with byte `b` at offset `a`, in canonical form. -/
def Memory.write (m : Memory) (a : Nat) (b : Byte) : Memory :=
  if b = Memory.blank then Cells.erase m a else Cells.set m a b

/-- The canonical form: offsets strictly rising, no listed byte equal to what an unlisted offset reads as. -/
def Memory.wf (m : Memory) : Bool := Cells.rising m && m.all fun x => x.2 != Memory.blank

/-- The contents of region `r` (10_state.md R28). -/
def NvMem.region (m : NvMem) : Region → Memory
  | .app => m.app
  | .boot => m.boot
  | .ee => m.ee
  | .us => m.us

/-- The four regions with region `r` replaced. -/
def NvMem.setRegion (m : NvMem) (r : Region) (x : Memory) : NvMem :=
  match r with
  | .app => { m with app := x }
  | .boot => { m with boot := x }
  | .ee => { m with ee := x }
  | .us => { m with us := x }

/-- `mem[r][a]`. -/
def NvMem.read (m : NvMem) (r : Region) (a : Nat) : Byte := (m.region r).read a

/-- `mem[r][a] <- b`. -/
def NvMem.write (m : NvMem) (r : Region) (a : Nat) (b : Byte) : NvMem := m.setRegion r ((m.region r).write a b)

/-- `MemRead(r, a, n)` (20_memory.md R63): ascending offsets. -/
def NvMem.readBytes (m : NvMem) (r : Region) (a n : Nat) : List Byte :=
  (List.range n).map fun k => m.read r (a + k)

/-- The bytes of `bs` at offsets `a`, `a + 1`, ... of region `r`. -/
def NvMem.writeBytes (m : NvMem) (r : Region) (a : Nat) : List Byte → NvMem
  | [] => m
  | b :: bs => NvMem.writeBytes (m.write r a b) r (a + 1) bs

/-- Canonical in every region, and nothing listed at an offset the region does not have. -/
def NvMem.wf (c : Config) (m : NvMem) : Bool :=
  [Region.app, .boot, .ee, .us].all fun r =>
    (m.region r).wf && (m.region r).all fun x => decide (x.1 < c.size r)

/-- The offset of page `p` of region `r` from the region's base (R63). -/
def pageOffset (c : Config) (r : Region) (p : Nat) : Nat := p * c.page r

/-! ### The trace and the draws -/

/-- `trace += e` (10_state.md R38). -/
def log (e : Event) (s : State) : State := { s with trace := s.trace ++ [e] }

/-- One draw (00_scope.md R11): the next byte of the tape, or with the tape empty the next free value (log 5). -/
def draw (s : State) : Byte × State :=
  match s.tape with
  | b :: rest => (b, { s with tape := rest })
  | [] => (Config.freeByte s.draws, { s with draws := s.draws + 1 })

/-- The bytes given, with a draw for each one that has no given value. -/
def fillDraws : List (Option Byte) → State → List Byte × State
  | [], s => ([], s)
  | some b :: rest, s => let r := fillDraws rest s; (b :: r.1, r.2)
  | none :: rest, s => let d := draw s; let r := fillDraws rest d.2; (d.1 :: r.1, r.2)

/-! ### The wire -/

/-- `op <- RxByte()` at `FETCH` (10_state.md R22, R31). -/
def takeOpcode (s : State) : State :=
  match s.rxq with
  | [] => s
  | b :: rest => log (.rx b) { s with rxq := rest, op := b }

/-- `RxPoll()` with its result thrown away (R31): "never blocks", consumes the oldest byte if there is one. -/
def rxPoll (s : State) : State :=
  { s with rxq := s.rxq.tail, trace := s.trace ++ s.rxq.head?.toList.map .rx }

/-- `TxByte(b)` (46_transceiver.md R242). -/
def txByte (b : Byte) (s : State) : State := log (.txq b) { s with txq := s.txq ++ [b] }

/-- `UTX` moves the oldest queued byte to the wire (R249). -/
def utxMove (s : State) : State :=
  match s.txq with
  | [] => s
  | b :: rest => log (.tx b) { s with txq := rest, wireOut := s.wireOut ++ [b] }

/-- `UTX` moves until nothing is queued. -/
def drain (s : State) : State :=
  { s with txq := [], wireOut := s.wireOut ++ s.txq, trace := s.trace ++ s.txq.map .tx }

/-- `SetDE(v)` (R240). -/
def setDE (v : Bool) (s : State) : State := log (.de v) { s with de := v }

/-- `SetRxDis(v)` (R240). -/
def setRxDis (v : Bool) (s : State) : State := log (.rxdis v) { s with rxdis := v }

/-- `XCVR` appends an echo byte of drawn value (R245): the first one is certain, of a further one a draw says whether it
comes. -/
def echoByte (certain : Bool) (s : State) : State :=
  if certain then
    let v := draw s
    { v.2 with rxq := s.rxq ++ [v.1] }
  else
    let p := draw s
    let v := draw p.2
    { v.2 with rxq := s.rxq ++ if p.1 = 0 then [] else [v.1] }

/-! ### The controller -/

/-- The bytes a command can write: region, first offset, number of bytes (R218, R230). -/
def NvmCmd.target (c : Config) : NvmCmd → Region × Nat × Nat
  | .eraseAppSection => (.app, 0, c.size .app)
  | .flashWritePage p => (.app, pageOffset c .app p, c.page .app)
  | .eepromAtomicWrite p => (.ee, pageOffset c .ee p, c.page .ee)
  | .eepromEraseAll => (.ee, 0, c.size .ee)
  | .eraseUsersigRow => (.us, 0, c.size .us)
  | .writeUsersigRow => (.us, 0, c.page .us)

/-- The page the command names lies in its region (R220, R221). -/
def NvmCmd.inRange (c : Config) : NvmCmd → Bool
  | .flashWritePage p => decide (p < c.pageCount .app)
  | .eepromAtomicWrite p => decide (p < c.pageCount .ee)
  | _ => true

/-- `W(old, S, k)` (R218): the staged byte, if a commit may leave it there; otherwise a draw. -/
def flashWanted (s : State) (r : Region) (a k : Nat) : Option Byte :=
  match Cells.get? s.nvmStage k with
  | some v => if !s.cfg.flashWriteRequiresErased || s.mem.read r a == s.cfg.erasedByte then some v else none
  | none => none

/-- What the command leaves in each byte of its target (R218): a byte, or none where it leaves a draw. -/
def NvmCmd.wanted (s : State) : NvmCmd → List (Option Byte)
  | .eraseAppSection => List.replicate (s.cfg.size .app) (some s.cfg.erasedByte)
  | .eraseUsersigRow => List.replicate (s.cfg.size .us) (some s.cfg.erasedByte)
  | .eepromEraseAll => List.replicate (s.cfg.size .ee) (some 0xFF)
  | .eepromAtomicWrite _ => (List.range (s.cfg.page .ee)).map fun k => Cells.get? s.nvmStage k
  | .flashWritePage p =>
    (List.range (s.cfg.page .app)).map fun k => flashWanted s .app (pageOffset s.cfg .app p + k) k
  | .writeUsersigRow => (List.range (s.cfg.page .us)).map fun k => flashWanted s .us k k

/-- The bytes written at the target of a command, draws where none is given. -/
def writeTarget (c : NvmCmd) (bytes : List (Option Byte)) (s : State) : State :=
  let w := fillDraws bytes s
  { w.2 with mem := s.mem.writeBytes (c.target s.cfg).1 (c.target s.cfg).2.1 w.1 }

/-- `NvmIssue(c)` with the controller idle (R217). -/
def nvmIssue (c : NvmCmd) (s : State) : State :=
  log (.issue c) { s with nvmPending := some c, nvmBusy := true }

/-- `NvmComplete()`, the one step of `NVMC` (R218). -/
def nvmComplete (s : State) : State :=
  match s.nvmPending with
  | none => { s with nvmBusy := false }
  | some c =>
    log (.done c) { writeTarget c (c.wanted s) s with nvmStage := [], nvmPending := none, nvmBusy := false }

/-- `Stage(k, v)` (R216). -/
def stageByte (k : Nat) (v : Byte) (s : State) : State :=
  log (.stage k v) { s with nvmStage := Cells.set s.nvmStage k v }

/-! ### The boot timer -/

/-- `TimerStart()` (60_exceptions.md R293). -/
def timerStart (s : State) : State := log .timerStart { s with tcnt := 0, trun := true }

/-- `TimerStop()` (R293). -/
def timerStop (s : State) : State := log .timerStop { s with trun := false }

/-- One step of `TMR` (R293). -/
def timerTick (s : State) : State := if s.trun then { s with tcnt := s.tcnt + 1 } else s

/-! ### Macros of the pseudocode -/

/-- `TxBegin()` (46_transceiver.md R241); nothing in LEGACY (R246). -/
def txBegin (c : Config) : List Prim :=
  if c.halfDuplex then [.setDE true, .setRxDis true, .delay .driveSettle] else []

/-- `TxEnd()` (R244) with the echo (R245); nothing in LEGACY. -/
def txEnd (c : Config) : List Prim :=
  if c.halfDuplex then
    [.txWaitComplete, .setDE false, .setRxDis false, .delay .listenSettle, .echo true]
      ++ List.replicate (c.echoMax - 1) (.echo false) ++ List.replicate c.echoDiscardReads .rxPoll
  else []

/-- A burst of device-to-host bytes in its bracket (R119, R247). -/
def bracket (c : Config) (body : List Prim) : List Prim := txBegin c ++ body ++ txEnd c

/-- `Reply([b])`, format `RS` (30_encoding.md R104, R119). -/
def replyStatus (c : Config) (b : Byte) : List Prim := .goto .reply :: bracket c [.txByte b]

/-- `Reply(header ++ data)` (R104, R119). -/
def replyData (c : Config) (header : List Byte) : List Prim :=
  .goto .reply :: bracket c (header.map .txByte ++ [.txData])

/-- `ReadIndex()` (R117). -/
def readIndex : List Prim := [.goto .idxHi, .rxIdxHi, .goto .idxLo, .rxIdxLo]

/-- `seq <- CHECK`, then `CheckIndex(r)` (20_memory.md R62). -/
def checkIndex (r : Region) : List Prim := [.goto .check, .check r]

/-- `ReadPayload(n)` (R118). -/
def readPayload (n : Nat) : List Prim := [.fresh, .goto .payload, .rxPayload n]

/-- `StagePage(n)` (45_nvm_primitives.md R216). -/
def stagePage (n : Nat) : List Prim := (List.range n).map .stage

/-- `FlashEraseApp()` (R219). -/
def flashEraseApp : List Prim := [.waitReady, .issue .eraseAppSection, .waitReady]

/-- `FlashPageWrite(idx)` (R220): "load buffer → wait-ready → commit → wait-ready, in that exact order". -/
def flashPageWrite (c : Config) : List Prim :=
  stagePage (c.page .app) ++ [.waitReady, .issuePage .flash, .waitReady]

/-- `EepromAtomicWrite(idx, the whole page of buf)` as WRITE_EEPROM calls it (R161, R221). -/
def eepromPageWrite (c : Config) : List Prim :=
  stagePage (c.page .ee) ++ [.waitReady, .issuePage .eeprom, .waitReady]

/-- `EepromAtomicWrite(p, staged)` (R221), called directly. -/
def eepromAtomicWrite (p : Nat) (staged : List Host.Cell) : List Prim :=
  (staged.map fun x => .stageByte x.1 x.2) ++ [.waitReady, .issue (.eepromAtomicWrite p), .waitReady]

/-- `EepromFullErase()` (R222), called directly. -/
def eepromFullErase : List Prim := [.waitReady, .issue .eepromEraseAll, .waitReady]

/-- `UserSigErase()` (R223). -/
def userSigErase : List Prim := [.waitReady, .issue .eraseUsersigRow, .waitReady]

/-- `UserSigWrite()` (R224). -/
def userSigWrite (c : Config) : List Prim :=
  stagePage (c.page .us) ++ [.waitReady, .issue .writeUsersigRow, .waitReady]

/-- The acknowledgement path of Variant B (70_reset_and_hazards.md R324), after `entry <- BOOTLOADER`. The label
is `ARB_ACK` through the bracket (DEDUCED, log 9) and still while the timer is stopped, where no rule gives one (DESIGN
CHOICE, log 9). -/
def acknowledge (c : Config) : List Prim := .goto .arbAck :: bracket c [.txByte c.arbAckByte] ++ [.timerStop]

/-- `JumpToApp()` (R326): the four actions in their order. -/
def jumpToApp : List Prim := [.goto .jump, .clearGie, .selectAppTable, .cleanExtAddr, .jumpToApp]

/-! ### RangeError and the return -/

/-- `raise RangeError` (60_exceptions.md R281): "means exactly `Reply([ST_FAIL]); return to FETCH`". Nothing is saved and
no mode changes (R289). -/
def rangeError (c : Config) : List Prim := replyStatus c c.stFail

/-- The top of the command loop (30_encoding.md R120). -/
def loopTop : List Prim := [.wdtPet, .rxOp]

/-- The end of a control path (10_state.md R21, 60_exceptions.md R290): back to `FETCH`, unless the block has jumped to
the application or waits for its reset. -/
def home (s : State) : State :=
  if s.seq = .app ∨ s.seq = .resetting then { s with todo := [] } else { s with seq := .fetch, todo := loopTop }

/-- The control point at the start of a list of primitives, the assignments before the first primitive done. -/
def settle : List Prim → State → State
  | [], s => home s
  | .goto l :: ps, s => settle ps { s with seq := l }
  | .fresh :: ps, s => settle ps { s with cnt := 0, data := [] }
  | p :: ps, s => { s with todo := p :: ps }

/-! ### Reset -/

/-- The memory after a reset (45_nvm_primitives.md R230): every byte the command in flight could have written is a draw,
every other byte is preserved. -/
def scramble (s : State) : State :=
  match s.nvmPending with
  | none => s
  | some c => writeTarget c (List.replicate (c.target s.cfg).2.2 none) s

/-- `Reset(cause)` (70_reset_and_hazards.md R321): every piece of state takes the value of 10_state.md R40. What is not
hardware (history, pending inputs, the environment) stays. -/
def applyReset (cause : ResetCause) (s : State) : State :=
  let w := scramble s
  { State.resetOf s.cfg with
    mem := w.mem
    wireOut := s.wireOut
    hostRead := s.hostRead
    entryLine := s.entryLine
    trace := s.trace ++ [.reset cause]
    sched := s.sched
    tape := w.tape
    draws := w.draws }

end Sys2Proof.Machine
end

