-- ==== Sys2Proof/Machine/Operands.lean ====
section
/-! DEFINITION. The operands of the commands: the page index and its check, the payload, and the bytes a reply reads. -/

namespace Sys2Proof.Machine

/-- A valid index (20_memory.md R62): unsigned comparison of the 16-bit index with the page count. -/
def validIndex (c : Config) (r : Region) (idx : Half) : Bool := decide (idx.toNat < c.pageCount r)

/-- `h <- RxByte()` of `ReadIndex()` (30_encoding.md R117). -/
def takeIdxHi (b : Byte) (rest : List Byte) (s : State) : State :=
  log (.rx b) { s with rxq := rest, idxHi := b }

/-- `l <- RxByte()` of `ReadIndex()`, and `idx <- (zext_16(h) << 8) | zext_16(l)` (R117). -/
def takeIdxLo (b : Byte) (rest : List Byte) (s : State) : State :=
  log (.rx b) { s with rxq := rest, idx := indexOf s.idxHi b }

/-- `buf[cnt] <- RxByte()`, and `cnt` counts it (R118, 10_state.md R24). -/
def takePayload (b : Byte) (rest : List Byte) (s : State) : State :=
  log (.rx b) { s with rxq := rest, buf := s.buf.set s.cnt (some b), cnt := s.cnt + 1 }

/-- `buf[k]`: none where the position is unwritten or outside the buffer (10_state.md R25). -/
def bufAt (s : State) (k : Nat) : Option Byte := (s.buf[k]?).join

/-- `Crc(r)` (45_nvm_primitives.md R227): the whole region in ascending order. -/
def crcOf (s : State) (r : Region) : Word32 := Config.crc32Fn (s.mem.readBytes r 0 (s.cfg.size r))

/-- The bytes of a source: `MemRead(r, idx*PAGE(r), PAGE(r))` (R142, R160), `MemRead(US, 0, US_SIZE)` (R171), a checksum
`le32` (R143), a constant space (R226) or the geometry fields (R184). -/
def sourceBytes (s : State) : Source → List Byte
  | .page r => s.mem.readBytes r (pageOffset s.cfg r s.idx.toNat) (s.cfg.page r)
  | .userRow => s.mem.readBytes .us 0 (s.cfg.size .us)
  | .crc r => le32 (crcOf s r)
  | .mcuId => s.cfg.mcuId
  | .serial => s.cfg.serial
  | .version => [s.cfg.version]
  | .fuses => s.cfg.fuses
  | .geometry => s.cfg.geomFields.flatMap fun q => leBytes s.cfg.geomW (s.cfg.quantity q)

/-- The source lies inside its region (R63). -/
def sourceInRange (s : State) : Source → Bool
  | .page r => validIndex s.cfg r s.idx
  | _ => true

/-- The controller command of a page commit: page `idx` (R220, R221). -/
def PageCommit.command (idx : Half) : PageCommit → NvmCmd
  | .flash => .flashWritePage idx.toNat
  | .eeprom => .eepromAtomicWrite idx.toNat

end Sys2Proof.Machine
end

