-- ==== Sys2Proof/Machine/Flags.lean ====
section
/-! DEFINITION. The four one-bit conditions the block tests (10_state.md R27; it has no condition codes), and the modes of
the transceiver (46_transceiver.md R240, R250). -/

namespace Sys2Proof.Machine

/-- Controller ready: what `WaitReady()` tests (R27(a)). -/
def nvmReady (s : State) : Bool := !s.nvmBusy

/-- Receive-available (R27(b)). -/
def rxAvailable (s : State) : Bool := !s.rxq.isEmpty

/-- Transmit-complete (R27(c)). -/
def txComplete (s : State) : Bool := s.txq.isEmpty

/-- Timer-expired: `trun = 1 and tcnt >= BOOT_TIMEOUT_TICKS` (R27(d)). -/
def timerExpired (s : State) : Bool := s.trun && decide (s.cfg.bootTimeoutTicks ≤ s.tcnt)

/-- Listen mode: `de = 0 and rxdis = 0` (R240). -/
def listening (s : State) : Bool := !s.de && !s.rxdis

/-- The sequencer is inside the trailing edge, its discarding reads not yet all done (R244, R245). -/
def turning : List Prim → Bool
  | .delay .listenSettle :: _ => true
  | .echo _ :: _ => true
  | .rxPoll :: _ => true
  | _ => false

/-- "While `de = 1` or `rxdis = 1`, and until the discarding reads of `TxEnd` are done" (R250). -/
def busBusy (s : State) : Bool := s.cfg.halfDuplex && (s.de || s.rxdis || turning s.todo)

end Sys2Proof.Machine
end

