-- ==== Sys2Proof/Machine/Sequencer.lean ====
section
/-! DEFINITION. The sequencer: what each primitive does (00_scope.md R10), and the run of a control path with the other
agents moving only where the sequencer waits for them. -/

namespace Sys2Proof.Machine

/-- What performing a primitive comes to. -/
inductive Effect where
  /-- The primitive is done. -/
  | done (s : State)
  /-- One step of a loop is done and the loop goes on. -/
  | again (s : State)
  /-- The primitive blocks: another agent must move first. -/
  | wait (s : State)
  /-- The control path changes to another list of primitives. -/
  | turn (path : List Prim) (s : State)
  /-- The machine stops. -/
  | fault (f : Fault)
deriving DecidableEq, Repr

/-- `NvmIssue(c)` with its preconditions (45_nvm_primitives.md R217, R220, R221, R229). -/
def tryIssue (c : NvmCmd) (s : State) : Effect :=
  if s.nvmBusy then .fault .nvmCommandWhileBusy
  else if c.inRange s.cfg then .done (nvmIssue c s)
  else .fault .outsideRegion

/-- `ReadPayload(n)` from position `cnt` on, one byte (30_encoding.md R118). -/
def payloadStep (n : Nat) (s : State) : Effect :=
  if s.cnt < n then
    match s.rxq with
    | [] => .wait s
    | b :: rest => if s.cnt + 1 < n then .again (takePayload b rest s) else .done (takePayload b rest s)
  else .done s

/-- The data bytes of a reply from position `cnt` on, one byte (R119, 10_state.md R24). -/
def dataStep (s : State) : Effect :=
  match s.data[s.cnt]? with
  | none => .done s
  | some b =>
    let s' := txByte b { s with cnt := s.cnt + 1 }
    if s.cnt + 1 < s.data.length then .again s' else .done s'

/-- The decision to stay (70_reset_and_hazards.md R324): `entry <- BOOTLOADER`, then the acknowledgement. -/
def stay (s : State) : Effect := .turn (acknowledge s.cfg) { s with entry := .bootloader }

/-- The decision to leave (R324): `entry <- APPLICATION`, then the jump. -/
def leave (s : State) : Effect := .turn jumpToApp { s with entry := .application }

/-- P1 and P2 of R324: the byte is taken; the no-op byte decides, any other is dropped. -/
def pollByte (b : Byte) (s : State) : Effect :=
  if b = s.cfg.nopByte then stay (rxPoll s) else .again (rxPoll s)

/-- One poll of Variant B (R324, R325). With a byte waiting and the timer expired both outcomes are admitted: a draw
chooses. -/
def pollStep (s : State) : Effect :=
  match s.rxq with
  | [] => if timerExpired s then leave s else .wait s
  | b :: _ =>
    if timerExpired s then
      let d := draw s
      if d.1 = 0 then pollByte b d.2 else leave d.2
    else pollByte b s

/-- The arbiter's first primitive (R322): Variant A samples the entry line and decides (R323), Variant B starts the timer
and polls (R324). -/
def arbitrate (s : State) : Effect :=
  match s.cfg.entryVariant with
  | .a => if s.entryLine then .turn [] { s with entry := .bootloader } else leave s
  | .b => .turn [.goto .arbPoll, .poll] (timerStart s)

/-- Performing one primitive (00_scope.md R10). The opcode byte itself is taken by the fetch (`takeOpcode`). -/
def perform (p : Prim) (s : State) : Effect :=
  match p with
  | .goto l => .done { s with seq := l }
  | .fresh => .done { s with cnt := 0, data := [] }
  | .arbitrate => arbitrate s
  | .poll => pollStep s
  | .wdtPet => .done (log .wdtPet s)
  | .rxOp => .wait s
  | .rxIdxHi =>
    match s.rxq with
    | [] => .wait s
    | b :: rest => .done (takeIdxHi b rest s)
  | .rxIdxLo =>
    match s.rxq with
    | [] => .wait s
    | b :: rest => .done (takeIdxLo b rest s)
  | .check r => if validIndex s.cfg r s.idx then .done s else .turn (rangeError s.cfg) s
  | .rxPayload n => payloadStep n s
  | .stage k =>
    match bufAt s k with
    | some v => .done (stageByte k v s)
    | none => .fault .unwrittenBufferRead
  | .stageByte k v => .done (stageByte k v s)
  | .waitReady => if nvmReady s then .done s else .wait s
  | .issue c => tryIssue c s
  | .issuePage k => tryIssue (k.command s.idx) s
  | .fetch src =>
    if sourceInRange s src then .done { s with data := s.data ++ sourceBytes s src } else .fault .outsideRegion
  | .txByte b => .done (txByte b s)
  | .txData => dataStep s
  | .txWaitComplete => if txComplete s then .done s else .wait s
  | .setDE v => .done (setDE v s)
  | .setRxDis v => .done (setRxDis v s)
  | .delay d => .done (log (.delay d) s)
  | .echo certain => .done (echoByte certain s)
  | .rxPoll => .done (rxPoll s)
  | .timerStop => .done (timerStop s)
  | .protectedWrite r v =>
    if s.gie then .fault .unlockWindowMissed else .done (log (.protectedWrite r v) { s with unlockArmed := false })
  | .clearGie => .done { s with gie := false }
  | .selectAppTable => .done { s with ivsel := .appTable }
  | .cleanExtAddr => .done { s with extaddr := .clean }
  | .jumpToApp => .done (log (.jump s.cfg.appEntryAddr) { s with seq := .app })

/-- The agent a primitive waits for moves (R7): the controller completes, the transmitter empties its queue. Whether
`T_RESET_DELAY` is long enough for the transmitter is the configuration's (R336, log 13). -/
def help (p : Prim) (s : State) : State :=
  match p with
  | .waitReady => if s.nvmBusy then nvmComplete s else s
  | .txWaitComplete => drain s
  | .delay .resetDelay => if s.cfg.resetDelayCoversTx then drain s else s
  | _ => s

/-- A primitive performed again while its loop goes on, at most `n` times. -/
def iterate : Nat → Prim → State → Effect
  | 0, _, s => .again s
  | n + 1, p, s =>
    match perform p s with
    | .again s' => iterate n p s'
    | e => e

/-- How often a primitive can be performed in one run of its loop. -/
def bound (p : Prim) (s : State) : Nat :=
  match p with
  | .rxPayload n => n + 1
  | .txData => s.data.length + 1
  | _ => 1

/-- A primitive with its whole loop, after the move of the agent it waits for. -/
def drive (p : Prim) (s : State) : Effect := iterate (bound p (help p s)) p (help p s)

/-- The run of a list of primitives, as far as it goes: to its end, or to a primitive that blocks. -/
def runPath : List Prim → State → Result
  | [], s => .next (home s)
  | p :: ps, s =>
    match drive p s with
    | .done s' => runPath ps s'
    | .again s' => .next { s' with todo := p :: ps }
    | .wait s' => .next { s' with todo := p :: ps }
    | .turn path s' => .next (settle path s')
    | .fault f => .fault f

/-- The run of a control path with one branch: after the branch the run goes on along the path turned to. -/
def runCommand : List Prim → State → Result
  | [], s => .next (home s)
  | p :: ps, s =>
    match drive p s with
    | .done s' => runCommand ps s'
    | .again s' => .next { s' with todo := p :: ps }
    | .wait s' => .next { s' with todo := p :: ps }
    | .turn path s' => runPath path s'
    | .fault f => .fault f

end Sys2Proof.Machine
end

