-- ==== Sys2Proof/Machine/Control.lean ====
section
/-! DEFINITION. The control commands (44_control_commands.md R200 to R202): RESET, the no-op byte and the default case. -/

namespace Sys2Proof.Machine

/-- RESET (R200). -/
def resetPath (c : Config) : List Prim :=
  replyStatus c c.stOk ++ [.delay .resetDelay, .protectedWrite .resetTrigger 1, .goto .resetting]

/-- RESET (R200): the status, the delay, the protected write, then `RESETTING`; the reset itself is the next event. -/
def execReset (s : State) : Result := runCommand (resetPath s.cfg) s

/-- NOP in the command loop (R202): consumed, not acknowledged. -/
def execNop (s : State) : Result := runCommand [] s

/-- UNKNOWN (R201): "(nothing)", return to `FETCH`. -/
def execUnknown (s : State) : Result := runCommand [] s

end Sys2Proof.Machine
end

