-- ==== Sys2Proof/Machine/Eeprom.lean ====
section
/-! DEFINITION. The EEPROM commands (41_eeprom_commands.md R160, R161), and the two primitives of the EEPROM that no
command calls as they stand (45_nvm_primitives.md R221, R222). -/

namespace Sys2Proof.Machine

/-- READ_EEPROM (R160). -/
def readEepromPath (c : Config) : List Prim :=
  readIndex ++ checkIndex .ee ++ [.fresh, .fetch (.page .ee)] ++ replyData c (c.stOk :: le16 (c.page .ee))

/-- WRITE_EEPROM (R161). -/
def writeEepromPath (c : Config) : List Prim :=
  readIndex ++ checkIndex .ee ++ readPayload (c.page .ee) ++ [.goto .exec] ++ eepromPageWrite c
    ++ replyStatus c c.stOk

/-- READ_EEPROM (R160): index, check against the EEPROM page count, status, count and the page. -/
def execReadEeprom (s : State) : Result := runCommand (readEepromPath s.cfg) s

/-- WRITE_EEPROM (R161): index, check, payload, atomic commit, status. -/
def execWriteEeprom (s : State) : Result := runCommand (writeEepromPath s.cfg) s

/-- `EepromAtomicWrite(p, staged)` called directly, between two commands (R221, log 19). A list that is no partial map on
`0 .. EE_PAGE-1` is outside the spec. DESIGN CHOICE (log 30): it is staged in list order, the last byte of a repeated
offset stands, and the commit ignores an offset past the page. -/
def callEepromAtomicWrite (p : Nat) (staged : List Host.Cell) (s : State) : Result :=
  runCommand (eepromAtomicWrite p staged) s

/-- `EepromFullErase()` called directly, between two commands (R222, log 19). -/
def callEepromFullErase (s : State) : Result := runCommand eepromFullErase s

end Sys2Proof.Machine
end

