-- ==== Sys2Proof/Machine/Flash.lean ====
section
/-! DEFINITION. The application-flash commands (40_flash_commands.md R140 to R143): the pseudocode of each as a list of
primitives, and its meaning. -/

namespace Sys2Proof.Machine

/-- ERASE_APP (R140). -/
def eraseAppPath (c : Config) : List Prim := [.goto .exec] ++ flashEraseApp ++ replyStatus c c.stOk

/-- The early acknowledgement of WRITE_PAGE (30_encoding.md R115). -/
def earlyAck (c : Config) : List Prim := if c.ackMode = .earlyAndFinal then replyStatus c c.stOk else []

/-- WRITE_PAGE (R141). -/
def writePagePath (c : Config) : List Prim :=
  readIndex ++ checkIndex .app ++ earlyAck c ++ readPayload (c.page .app)
    ++ [.goto .exec] ++ flashPageWrite c ++ replyStatus c c.stOk

/-- READ_PAGE (R142). -/
def readPagePath (c : Config) : List Prim :=
  readIndex ++ checkIndex .app ++ [.fresh, .fetch (.page .app)] ++ replyData c (c.stOk :: le16 (c.page .app))

/-- READ_CRC (R143). -/
def readCrcPath (c : Config) : List Prim :=
  [.goto .exec, .fresh, .fetch (.crc .app), .fetch (.crc .boot)] ++ replyData c [c.stOk]

/-- ERASE_APP (R140): every byte of Application Flash becomes `ERASED_BYTE`, then the status. -/
def execEraseApp (s : State) : Result := runCommand (eraseAppPath s.cfg) s

/-- WRITE_PAGE (R141): index, check, payload, commit, status; RangeError on an invalid index. -/
def execWritePage (s : State) : Result := runCommand (writePagePath s.cfg) s

/-- READ_PAGE (R142): index, check, status, count and the page; RangeError on an invalid index. -/
def execReadPage (s : State) : Result := runCommand (readPagePath s.cfg) s

/-- READ_CRC (R143): status and the two checksums, application first. -/
def execReadCrc (s : State) : Result := runCommand (readCrcPath s.cfg) s

end Sys2Proof.Machine
end

