-- ==== Sys2Proof/Machine/Query.lean ====
section
/-! DEFINITION. The identification and query commands (43_query_commands.md R180 to R184). Their constants are read inside
`Reply` (log 9). -/

namespace Sys2Proof.Machine

/-- A reply that sends one source after its header. -/
def queryPath (c : Config) (src : Source) (header : List Byte) : List Prim :=
  [.goto .reply, .fresh, .fetch src] ++ replyData c header

/-- READ_MCU_ID (R180). -/
def readMcuIdPath (c : Config) : List Prim := queryPath c .mcuId (c.stOk :: le16 4)

/-- READ_SERIAL (R181). -/
def readSerialPath (c : Config) : List Prim := queryPath c .serial (c.stOk :: le16 c.serial.length)

/-- READ_VERSION (R182): no count field. -/
def readVersionPath (c : Config) : List Prim := queryPath c .version [c.stOk]

/-- READ_FUSES (R183): no status in LEGACY, status in HALFDUPLEX, no count field in either. -/
def readFusesPath (c : Config) : List Prim := queryPath c .fuses (if c.protocol = .legacy then [] else [c.stOk])

/-- READ_GEOMETRY (R184): no count field. -/
def readGeometryPath (c : Config) : List Prim := queryPath c .geometry [c.stOk]

/-- READ_MCU_ID (R180): status, count 4 and the four identifier bytes. -/
def execReadMcuId (s : State) : Result := runCommand (readMcuIdPath s.cfg) s

/-- READ_SERIAL (R181): status, count and the serial bytes. -/
def execReadSerial (s : State) : Result := runCommand (readSerialPath s.cfg) s

/-- READ_VERSION (R182): status and the version byte. -/
def execReadVersion (s : State) : Result := runCommand (readVersionPath s.cfg) s

/-- READ_FUSES (R183): the fuse bytes, after a status in HALFDUPLEX only. -/
def execReadFuses (s : State) : Result := runCommand (readFusesPath s.cfg) s

/-- READ_GEOMETRY (R184): status and six fields of `GEOM_W` bytes. -/
def execReadGeometry (s : State) : Result := runCommand (readGeometryPath s.cfg) s

end Sys2Proof.Machine
end

