-- ==== Sys2Proof/Machine/UserSig.lean ====
section
/-! DEFINITION. The user-signature-row commands (42_usersig_commands.md R170 to R172). -/

namespace Sys2Proof.Machine

/-- ERASE_USERSIG (R170). -/
def eraseUsersigPath (c : Config) : List Prim := [.goto .exec] ++ userSigErase ++ replyStatus c c.stOk

/-- READ_USERSIG (R171); the read of the row is the command's memory action (log 9). -/
def readUsersigPath (c : Config) : List Prim :=
  [.goto .exec, .fresh, .fetch .userRow] ++ replyData c (c.stOk :: le16 (c.size .us))

/-- WRITE_USERSIG (R172). -/
def writeUsersigPath (c : Config) : List Prim :=
  readPayload (c.page .us) ++ [.goto .exec] ++ userSigWrite c ++ replyStatus c c.stOk

/-- ERASE_USERSIG (R170): every byte of the row becomes `ERASED_BYTE`, then the status. -/
def execEraseUsersig (s : State) : Result := runCommand (eraseUsersigPath s.cfg) s

/-- READ_USERSIG (R171): status, count and the row. -/
def execReadUsersig (s : State) : Result := runCommand (readUsersigPath s.cfg) s

/-- WRITE_USERSIG (R172): payload, commit, status; no index and no check. -/
def execWriteUsersig (s : State) : Result := runCommand (writeUsersigPath s.cfg) s

end Sys2Proof.Machine
end

