-- ==== Sys2Proof/Machine/Dispatch.lean ====
section
/-! DEFINITION. The dispatch: one arm per instruction (30_encoding.md R120). -/

namespace Sys2Proof.Machine

def exec (i : Instr) (s : State) : Host.Outcome State Fault Refusal :=
  match i with
  | .eraseApp => Sys2Proof.Machine.execEraseApp s
  | .writePage => Sys2Proof.Machine.execWritePage s
  | .readPage => Sys2Proof.Machine.execReadPage s
  | .readCrc => Sys2Proof.Machine.execReadCrc s
  | .readMcuId => Sys2Proof.Machine.execReadMcuId s
  | .readSerial => Sys2Proof.Machine.execReadSerial s
  | .readVersion => Sys2Proof.Machine.execReadVersion s
  | .reset => Sys2Proof.Machine.execReset s
  | .readFuses => Sys2Proof.Machine.execReadFuses s
  | .readEeprom => Sys2Proof.Machine.execReadEeprom s
  | .writeEeprom => Sys2Proof.Machine.execWriteEeprom s
  | .eraseUsersig => Sys2Proof.Machine.execEraseUsersig s
  | .readUsersig => Sys2Proof.Machine.execReadUsersig s
  | .writeUsersig => Sys2Proof.Machine.execWriteUsersig s
  | .readGeometry => Sys2Proof.Machine.execReadGeometry s
  | .nop => Sys2Proof.Machine.execNop s
  | .unknown _ => Sys2Proof.Machine.execUnknown s

end Sys2Proof.Machine
end

