-- ==== Sys2Proof/Machine/Programs.lean ====
section
/-! DEFINITION. The branch on the opcode (30_encoding.md R120), as the sequencer takes it one primitive at a time: the
control path each instruction starts. -/

namespace Sys2Proof.Machine

/-- The control path of an instruction (R120). -/
def pathOf (c : Config) : Instr → List Prim
  | .eraseApp => eraseAppPath c
  | .writePage => writePagePath c
  | .readPage => readPagePath c
  | .readCrc => readCrcPath c
  | .readMcuId => readMcuIdPath c
  | .readSerial => readSerialPath c
  | .readVersion => readVersionPath c
  | .reset => resetPath c
  | .readFuses => readFusesPath c
  | .readEeprom => readEepromPath c
  | .writeEeprom => writeEepromPath c
  | .eraseUsersig => eraseUsersigPath c
  | .readUsersig => readUsersigPath c
  | .writeUsersig => writeUsersigPath c
  | .readGeometry => readGeometryPath c
  | .nop => []
  | .unknown _ => []

end Sys2Proof.Machine
end

