-- ==== Sys2Proof/Machine/Moves.lean ====
section
/-! DEFINITION. The moves of the agents (00_scope.md R7), one primitive a move; and how the block runs on when no move is
scheduled (log 3, log 4). -/

namespace Sys2Proof.Machine

/-- One step of `SEQ` (R6): its next primitive. Where it blocks, nothing changes. -/
def seqMove (s : State) : Result :=
  match s.todo with
  | [] => .next s
  | .echo _ :: _ => .next s
  | .rxOp :: _ =>
    match s.rxq with
    | [] => .next s
    | b :: _ => .next (settle (pathOf s.cfg (decodeOp s.cfg b)) (takeOpcode s))
  | p :: ps =>
    match perform p s with
    | .done s' => .next (settle ps s')
    | .again s' => .next s'
    | .wait s' => .next s'
    | .turn path s' => .next (settle path s')
    | .fault f => .fault f

/-- The step of `XCVR` (46_transceiver.md R245): enabled in the switch only. -/
def xcvrMove (s : State) : State :=
  match s.todo with
  | .echo certain :: ps => settle ps (echoByte certain s)
  | _ => s

/-- `Send(b)` (47_host_environment.md R260). While the bus is busy the byte has unspecified fate (R250, U8): a draw
says lost, kept, or replaced by a drawn byte. -/
def hostSend (b : Byte) (s : State) : State :=
  if busBusy s then
    let f := draw s
    let v := draw f.2
    { v.2 with
      rxq := s.rxq ++ if f.1.toNat % 3 = 0 then [] else if f.1.toNat % 3 = 1 then [b] else [v.1] }
  else { s with rxq := s.rxq ++ [b] }

/-- `Recv` (R260): the host observes the next byte of `wire_out` it has not yet seen. -/
def hostRecv (s : State) : State := { s with hostRead := min (s.hostRead + 1) (max s.hostRead s.wireOut.length) }

/-- `ENV` may raise the cause (70_reset_and_hazards.md R320). -/
def resetEnabled (s : State) : ResetCause → Bool
  | .powerOn => true
  | .external => true
  | .watchdog => s.cfg.wdtEnabled
  | .software => false

/-- One move of one agent. At `RESETTING` the software reset is the only enabled step (R320). A move that is not enabled
changes nothing (log 16). -/
def applyMove (m : Move) (s : State) : Result :=
  if s.seq = .resetting then
    match m with
    | .reset .software => .next (applyReset .software s)
    | _ => .next s
  else
    match m with
    | .seq => seqMove s
    | .nvmc => .next (if s.nvmBusy then nvmComplete s else s)
    | .utx => .next (utxMove s)
    | .tmr => .next (timerTick s)
    | .xcvr => .next (xcvrMove s)
    | .send b => .next (hostSend b s)
    | .recv => .next (hostRecv s)
    | .reset cause => .next (if resetEnabled s cause then applyReset cause s else s)
    | .line asserted => .next { s with entryLine := asserted }

/-- The opcode byte that the command loop is about to take: the sequencer is at `FETCH` and a byte has arrived
(30_encoding.md R120). -/
def fetchByte (s : State) : Option Byte :=
  match s.todo with
  | .wdtPet :: .rxOp :: _ => s.rxq.head?
  | .rxOp :: _ => s.rxq.head?
  | _ => none

/-- The head of an iteration of the loop (R120): `WdtPet()` if it is still to be done, then `op <- RxByte()`. -/
def fetchOp (s : State) : State :=
  match s.todo with
  | .wdtPet :: _ => takeOpcode (log .wdtPet s)
  | _ => takeOpcode s

/-- The sequencer waits for a byte, or in the boot window for a byte or the timer (R299(a), R299(b), R325). -/
def blocked (s : State) : Bool :=
  match s.todo with
  | .rxOp :: _ => s.rxq.isEmpty
  | .rxIdxHi :: _ => s.rxq.isEmpty
  | .rxIdxLo :: _ => s.rxq.isEmpty
  | .rxPayload n :: _ => s.rxq.isEmpty && decide (s.cnt < n)
  | .poll :: _ => s.rxq.isEmpty && !timerExpired s
  | _ => false

/-- The move of another agent while the sequencer is blocked: the controller, else the transmitter, else the timer; with
none enabled the block is quiescent (R12). -/
def othersMove (s : State) : State :=
  if s.nvmBusy then nvmComplete s else if s.txq.isEmpty then timerTick s else utxMove s

/-- The run with no move scheduled, away from a fetch: the control path in hand goes on; blocked, the others move; in the
terminal state `APP` nothing happens, at `RESETTING` the software reset (R320, R326). -/
def advance (s : State) : Result :=
  match s.todo with
  | [] => .next (if s.seq = .resetting then applyReset .software s else s)
  | ps => if blocked s then .next (othersMove s) else runCommand ps s

/-- The bytes of the whole frame whose first bytes a table word gives, every byte after them zero. -/
def frameBytes (c : Config) (nbits w : Nat) : List Byte :=
  let bytes := tableBytes (nbits / 8) w ++ List.replicate (2 + c.bufSize) 0
  match decodeFrame c bytes with
  | .ok (f, _) => encodeFrame c f
  | .error _ => bytes

end Sys2Proof.Machine
end

