-- ==== Sys2Proof/Machine/Step.lean ====
section
/-! DEFINITION. One step of the machine: the next scheduled move, or with none scheduled the next command of the loop, or
the rest of the control path in hand. -/

namespace Sys2Proof.Machine

/-- One step. A configuration that breaks a constraint is refused (00_scope.md R8). -/
def step (s : State) : Host.Outcome State Fault Refusal :=
  if s.cfg.wf then
    match s.sched with
    | m :: rest => applyMove m { s with sched := rest }
    | [] =>
      match fetchByte s with
      | some b => exec (decodeOp s.cfg b) (fetchOp s)
      | none => advance s
  else .refused .configurationRefused

/-- The state with a table word's instruction as the next bytes received, the sequencer at the top of the command loop
with the Entry State that goes with it, and no move scheduled (log 8). -/
def State.withFetchWord (s : State) (nbits w : Nat) : State :=
  { s with
    rxq := frameBytes s.cfg nbits w
    seq := .fetch
    todo := loopTop
    entry := .bootloader
    sched := [] }

end Sys2Proof.Machine
end

