-- ==== Sys2Proof/Safety.lean ====
section
/-! DEFINITION. What counts as a safe state: the relations between the fields of State that every step keeps, among them
what the rest of the control path in hand needs (`Path.safe`); and the words the statements use. -/

namespace Sys2Proof.Machine

/-! ### What a control path needs -/

/-- What is known before a primitive is performed. -/
structure Known where
  /-- `nvm_busy = 0`. -/
  ready : Bool
  /-- `idx` is valid for `APP`. -/
  appIndex : Bool
  /-- `idx` is valid for `EE`. -/
  eeIndex : Bool
  /-- So many leading positions of the Page Buffer are written. -/
  filled : Nat
  /-- The driver-enable line. -/
  de : Bool
  /-- The receiver-disable line. -/
  rxdis : Bool
  /-- `txq = []`. -/
  drained : Bool
  /-- Every buffer position before `cnt` is written: `cnt` counts the payload bytes of the command in hand. -/
  counted : Bool
  /-- A command is in flight, or nothing is staged. -/
  clean : Bool
  /-- `entry = UNDECIDED`. -/
  undecided : Bool
  /-- At most so many bytes of reply data are loaded. -/
  loaded : Nat
deriving DecidableEq, Repr

/-- The number of leading written positions of a buffer. -/
def leadingWritten : List (Option Byte) → Nat
  | some _ :: rest => leadingWritten rest + 1
  | _ => 0

/-- What holds in a state. -/
def knownOf (s : State) : Known where
  ready := !s.nvmBusy
  appIndex := validIndex s.cfg .app s.idx
  eeIndex := validIndex s.cfg .ee s.idx
  filled := leadingWritten s.buf
  de := s.de
  rxdis := s.rxdis
  drained := s.txq.isEmpty
  counted := decide (s.cnt ≤ leadingWritten s.buf)
  clean := s.nvmBusy || s.nvmStage.isEmpty
  undecided := s.entry == .undecided
  loaded := s.data.length

namespace Known

/-- Listen mode (46_transceiver.md R240). -/
def listening (k : Known) : Bool := !k.de && !k.rxdis

/-- Listen mode, the controller idle and nothing staged: what holds between two commands (R30, R247(b), R290). -/
def idle (k : Known) : Bool := k.listening && k.ready && k.clean

/-- An index valid for the region is latched. -/
def index (k : Known) : Region → Bool
  | .app => k.appIndex
  | .ee => k.eeIndex
  | _ => false

end Known

namespace Prim

/-- What a primitive needs to be performed as the spec has it: reception and branching in listen mode (R247(b)), bytes
handed over in drive mode (R247(a)) and with every commit done (R73), the bus released only when nothing is queued
(R244), written buffer positions (R25(d)), no more than 65535 bytes of data for `cnt` to count (R24), the controller ready
and the page inside its region at an issue (R229, R220, R221), line changes and echoes in HALFDUPLEX only (R33, R246), the
arbiter before its decision only (R26, R328). -/
def safe (c : Config) (k : Known) : Prim → Bool
  | .goto _ => true
  | .fresh => true
  | .arbitrate => k.idle && k.undecided
  | .poll => k.idle && k.undecided
  | .wdtPet => true
  | .rxOp => k.idle
  | .rxIdxHi => k.listening
  | .rxIdxLo => k.listening
  | .check _ => k.idle
  | .rxPayload n => k.listening && k.counted && decide (n ≤ c.bufSize)
  | .stage j => decide (j < k.filled)
  | .stageByte _ _ => true
  | .waitReady => true
  | .issue x => k.ready && x.inRange c
  | .issuePage .flash => k.ready && k.appIndex
  | .issuePage .eeprom => k.ready && k.eeIndex
  | .fetch (.page r) => k.index r && decide (k.loaded = 0)
  | .fetch (.crc _) => decide (k.loaded + 4 ≤ 65535)
  | .fetch _ => decide (k.loaded = 0)
  | .txByte _ => (!c.halfDuplex || k.de) && k.ready && k.clean
  | .txData => (!c.halfDuplex || k.de) && k.ready && k.clean
  | .txWaitComplete => true
  | .setDE v => c.halfDuplex && (v || k.drained)
  | .setRxDis _ => c.halfDuplex
  | .delay _ => true
  | .echo _ => c.halfDuplex
  | .rxPoll => c.halfDuplex
  | .timerStop => true
  | .protectedWrite _ _ => true
  | .clearGie => true
  | .selectAppTable => true
  | .cleanExtAddr => true
  | .jumpToApp => true

/-- What is known after a primitive is done. -/
def after (k : Known) : Prim → Known
  | .fresh => { k with counted := true, loaded := 0 }
  | .fetch (.crc _) => { k with loaded := k.loaded + 4 }
  | .fetch _ => { k with loaded := 65535 }
  | .rxIdxLo => { k with appIndex := false, eeIndex := false }
  | .check .app => { k with appIndex := true }
  | .check .ee => { k with eeIndex := true }
  | .rxPayload n => { k with filled := max k.filled n }
  | .waitReady => { k with ready := true }
  | .stage _ => { k with clean := false }
  | .stageByte _ _ => { k with clean := false }
  | .issue _ => { k with ready := false, clean := true }
  | .issuePage _ => { k with ready := false, clean := true }
  | .txByte _ => { k with drained := false }
  | .txData => { k with drained := false, counted := false }
  | .txWaitComplete => { k with drained := true }
  | .setDE v => { k with de := v }
  | .setRxDis v => { k with rxdis := v }
  | _ => k

end Prim

/-- Every primitive of the path has what it needs, and the path ends as a command ends. -/
def pathSafe (c : Config) (k : Known) : List Prim → Bool
  | [] => k.idle
  | p :: ps => p.safe c k && pathSafe c (p.after k) ps

/-- From label `l` the path comes to `RESETTING` only as its last action: nothing is left to be done there
(70_reset_and_hazards.md R320). -/
def endsAt (l : Seq) : List Prim → Bool
  | [] => true
  | .goto l' :: ps => l != .resetting && endsAt l' ps
  | _ :: ps => l != .resetting && endsAt l ps

/-! ### The invariant -/

/-- What every step keeps, the control path apart. -/
structure Steady (s : State) : Prop where
  /-- The configuration meets its constraints (00_scope.md R8). -/
  config : s.cfg.wf = true
  /-- Every region is in canonical form, with no byte outside it (R28). -/
  memory : s.mem.wf s.cfg = true
  /-- The staging area is a partial map (R30). -/
  staging : Cells.rising s.nvmStage = true
  /-- The Page Buffer has `BUF_SIZE` positions (R25). -/
  buffer : s.buf.length = s.cfg.bufSize
  /-- `gie` is 0 for the whole life of the block (R35, R286). -/
  interrupts : s.gie = false
  /-- `unlock_armed` is 0 before and after every step (R36). -/
  unlock : s.unlockArmed = false
  /-- `nvm_busy = 1` if and only if `nvm_pending` holds a command (R30). -/
  busy : s.nvmBusy = s.nvmPending.isSome
  /-- The command in flight names a page of its region (R220, R221). -/
  pending : ∀ c, s.nvmPending = some c → c.inRange s.cfg = true
  /-- In HALFDUPLEX a queued byte is queued in drive mode (R247(a)). -/
  driving : s.cfg.halfDuplex = true → s.txq ≠ [] → s.de = true
  /-- In LEGACY the two lines stay 0 (R33, R246). -/
  lines : s.cfg.halfDuplex = false → s.de = false ∧ s.rxdis = false
  /-- `cnt` is below 65536 (R20, R24). -/
  count : s.cnt < 65536
  /-- The data of a reply are bytes that `cnt` can count (R24). -/
  data : s.data.length < 65536

/-- What every step keeps. -/
structure Inv (s : State) : Prop extends Steady s where
  /-- The rest of the control path has what it needs. -/
  path : pathSafe s.cfg (knownOf s) s.todo = true
  /-- At `RESETTING` nothing is left to be done (R320). -/
  ending : endsAt s.seq s.todo = true

/-! ### The words of the statements -/

/-- Every byte the block has handed to the transmitter, in order: those on the wire and those still queued (R32). -/
def sent (s : State) : List Byte := s.wireOut ++ s.txq

/-- The value of bytes whose first is the least significant (R9). -/
def littleEndian : List Byte → Nat
  | [] => 0
  | b :: bs => b.toNat + 256 * littleEndian bs

/-- An event of a named delay (R345). -/
def Event.isDelay : Event → Bool
  | .delay _ => true
  | _ => false

/-- One bracket of HALFDUPLEX as the trace has it (46_transceiver.md R241 to R244), `queued` being handed over before it:
both lines asserted and the settling delay elapsed, the bytes handed over, every byte on the wire, the lines released, the
discarding reads. Where the delays stand among the line changes is left open, as R241 asks. -/
def Bracketed (c : Config) (queued bytes : List Byte) (es : List Event) : Prop :=
  ∃ (lead trail : List Event) (discarded : List Byte),
    es = lead ++ bytes.map .txq ++ (queued ++ bytes).map .tx ++ trail ++ discarded.map .rx ∧
    lead.filter (fun e => !e.isDelay) = [.de true, .rxdis true] ∧ .delay .driveSettle ∈ lead ∧
    trail.filter (fun e => !e.isDelay) = [.de false, .rxdis false] ∧
    discarded.length ≤ c.echoDiscardReads

/-- What one burst adds to the trace: its bracket in HALFDUPLEX, the bytes handed over in LEGACY (R246). -/
def TracedBurst (bytes : List Byte) (s t : State) : Prop :=
  (s.cfg.halfDuplex = true → ∃ es, t.trace = s.trace ++ es ∧ Bracketed s.cfg s.txq bytes es) ∧
  (s.cfg.halfDuplex = false → t.trace = s.trace ++ bytes.map .txq)

/-- The top of the command loop (R120). -/
def AtLoop (s : State) : Prop := s.seq = .fetch ∧ s.todo = loopTop

/-- What a write or erase needs of the storage side: every state of a run has it between two commands. -/
structure StorageReady (s : State) : Prop where
  /-- The configuration meets its constraints (R8). -/
  config : s.cfg.wf = true
  /-- The regions are in canonical form (R28). -/
  memory : s.mem.wf s.cfg = true
  /-- The Page Buffer has `BUF_SIZE` positions (R25). -/
  buffer : s.buf.length = s.cfg.bufSize
  /-- The controller is idle (R27). -/
  idle : s.nvmBusy = false

/-- The controller is idle and holds nothing (R30). -/
def ControllerIdle (t : State) : Prop := t.nvmBusy = false ∧ t.nvmPending = none ∧ t.nvmStage = []

/-- No non-volatile byte, no buffer position and nothing of the controller differs. -/
def SameStorage (s t : State) : Prop :=
  t.mem = s.mem ∧ t.buf = s.buf ∧ t.nvmBusy = s.nvmBusy ∧ t.nvmPending = s.nvmPending ∧ t.nvmStage = s.nvmStage

/-- Nothing of the latched index and the counters differs. -/
def SameOperands (s t : State) : Prop :=
  t.idx = s.idx ∧ t.idxHi = s.idxHi ∧ t.cnt = s.cnt ∧ t.data = s.data

/-- Nothing of the Entry State, the timer, the processor configuration, the latched opcode and the environment
differs. -/
def SameControl (s t : State) : Prop :=
  t.cfg = s.cfg ∧ t.op = s.op ∧ t.entry = s.entry ∧ t.tcnt = s.tcnt ∧ t.trun = s.trun ∧ t.gie = s.gie ∧
    t.ivsel = s.ivsel ∧ t.extaddr = s.extaddr ∧ t.unlockArmed = s.unlockArmed ∧ t.entryLine = s.entryLine ∧
    t.hostRead = s.hostRead ∧ t.sched = s.sched

/-- The `n` bytes at offset `a` of region `r` are the only bytes of any region that may differ. -/
def SameMemoryOutside (r : Region) (a n : Nat) (s t : State) : Prop :=
  ∀ r' x, ¬(r' = r ∧ a ≤ x ∧ x < a + n) → t.mem.read r' x = s.mem.read r' x

/-- The wire side of a command that has read the bytes before `rest` and sent one burst `bytes`. In HALFDUPLEX every byte
is on the wire, the block listens, and the discarding reads have taken the oldest `ECHO_DISCARD_READS` bytes of what had
arrived and the 1 to `ECHO_MAX` echo bytes (R244, R245). In LEGACY the bytes are queued and nothing else of the wire
changes (R246). -/
def Replied (rest bytes : List Byte) (s t : State) : Prop :=
  sent t = sent s ++ bytes ∧
  (s.cfg.halfDuplex = true →
    t.txq = [] ∧ t.de = false ∧ t.rxdis = false ∧
    ∃ echo : List Byte, 1 ≤ echo.length ∧ echo.length ≤ max 1 s.cfg.echoMax ∧
      t.rxq = (rest ++ echo).drop s.cfg.echoDiscardReads) ∧
  (s.cfg.halfDuplex = false →
    t.wireOut = s.wireOut ∧ t.de = s.de ∧ t.rxdis = s.rxdis ∧ t.rxq = rest)

/-- A command has ended: back at the top of the loop, one burst sent, and nothing of the control side differs. -/
def Answered (rest bytes : List Byte) (s t : State) : Prop :=
  AtLoop t ∧ Replied rest bytes s t ∧ SameControl s t

/-- The region whose page count checks the index of a command (R62, R281). -/
def indexRegion : Instr → Option Region
  | .writePage => some .app
  | .readPage => some .app
  | .writeEeprom => some .ee
  | .readEeprom => some .ee
  | _ => none

/-- The run of a list of moves. -/
def runMoves : List Move → State → Result
  | [], s => .next s
  | m :: ms, s =>
    match applyMove m s with
    | .next s' => runMoves ms s'
    | .fault f => .fault f
    | .refused r => .refused r

/-- The run of `n` steps. -/
def runSteps : Nat → State → Result
  | 0, s => .next s
  | n + 1, s =>
    match step s with
    | .next s' => runSteps n s'
    | .fault f => .fault f
    | .refused r => .refused r

end Sys2Proof.Machine
end

