-- ==== Sys2Proof/Machine/HostDriver.lean ====
section
/-! DEFINITION. The host as environment (47_host_environment.md): what it sees of the block, its reference update sequence
(R261), and its duties (R262). The host is no part of the block: no step uses this file. -/

namespace Sys2Proof.Machine

/-! ### The two moves of the host -/

/-- The bytes of `wire_out` the host has not yet seen (R260). -/
def unseen (s : State) : List Byte := s.wireOut.drop s.hostRead

/-- A move of the host, which never stops the machine. -/
def hostMove (m : Move) (s : State) : State :=
  match applyMove m s with
  | .next t => t
  | .fault _ => s
  | .refused _ => s

/-- `Send` of every byte of a frame, in order (R262(c)). -/
def sendFrame (f : Frame) (s : State) : State :=
  (encodeFrame s.cfg f).foldl (fun t b => hostMove (.send b) t) s

/-- `Recv` (R260): the byte the move makes the host see, if it makes it see one. At `RESETTING` the host has no move (log
15). -/
def receive (s : State) : Option Byte × State :=
  let t := hostMove .recv s
  (if t.hostRead = s.hostRead then none else (unseen s).head?, t)

/-- `Recv` as the host program calls it: it lets the block run, for at most so many steps (its I/O timeout, R264), until
there is a byte for it. -/
def await : Nat → State → Option Byte × State
  | 0, s => receive s
  | n + 1, s =>
    if (receive s).1.isSome then receive s
    else
      match step s with
      | .next t => await n t
      | .fault _ => (none, s)
      | .refused _ => (none, s)

/-! ### The reference update sequence (R261) -/

/-- Step 1: "repeat: Send(NOP_BYTE) until Recv = ARB_ACK_BYTE". The number of tries is the operator's patience: the host
program has no bound of its own (R265). -/
def rendezvous (patience : Nat) : Nat → State → Option State
  | 0, _ => none
  | tries + 1, s =>
    let r := await patience (hostMove (.send s.cfg.nopByte) s)
    if r.1 = some s.cfg.arbAckByte then some r.2 else rendezvous patience tries r.2

/-- A command of steps 2 and 3: the frame is sent and `Recv = ST_OK` required; any other outcome aborts the update
(R264). -/
def exchange (patience : Nat) (f : Frame) (s : State) : Option State :=
  let r := await patience (sendFrame f s)
  if r.1 = some s.cfg.stOk then some r.2 else none

/-- A sequence of exchanges, each begun when the one before is over (R262(a)). -/
def exchanges (patience : Nat) : List Frame → State → Option State
  | [], s => some s
  | f :: fs, s =>
    match exchange patience f s with
    | some t => exchanges patience fs t
    | none => none

/-- The frames of steps 2 and 3; `image[i]` is page `i`. -/
def updateFrames (image : List (List Byte)) : List Frame :=
  .f0 .eraseApp :: image.zipIdx.map fun x => .fip .writePage (BitVec.ofNat 16 x.2) x.1

/-- `UPDATE(image)`, the four steps; step 4 sends RESET and requires nothing. -/
def update (patience tries : Nat) (image : List (List Byte)) (s : State) : Option State :=
  match rendezvous patience tries s with
  | none => none
  | some r =>
    match exchanges patience (updateFrames image) r with
    | none => none
    | some t => some (sendFrame (.f0 .reset) t)

/-! ### The duties (R262) -/

/-- The length of the reply to a command, its index valid if it has one (30_encoding.md R104, R107, R115). -/
def successLength (c : Config) : Instr → Nat
  | .eraseApp => 1
  | .writePage => if c.ackMode = .earlyAndFinal then 2 else 1
  | .readPage => 3 + c.page .app
  | .readCrc => 9
  | .readMcuId => 3 + c.mcuId.length
  | .readSerial => 3 + c.serial.length
  | .readVersion => 2
  | .reset => 1
  | .readFuses => (if c.protocol = .legacy then 0 else 1) + c.fuses.length
  | .readEeprom => 3 + c.page .ee
  | .writeEeprom => 1
  | .eraseUsersig => 1
  | .readUsersig => 3 + c.size .us
  | .writeUsersig => 1
  | .readGeometry => 1 + c.geomFields.length * c.geomW
  | .nop => 0
  | .unknown _ => 0

/-- The same with the index in hand: `RS(ST_FAIL)` where it is out of range (R114). -/
def indexedLength (c : Config) (i : Instr) (idx : Half) : Nat :=
  match indexRegion i with
  | some r => if validIndex c r idx then successLength c i else 1
  | none => successLength c i

/-- The length of the whole reply to a frame. -/
def replyLength (c : Config) : Frame → Nat
  | .f0 i => successLength c i
  | .fi i idx => indexedLength c i idx
  | .fip i idx _ => indexedLength c i idx
  | .fp i _ => successLength c i

/-- The byte a move sends, if the move is enabled: at `RESETTING` the host has none (log 15). -/
def sends (s : State) : Move → Option Byte
  | .send b => if s.seq = .resetting then none else some b
  | _ => none

/-- The move is a reset that takes effect (`applyMove`). -/
def resets (s : State) : Move → Bool
  | .reset cause => if s.seq = .resetting then decide (cause = .software) else resetEnabled s cause
  | _ => false

/-- How the reply to the last command frame stands. The host sees bytes of the wire only; which of them are the reply to a
frame is a fact of the run. -/
inductive Reply
  /-- No reply is due. -/
  | nothing
  /-- The frame's first byte waits in the receive path behind so many. -/
  | behind (ahead : Nat)
  /-- The command loop has taken that byte as its opcode, and has still bytes to hand over in answer. -/
  | coming
  /-- It has handed over the last of them: the reply ends at this place of `wire_out`. -/
  | ends (place : Nat)
  /-- That byte was lost, replaced, dropped or read as something else: there is no reply. -/
  | never
  /-- A reset has cut the reply off (70_reset_and_hazards.md R321). -/
  | cut
deriving DecidableEq, Repr, Inhabited

/-- The primitive hands over a byte of a reply, or fetches bytes to be handed over. -/
def Prim.answers (s : State) : Prim → Bool
  | .txByte _ => true
  | .fetch _ => true
  | .txData => decide (s.cnt < s.data.length)
  | _ => false

namespace Reply

/-- The reply to a frame whose first byte `b` is sent by a move from `s` to `t`. On a busy bus the byte may be kept, lost or
replaced (46_transceiver.md R250). -/
def begun (s t : State) (b : Byte) (f : Frame) : Reply :=
  if replyLength s.cfg f = 0 then .nothing
  else if t.rxq = s.rxq ++ [b] then .behind s.rxq.length
  else .never

/-- The reply to the command in hand in `t`. -/
def inHand (t : State) : Reply := if t.todo.any (Prim.answers t) then .coming else .ends (sent t).length

/-- After a move from `s` to `t` that neither sends a byte nor resets. The command loop takes an opcode at `FETCH` only
(30_encoding.md R120). -/
def follow (s t : State) : Reply → Reply
  | .behind ahead =>
    if s.rxq.length - t.rxq.length ≤ ahead then .behind (ahead - (s.rxq.length - t.rxq.length))
    else if ahead = 0 ∧ (fetchByte s).isSome then inHand t
    else .never
  | .coming => inHand t
  | .nothing => .nothing
  | .ends place => .ends place
  | .never => .never
  | .cut => .cut

/-- After a reset in `s`: bytes not yet on the wire are lost (R40). -/
def afterReset (s : State) : Reply → Reply
  | .nothing => .nothing
  | .ends place => if place ≤ s.wireOut.length then .ends place else .cut
  | .behind _ => .cut
  | .coming => .cut
  | .never => .cut
  | .cut => .cut

/-- The host has seen the whole of it. -/
def received (s : State) : Reply → Bool
  | .nothing => true
  | .ends place => decide (place ≤ s.hostRead)
  | .behind _ => false
  | .coming => false
  | .never => false
  | .cut => false

end Reply

/-- What a host has under way. -/
structure HostView where
  /-- The frames it has still to begin. -/
  plan : List Frame
  /-- The bytes it has still to send of the frame it has begun. -/
  rest : List Byte := []
  /-- The reply to its last command frame. -/
  reply : Reply := .nothing
  /-- In step 1 of R261, the place on `wire_out` where the acknowledgement ends. -/
  ack : Option Nat := none
deriving DecidableEq, Repr, Inhabited

namespace HostView

/-- The bytes the host may send next: the rest of the frame begun, else the next frame. -/
def next (c : Config) (v : HostView) : List Byte :=
  match v.rest, v.plan with
  | b :: bs, _ => b :: bs
  | [], f :: _ => encodeFrame c f
  | [], [] => []

/-- The frame that the next byte begins. -/
def begins (v : HostView) : Option Frame :=
  match v.rest with
  | [] => v.plan.head?
  | _ :: _ => none

/-- A no-op byte sent to a Variant B block that is not in the command loop: what answers it is the acknowledgement
(70_reset_and_hazards.md R324), the first byte the block hands over. -/
def isProbe (s : State) (f : Frame) : Bool :=
  decide (s.cfg.entryVariant = .b) && decide (s.entry ≠ .bootloader) && decide (f.instr = .nop)

/-- The next byte is a no-op byte, as step 1 sends it, "repeat: Send(NOP_BYTE)": a first one or a further one, wherever the
block is by then (R264: an aborted update is run again from step 1). It is no opcode (30_encoding.md R110). -/
def inStep1 (v : HostView) : Bool := v.begins.any fun f => decide (f.instr = .nop)

/-- The host has received all that is due to it: the whole reply to its last command frame, and in step 1 the
acknowledgement. -/
def received (s : State) (v : HostView) : Bool := v.reply.received s && v.ack.all fun place => decide (place ≤ s.hostRead)

/-- A no-op byte is sent in `s`. All those of one rendezvous have the one acknowledgement, which is no reply to a command
frame. A reply that a reset has cut off is given up when step 1 begins again in the boot window. -/
def probe (s : State) (f : Frame) (v : HostView) : HostView :=
  if isProbe s f then
    { v with
      plan := v.plan.tail
      reply := if v.reply = .cut then .nothing else v.reply
      ack := some ((sent s).length + 1) }
  else { v with plan := v.plan.tail }

/-- What the host has under way when it sends `b` by a move from `s` to `t`. -/
def afterByte (s t : State) (b : Byte) (v : HostView) : HostView :=
  match v.begins with
  | some f => if v.inStep1 then v.probe s f else ⟨v.plan.tail, (encodeFrame s.cfg f).tail, .begun s t b f, none⟩
  | none => { v with rest := v.rest.tail }

/-- What the host has under way after a move from `s` to `t`. -/
def after (s t : State) (m : Move) (v : HostView) : HostView :=
  match sends s m with
  | some b => v.afterByte s t b
  | none => { v with reply := if resets s m then v.reply.afterReset s else v.reply.follow s t }

end HostView

/-- Duty (a): "the host sends the next command frame only after it has received the whole reply of the previous one". The
no-op bytes of step 1 of R261 are no breach of it, wherever the block is: the rendezvous breaches (b) alone
(92_eei_decisions.md D36). -/
def dutyA (s : State) (v : HostView) (m : Move) : Bool :=
  (sends s m).isNone || !v.rest.isEmpty || v.received s || v.inStep1

/-- Duty (b), in HALFDUPLEX: the host does not transmit while the bus is busy (46_transceiver.md R250), nor "from the end of
its command frame until the device's reply and turnaround are complete". Step 1 of R261 is not excepted: it "cannot obey
this". -/
def dutyB (s : State) (v : HostView) (m : Move) : Bool :=
  (sends s m).isNone || !s.cfg.halfDuplex || !busBusy s && (!v.rest.isEmpty || v.received s)

/-- Duty (c): what the host sends is the next byte of its frames. With the last clause of `keepsC`: "the host sends
every byte of a frame it has started". -/
def dutyC (s : State) (v : HostView) (m : Move) : Bool :=
  (sends s m).isNone || (v.next s.cfg).head? == sends s m

/-- Duty (d): every frame is well-formed; a WRITE_PAGE or WRITE_EEPROM frame whose index is out of range has no payload
(`payloadLength`, R111). -/
def dutyD (c : Config) (v : HostView) : Bool := v.plan.all (Frame.wf c)

/-- What the host has under way meets `duty` at each move of the run from `s` on, and `last` at its end. -/
def along (duty : State → HostView → Move → Bool) (last : HostView → Bool) : HostView → State → List Move → Bool
  | v, _, [] => last v
  | v, s, m :: ms =>
    duty s v m &&
      match applyMove m s with
      | .next t => along duty last (v.after s t m) t ms
      | .fault _ => true
      | .refused _ => true

/-- The run keeps duty (a). -/
def keepsA : HostView → State → List Move → Bool := along dutyA fun _ => true

/-- The run keeps duty (b). -/
def keepsB : HostView → State → List Move → Bool := along dutyB fun _ => true

/-- The run keeps duty (c): at its end no frame is begun and not sent whole. -/
def keepsC : HostView → State → List Move → Bool := along dutyC fun v => v.rest.isEmpty

/-- A run in which the host keeps its four duties (R262). -/
def dutiful (v : HostView) (s : State) (moves : List Move) : Bool :=
  dutyD s.cfg v && (keepsA v s moves && (keepsB v s moves && keepsC v s moves))

/-- The block waits at `FETCH` between two commands of a dutiful host: nothing received is unread, nothing sent is unseen,
the bus is free. The watchdog may have been petted for the next command. -/
structure Between (s : State) : Prop extends StorageReady s where
  /-- The block is at `FETCH` (R120). -/
  fetch : AtLoop s ∨ s.seq = .fetch ∧ s.todo = [.rxOp]
  /-- No move is scheduled (log 4). -/
  unscheduled : s.sched = []
  /-- Interrupts are off (R286). -/
  interrupts : s.gie = false
  /-- Every byte the host has sent has been read. -/
  read : s.rxq = []
  /-- Every byte of a reply is on the wire. -/
  drained : s.txq = []
  /-- The host has seen every byte on the wire. -/
  seen : s.hostRead = s.wireOut.length
  /-- The block listens (R240). -/
  listening : s.de = false ∧ s.rxdis = false

end Sys2Proof.Machine
end

