-- ==== Sys2Proof/Certificates/Slice0/Obligations.lean ====
section
/-! DEFINITION. The statements for the provers. Each docstring names the rule it formalises; a statement that rests on a
choice of the model names the log entry. -/

open Sys2Proof Sys2Proof.Machine

/-! ### Encoding -/

/-- The opcode map (R107) with the reference opcodes of 00_scope.md D3, the no-op byte (R110, D5) and the default case (R109):
the word of each row of a command decodes to its instruction, and a byte with no row to the default case. The table gives
the word 0 to NOP and to UNKNOWN; that it decodes to NOP is log 25. Sanity. -/
def Obligations.TableWordsDecode : Prop :=
  decodeTableWord 8 0x01 = some .eraseApp ∧ decodeTableWord 8 0x02 = some .writePage ∧
  decodeTableWord 8 0x03 = some .readPage ∧ decodeTableWord 8 0x04 = some .readCrc ∧
  decodeTableWord 8 0x05 = some .readMcuId ∧ decodeTableWord 8 0x06 = some .readSerial ∧
  decodeTableWord 8 0x07 = some .readVersion ∧ decodeTableWord 8 0x08 = some .reset ∧
  decodeTableWord 8 0x09 = some .readFuses ∧ decodeTableWord 8 0x0A = some .readEeprom ∧
  decodeTableWord 8 0x0B = some .writeEeprom ∧ decodeTableWord 8 0x0C = some .eraseUsersig ∧
  decodeTableWord 8 0x0D = some .readUsersig ∧ decodeTableWord 8 0x0E = some .writeUsersig ∧
  decodeTableWord 8 0x0F = some .readGeometry ∧ decodeTableWord 8 0x00 = some .nop ∧
  decodeTableWord 8 0xAA = some (.unknown 0xAA)

/-- R108: "an injective map from the fifteen mnemonics to bytes; decoding is the inverse of that map", in every
configuration the block can have, the no-op byte and the default case included; bytes after the opcode are left. -/
def Obligations.DecodeInvertsEncode : Prop :=
  ∀ c : Config, c.wf = true →
    (∀ i j : Instr, i.wf c = true → j.wf c = true → opcodeOf c i = opcodeOf c j → i = j) ∧
    (∀ (i : Instr) (rest : List Byte), i.wf c = true → decode c (encode c i ++ rest) = .ok (i, rest)) ∧
    (∀ b : Byte, opcodeOf c (decodeOp c b) = b ∧ (decodeOp c b).wf c = true)

/-- R109, R110: every byte that is not one of the fifteen opcodes is the default case, the no-op byte among them being
the row NOP; no byte value is refused. -/
def Obligations.OtherBytesAreUnknown : Prop :=
  ∀ (c : Config) (b : Byte), c.wf = true →
    (b ∉ c.ops.toList → decodeOp c b = if b = c.nopByte then .nop else .unknown b) ∧
    (b ∈ c.ops.toList → decodeOp c b ≠ .nop ∧ ∀ x, decodeOp c b ≠ .unknown x) ∧
    (∀ rest, ∃ i, decode c (b :: rest) = .ok (i, rest))

/-- Every frame of every format (R102, R103, R111), with every index and every payload, is read back whole: decode of
encode is the identity, whatever follows it on the wire. -/
def Obligations.FrameRoundTrip : Prop :=
  ∀ (c : Config) (f : Frame) (rest : List Byte), c.wf = true → f.wf c = true →
    decodeFrame c (encodeFrame c f ++ rest) = .ok (f, rest)

/-- What the frame decoder reads is a frame of the command's format, and exactly the bytes it took (R102, R103, R111). -/
def Obligations.FrameDecodeIsExact : Prop :=
  ∀ (c : Config) (bs rest : List Byte) (f : Frame), c.wf = true → decodeFrame c bs = .ok (f, rest) →
    f.wf c = true ∧ encodeFrame c f ++ rest = bs

/-- R66, R9: the index is big-endian, the sizes, checksums and geometry fields are little-endian. -/
def Obligations.ByteOrders : Prop :=
  (∀ h l : Byte, be16 (indexOf h l) = [h, l] ∧ (indexOf h l).toNat = 256 * h.toNat + l.toNat) ∧
  (∀ n, n < 65536 → (le16 n).length = 2 ∧ littleEndian (le16 n) = n) ∧
  (∀ v : Word32, (le32 v).length = 4 ∧ littleEndian (le32 v) = v.toNat) ∧
  (∀ w n, n < 256 ^ w → (leBytes w n).length = w ∧ littleEndian (leBytes w n) = n)

/-! ### The configuration and the step -/

/-- R8, with the conditions of R24, R81, R180, R181 and R184 as logs 10 and 11 read them: the check of a configuration is exactly
this list of constraints; a machine whose configuration breaks one is refused; the two reference configurations meet
them. -/
def Obligations.ConfigurationChecks : Prop :=
  (∀ s : State, s.cfg.wf = false → step s = .refused .configurationRefused) ∧
  Config.tiny.wf = true ∧ Config.reference.wf = true ∧
  ∀ c : Config, c.wf = true ↔
    (∀ r, 1 ≤ c.page r ∧ c.size r % c.page r = 0) ∧
    c.bufSize = max (max (c.page .app) (c.page .ee)) (c.page .us) ∧
    (c.ops.toList.Nodup ∧ c.nopByte ∉ c.ops.toList) ∧
    (c.stOk ≠ c.stFail ∧ c.stOk.toNat ≤ 0x7F ∧ c.stFail.toNat ≤ 0x7F) ∧
    (c.page .app ≤ 65535 ∧ c.page .ee ≤ 65535 ∧ c.size .us ≤ 65535) ∧
    (c.pageCount .app ≤ 65536 ∧ c.pageCount .ee ≤ 65536) ∧
    c.size .us = c.page .us ∧
    c.geomW = (if c.protocol = .legacy then 2 else 4) ∧
    (c.geomFields.length = 6 ∧ ∀ q ∈ c.geomFields, c.quantity q < 2 ^ (8 * c.geomW)) ∧
    (1 ≤ c.echoMax ∧ c.echoMax ≤ 2) ∧
    (c.mcuId.length = 4 ∧ 1 ≤ c.serial.length ∧ c.serial.length ≤ 65535 ∧ c.fuses.length ≤ 65535)

/-- At the top of the loop (R120) with a byte received and no move scheduled, a step pets the watchdog, latches the opcode
(R22) and is `exec` of the instruction the bytes decode to; the same where the watchdog has been petted already. That a
step with no move scheduled runs a whole command is the model's choice (log 3, log 4). -/
def Obligations.StepRunsDecodedInstruction : Prop :=
  ∀ (s : State) (i : Instr) (rest : List Byte), s.cfg.wf = true → s.sched = [] → decode s.cfg s.rxq = .ok (i, rest) →
    (s.todo = loopTop →
      step s = exec i { s with
        rxq := rest, op := opcodeOf s.cfg i, trace := s.trace ++ [.wdtPet, .rx (opcodeOf s.cfg i)] }) ∧
    (s.todo = [.rxOp] →
      step s = exec i { s with
        rxq := rest, op := opcodeOf s.cfg i, trace := s.trace ++ [.rx (opcodeOf s.cfg i)] })

/-! ### Erasing -/

/-- R140: ERASE_APP completes, erases every byte of Application Flash and nothing else, and answers `ST_OK` once. -/
def Obligations.EraseAppErases : Prop :=
  ∀ s : State, StorageReady s →
    ∃ t, exec .eraseApp s = .next t ∧ Answered s.rxq [s.cfg.stOk] s t ∧
      (∀ a, a < s.cfg.size .app → t.mem.read .app a = s.cfg.erasedByte) ∧
      SameMemoryOutside .app 0 (s.cfg.size .app) s t ∧ t.buf = s.buf ∧ ControllerIdle t ∧ SameOperands s t

/-- R170: ERASE_USERSIG completes, erases every byte of the row and nothing else, and answers `ST_OK` once. -/
def Obligations.EraseUsersigErases : Prop :=
  ∀ s : State, StorageReady s →
    ∃ t, exec .eraseUsersig s = .next t ∧ Answered s.rxq [s.cfg.stOk] s t ∧
      (∀ a, a < s.cfg.size .us → t.mem.read .us a = s.cfg.erasedByte) ∧
      SameMemoryOutside .us 0 (s.cfg.size .us) s t ∧ t.buf = s.buf ∧ ControllerIdle t ∧ SameOperands s t

/-! ### Writing -/

/-- R141, R220 with `WRITE_ACK_MODE = SINGLE`: WRITE_PAGE with a valid index and its whole payload received completes:
each byte of the page becomes its payload byte (where `FLASH_WRITE_REQUIRES_ERASED` holds, if the old byte was erased;
otherwise the byte is a free value), no other byte of any region changes, the buffer keeps the payload, and one `ST_OK`
is sent. -/
def Obligations.WritePageCommits : Prop :=
  ∀ (s : State) (idx : Half) (payload rest : List Byte), StorageReady s → s.cfg.ackMode = .single →
    s.rxq = be16 idx ++ payload ++ rest → idx.toNat < s.cfg.pageCount .app → payload.length = s.cfg.page .app →
    ∃ t, exec .writePage s = .next t ∧ Answered rest [s.cfg.stOk] s t ∧
      (∀ k (hk : k < payload.length),
        s.cfg.flashWriteRequiresErased = false ∨
          s.mem.read .app (pageOffset s.cfg .app idx.toNat + k) = s.cfg.erasedByte →
        t.mem.read .app (pageOffset s.cfg .app idx.toNat + k) = payload[k]) ∧
      SameMemoryOutside .app (pageOffset s.cfg .app idx.toNat) (s.cfg.page .app) s t ∧
      t.buf = payload.map some ++ s.buf.drop payload.length ∧ ControllerIdle t ∧
      t.idx = idx ∧ t.cnt = payload.length

/-- R115 with `WRITE_ACK_MODE = EARLY_AND_FINAL`: "one after the range check and before the first payload byte is read,
one after the commit". In LEGACY one step answers twice, each status at that place in the trace. In HALFDUPLEX, with an
index received and the discarding reads as many as the echo bytes, the block stops at `PAYLOAD` after the first
acknowledgement, nothing left in the receive path; the payload then completes the command with the second. The page is
the payload (where the controller requires erased pages, each byte whose old value was erased; R220). That one step runs a
command as far as the bytes received go is the model's choice (log 4). -/
def Obligations.WritePageAcknowledgesTwice : Prop :=
  ∀ (s : State) (idx : Half) (payload : List Byte), StorageReady s → s.cfg.ackMode = .earlyAndFinal →
    idx.toNat < s.cfg.pageCount .app → payload.length = s.cfg.page .app →
    let written (t : State) := ∀ k (hk : k < payload.length),
      s.cfg.flashWriteRequiresErased = false ∨
        s.mem.read .app (pageOffset s.cfg .app idx.toNat + k) = s.cfg.erasedByte →
      t.mem.read .app (pageOffset s.cfg .app idx.toNat + k) = payload[k]
    (∀ rest, s.cfg.protocol = .legacy → s.rxq = be16 idx ++ payload ++ rest →
      ∃ t, exec .writePage s = .next t ∧ Answered rest [s.cfg.stOk, s.cfg.stOk] s t ∧ written t ∧
        SameMemoryOutside .app (pageOffset s.cfg .app idx.toNat) (s.cfg.page .app) s t ∧
        t.trace = s.trace ++ (be16 idx).map .rx ++ [.txq s.cfg.stOk] ++ payload.map .rx ++
          payload.zipIdx.map (fun x => .stage x.2 x.1) ++
          [.issue (.flashWritePage idx.toNat), .done (.flashWritePage idx.toNat), .txq s.cfg.stOk]) ∧
    (s.cfg.protocol = .halfDuplex → s.cfg.echoMax ≤ s.cfg.echoDiscardReads → s.sched = [] → s.rxq = be16 idx →
      ∃ t, exec .writePage s = .next t ∧ t.seq = .payload ∧ t.cnt = 0 ∧ Replied [] [s.cfg.stOk] s t ∧ t.rxq = [] ∧
        t.idx = idx ∧ SameStorage s t ∧ SameControl s t ∧
        ∃ u, step { t with rxq := payload } = .next u ∧ AtLoop u ∧
          sent u = sent s ++ [s.cfg.stOk, s.cfg.stOk] ∧ written u ∧
          SameMemoryOutside .app (pageOffset s.cfg .app idx.toNat) (s.cfg.page .app) s u)

/-- R161: WRITE_EEPROM with a valid index and its whole payload received completes: the page is the payload whatever it
held, no other byte of any region changes, the buffer keeps the payload and its other positions, one `ST_OK` is sent
whatever `WRITE_ACK_MODE`. -/
def Obligations.WriteEepromCommits : Prop :=
  ∀ (s : State) (idx : Half) (payload rest : List Byte), StorageReady s →
    s.rxq = be16 idx ++ payload ++ rest → idx.toNat < s.cfg.pageCount .ee → payload.length = s.cfg.page .ee →
    ∃ t, exec .writeEeprom s = .next t ∧ Answered rest [s.cfg.stOk] s t ∧
      t.mem.readBytes .ee (pageOffset s.cfg .ee idx.toNat) (s.cfg.page .ee) = payload ∧
      SameMemoryOutside .ee (pageOffset s.cfg .ee idx.toNat) (s.cfg.page .ee) s t ∧
      t.buf = payload.map some ++ s.buf.drop payload.length ∧ ControllerIdle t ∧
      t.idx = idx ∧ t.cnt = payload.length

/-- R172, R224: WRITE_USERSIG with its whole payload received completes: the row becomes the payload (with the same
condition as a flash page), no other byte changes, no index is read, one `ST_OK` is sent. -/
def Obligations.WriteUsersigCommits : Prop :=
  ∀ (s : State) (payload rest : List Byte), StorageReady s →
    s.rxq = payload ++ rest → payload.length = s.cfg.page .us →
    ∃ t, exec .writeUsersig s = .next t ∧ Answered rest [s.cfg.stOk] s t ∧
      (∀ k (hk : k < payload.length),
        s.cfg.flashWriteRequiresErased = false ∨ s.mem.read .us k = s.cfg.erasedByte →
        t.mem.read .us k = payload[k]) ∧
      SameMemoryOutside .us 0 (s.cfg.page .us) s t ∧
      t.buf = payload.map some ++ s.buf.drop payload.length ∧ ControllerIdle t ∧
      t.idx = s.idx ∧ t.idxHi = s.idxHi ∧ t.cnt = payload.length

/-- R299(b), R118, FL14: a write command, WRITE_PAGE, WRITE_EEPROM or WRITE_USERSIG, whose payload is cut short waits inside
the command: every byte received is in the buffer, nothing is committed and nothing is sent but the early acknowledgement
of WRITE_PAGE (R115); the bytes that arrive later complete it, whatever they are. WRITE_PAGE with early acknowledgement is
here in LEGACY; in HALFDUPLEX its discarding reads may eat payload (R245), and WritePageAcknowledgesTwice says what
happens. That one step runs up to the wait is the model's choice (log 4). -/
def Obligations.ShortPayloadWaits : Prop :=
  ∀ (s : State) (i : Instr) (r : Region) (p : Nat) (idx : Half) (head part more rest : List Byte),
    StorageReady s → s.sched = [] → p < s.cfg.pageCount r →
    (i = .writePage ∧ r = .app ∧ head = be16 idx ∧ p = idx.toNat ∧
        (s.cfg.ackMode = .earlyAndFinal → s.cfg.protocol = .legacy) ∨
      i = .writeEeprom ∧ r = .ee ∧ head = be16 idx ∧ p = idx.toNat ∨
      i = .writeUsersig ∧ r = .us ∧ head = [] ∧ p = 0 ∧ idx = s.idx) →
    s.rxq = head ++ part → part.length < s.cfg.page r → part.length + more.length = s.cfg.page r →
    let acks := if i = .writePage ∧ s.cfg.ackMode = .earlyAndFinal then [s.cfg.stOk] else []
    ∃ t, exec i s = .next t ∧ t.seq = .payload ∧ t.cnt = part.length ∧ t.rxq = [] ∧ t.idx = idx ∧
      t.buf = part.map some ++ s.buf.drop part.length ∧ t.mem = s.mem ∧ t.nvmStage = s.nvmStage ∧
      t.nvmBusy = false ∧ t.txq = s.txq ++ acks ∧ t.wireOut = s.wireOut ∧ t.de = s.de ∧ t.rxdis = s.rxdis ∧
      SameControl s t ∧
      ∃ u, step { t with rxq := more ++ rest } = .next u ∧ Answered rest (acks ++ [s.cfg.stOk]) s u ∧
        (∀ k (hk : k < (part ++ more).length),
          r = .ee ∨ s.cfg.flashWriteRequiresErased = false ∨
            s.mem.read r (pageOffset s.cfg r p + k) = s.cfg.erasedByte →
          u.mem.read r (pageOffset s.cfg r p + k) = (part ++ more)[k]) ∧
        SameMemoryOutside r (pageOffset s.cfg r p) (s.cfg.page r) s u

/-! ### Reading -/

/-- R142: READ_PAGE with a valid index completes and answers the status, the count and the page; nothing of the storage
differs. -/
def Obligations.ReadPageReplies : Prop :=
  ∀ (s : State) (idx : Half) (rest : List Byte), s.rxq = be16 idx ++ rest → idx.toNat < s.cfg.pageCount .app →
    ∃ t, exec .readPage s = .next t ∧
      Answered rest (s.cfg.stOk :: le16 (s.cfg.page .app) ++
        s.mem.readBytes .app (idx.toNat * s.cfg.page .app) (s.cfg.page .app)) s t ∧
      SameStorage s t ∧ t.idx = idx ∧ t.cnt = s.cfg.page .app

/-- R160: READ_EEPROM with an index valid for the EEPROM completes and answers the status, the count and the page; nothing
of the storage differs. -/
def Obligations.ReadEepromReplies : Prop :=
  ∀ (s : State) (idx : Half) (rest : List Byte), s.rxq = be16 idx ++ rest → idx.toNat < s.cfg.pageCount .ee →
    ∃ t, exec .readEeprom s = .next t ∧
      Answered rest (s.cfg.stOk :: le16 (s.cfg.page .ee) ++
        s.mem.readBytes .ee (idx.toNat * s.cfg.page .ee) (s.cfg.page .ee)) s t ∧
      SameStorage s t ∧ t.idx = idx ∧ t.cnt = s.cfg.page .ee

/-- R171: READ_USERSIG completes in every state and answers the status, the count and the whole row. -/
def Obligations.ReadUsersigReplies : Prop :=
  ∀ s : State, ∃ t, exec .readUsersig s = .next t ∧
    Answered s.rxq (s.cfg.stOk :: le16 (s.cfg.size .us) ++ s.mem.readBytes .us 0 (s.cfg.size .us)) s t ∧
    SameStorage s t ∧ t.idx = s.idx ∧ t.idxHi = s.idxHi ∧ t.cnt = s.cfg.size .us

/-- R143, R227: READ_CRC completes in every state and answers the status and the two checksums, application first, each
over its whole region in ascending order, least significant byte first, with no count. -/
def Obligations.ReadCrcReplies : Prop :=
  ∀ s : State, ∃ t, exec .readCrc s = .next t ∧
    Answered s.rxq (s.cfg.stOk ::
      (le32 (Config.crc32Fn (s.mem.readBytes .app 0 (s.cfg.size .app))) ++
        le32 (Config.crc32Fn (s.mem.readBytes .boot 0 (s.cfg.size .boot))))) s t ∧
    SameStorage s t ∧ t.idx = s.idx ∧ t.idxHi = s.idxHi ∧ t.cnt = 8

/-- R143, R227 and the property of R140: after ERASE_APP, READ_CRC answers the checksum of an all-erased region, and the
checksum of Boot Flash as it was. -/
def Obligations.EraseThenChecksum : Prop :=
  ∀ s : State, StorageReady s → ∃ t u, exec .eraseApp s = .next t ∧ exec .readCrc t = .next u ∧
    sent u = sent t ++ (s.cfg.stOk ::
      (le32 (Config.crc32Fn (List.replicate (s.cfg.size .app) s.cfg.erasedByte)) ++
        le32 (Config.crc32Fn (s.mem.readBytes .boot 0 (s.cfg.size .boot)))))

/-- R180, R181, R182, R24: the three identification commands complete in every state. READ_MCU_ID answers the status, the
count 4 and the identifier bytes; READ_SERIAL the status, the count and the serial bytes; READ_VERSION the status and the
version byte, with no count; `cnt` counts the data bytes. -/
def Obligations.IdentificationReplies : Prop :=
  ∀ s : State,
    (∃ t, exec .readMcuId s = .next t ∧ Answered s.rxq ([s.cfg.stOk, 4, 0] ++ s.cfg.mcuId) s t ∧
      SameStorage s t ∧ t.idx = s.idx ∧ t.idxHi = s.idxHi ∧ t.cnt = s.cfg.mcuId.length) ∧
    (∃ t, exec .readSerial s = .next t ∧
      Answered s.rxq (s.cfg.stOk :: le16 s.cfg.serial.length ++ s.cfg.serial) s t ∧
      SameStorage s t ∧ t.idx = s.idx ∧ t.idxHi = s.idxHi ∧ t.cnt = s.cfg.serial.length) ∧
    (∃ t, exec .readVersion s = .next t ∧ Answered s.rxq [s.cfg.stOk, s.cfg.version] s t ∧
      SameStorage s t ∧ t.idx = s.idx ∧ t.idxHi = s.idxHi ∧ t.cnt = 1)

/-- R183: READ_FUSES completes in every state and answers the fuse bytes, after a status in HALFDUPLEX and with none in
LEGACY, with no count in either. That it completes in LEGACY with no fuse byte at all is the model's choice (log 23). -/
def Obligations.ReadFusesReplies : Prop :=
  ∀ s : State, ∃ t, exec .readFuses s = .next t ∧
    (s.cfg.protocol = .legacy → Answered s.rxq s.cfg.fuses s t) ∧
    (s.cfg.protocol = .halfDuplex → Answered s.rxq (s.cfg.stOk :: s.cfg.fuses) s t) ∧
    SameStorage s t ∧ t.idx = s.idx ∧ t.idxHi = s.idxHi ∧ t.cnt = s.cfg.fuses.length

/-- R184: READ_GEOMETRY completes in every state and answers the status and the fields of the configured list, each
`GEOM_W` bytes, least significant first, with no count; with the spec's list, the six quantities in its order. -/
def Obligations.ReadGeometryReplies : Prop :=
  ∀ s : State, ∃ t, exec .readGeometry s = .next t ∧
    Answered s.rxq (s.cfg.stOk :: s.cfg.geomFields.flatMap fun q => leBytes s.cfg.geomW (s.cfg.quantity q)) s t ∧
    (s.cfg.geomFields = Config.referenceFields →
      sent t = sent s ++ (s.cfg.stOk ::
        (leBytes s.cfg.geomW s.cfg.app.size ++ leBytes s.cfg.geomW s.cfg.boot.size ++
          leBytes s.cfg.geomW s.cfg.app.page ++ leBytes s.cfg.geomW s.cfg.ee.size ++
          leBytes s.cfg.geomW s.cfg.ee.page ++ leBytes s.cfg.geomW s.cfg.us.size))) ∧
    SameStorage s t ∧ t.idx = s.idx ∧ t.idxHi = s.idxHi ∧ t.cnt = s.cfg.geomFields.length * s.cfg.geomW

/-! ### Control -/

/-- R200, R228, R336: RESET with interrupts disabled completes: `ST_OK` is sent, and is on the wire in HALFDUPLEX; the delay
and the protected write follow in the trace, the unlock window is closed, and the block is at `RESETTING` with no further
step; the storage is as it was. In LEGACY the status is on the wire where the model's own Bool `resetDelayCoversTx` says
that the delay is long enough: R336 asks a claim to assume it, and the Bool is log 13's. -/
def Obligations.ResetAcknowledges : Prop :=
  ∀ s : State, s.gie = false →
    ∃ t tr, exec .reset s = .next t ∧ t.seq = .resetting ∧ t.todo = [] ∧
      sent t = sent s ++ [s.cfg.stOk] ∧
      (s.cfg.halfDuplex = true ∨ s.cfg.resetDelayCoversTx = true → t.txq = [] ∧ t.wireOut = sent s ++ [s.cfg.stOk]) ∧
      t.trace = tr ++ [.delay .resetDelay, .protectedWrite .resetTrigger 1] ∧ s.trace <+: tr ∧
      (s.cfg.halfDuplex = true → t.de = false ∧ t.rxdis = false) ∧
      (s.cfg.halfDuplex = false → t.de = s.de ∧ t.rxdis = s.rxdis ∧ t.rxq = s.rxq) ∧
      t.unlockArmed = false ∧ SameStorage s t ∧ SameOperands s t ∧
      t.cfg = s.cfg ∧ t.op = s.op ∧ t.entry = s.entry ∧ t.tcnt = s.tcnt ∧ t.trun = s.trun ∧ t.gie = false ∧
      t.ivsel = s.ivsel ∧ t.extaddr = s.extaddr

/-- R320: from `RESETTING` the software reset is the only step: a step with no move scheduled is that reset; elsewhere no
move is a software reset, and a watchdog reset needs `WDT_ENABLED`. That at `RESETTING` the other moves, a power-on or
external reset included, are not enabled is the model's reading of R320 (log 15); that a move not enabled changes nothing
is its choice (log 16). -/
def Obligations.SoftwareResetIsTheOnlyStep : Prop :=
  (∀ (s : State) (m : Move), s.seq = .resetting → m ≠ .reset .software → applyMove m s = .next s) ∧
  (∀ s : State, s.seq = .resetting → applyMove (.reset .software) s = .next (applyReset .software s)) ∧
  (∀ s : State, s.cfg.wf = true → s.seq = .resetting → s.todo = [] → s.sched = [] →
    step s = .next (applyReset .software s)) ∧
  (∀ s : State, s.seq ≠ .resetting →
    applyMove (.reset .software) s = .next s ∧
    (s.cfg.wdtEnabled = false → applyMove (.reset .watchdog) s = .next s) ∧
    (s.cfg.wdtEnabled = true → applyMove (.reset .watchdog) s = .next (applyReset .watchdog s)) ∧
    applyMove (.reset .powerOn) s = .next (applyReset .powerOn s) ∧
    applyMove (.reset .external) s = .next (applyReset .external s))

/-- R202, R110: the no-op byte in the command loop is consumed and not answered; the instruction changes nothing and the
loop goes on. That the watchdog is petted and the byte taken in one step, nothing being scheduled, is log 4's. -/
def Obligations.NopIsConsumed : Prop :=
  (∀ s : State, s.seq = .fetch → exec .nop s = .next { s with todo := loopTop }) ∧
  (∀ (s : State) (rest : List Byte), s.cfg.wf = true → s.sched = [] → AtLoop s → s.rxq = s.cfg.nopByte :: rest →
    step s = .next { s with
      rxq := rest, op := s.cfg.nopByte, trace := s.trace ++ [.wdtPet, .rx s.cfg.nopByte] })

/-- R201, R109: a byte that is neither an opcode nor the no-op byte "is consumed, produces no reply byte, no transceiver
bracket, no memory access and no state change but `op`". That the watchdog is petted and the byte taken in one step, nothing
being scheduled, is log 4's. -/
def Obligations.UnknownIsIgnored : Prop :=
  (∀ (s : State) (b : Byte), s.seq = .fetch → exec (.unknown b) s = .next { s with todo := loopTop }) ∧
  (∀ (s : State) (b : Byte) (rest : List Byte), s.cfg.wf = true → s.sched = [] → AtLoop s → s.rxq = b :: rest →
    b ∉ s.cfg.ops.toList →
    step s = .next { s with rxq := rest, op := b, trace := s.trace ++ [.wdtPet, .rx b] })

/-! ### The order of events -/

/-- R241 to R244, R119, R247: the bracket of any bytes, handed over one by one or as a header and the data of a reply, and
that of each command whose reply follows its opcode alone and which writes nothing: in HALFDUPLEX the trace gains one
bracket (`Bracketed`) around the bytes sent and nothing else, in LEGACY nothing but the bytes handed over (R246). That no
byte leaves before the last is handed over is so in this run (log 4). -/
def Obligations.BracketOrder : Prop :=
  (∀ (s : State) (bytes : List Byte),
    ∃ t, runCommand (bracket s.cfg (bytes.map .txByte)) s = .next t ∧ sent t = sent s ++ bytes ∧
      TracedBurst bytes s t) ∧
  (∀ (s : State) (header : List Byte), s.cnt = 0 →
    ∃ t, runCommand (replyData s.cfg header) s = .next t ∧ sent t = sent s ++ (header ++ s.data) ∧
      TracedBurst (header ++ s.data) s t) ∧
  (∀ (s : State) (i : Instr),
    i ∈ [.readCrc, .readMcuId, .readSerial, .readVersion, .readFuses, .readUsersig, .readGeometry] →
    ∃ t bytes, exec i s = .next t ∧ sent t = sent s ++ bytes ∧ TracedBurst bytes s t ∧
      (s.cfg.halfDuplex = true → bytes ≠ []))

/-- R220, R72, R73: the order of a page write, as the trace has it (in LEGACY, with one acknowledgement): index and payload
read, the page staged in ascending positions, the commit issued, completed, and only then the status handed over. -/
def Obligations.PageWriteOrder : Prop :=
  ∀ (s : State) (idx : Half) (payload rest : List Byte), StorageReady s → s.cfg.ackMode = .single →
    s.cfg.protocol = .legacy → s.rxq = be16 idx ++ payload ++ rest → idx.toNat < s.cfg.pageCount .app →
    payload.length = s.cfg.page .app →
    ∃ t, exec .writePage s = .next t ∧
      t.trace = s.trace ++ (be16 idx ++ payload).map .rx ++ payload.zipIdx.map (fun x => .stage x.2 x.1) ++
        [.issue (.flashWritePage idx.toNat), .done (.flashWritePage idx.toNat), .txq s.cfg.stOk]

/-! ### The one exception -/

/-- R289, with R281, R290 and R114: each of the four indexed commands with an index out of range answers the one byte `ST_FAIL` and
returns to the loop: the index is latched, the storage is as it was, no payload byte is read. -/
def Obligations.RangeErrorReplies : Prop :=
  ∀ (s : State) (i : Instr) (r : Region) (idx : Half) (rest : List Byte), indexRegion i = some r →
    s.rxq = be16 idx ++ rest → s.cfg.pageCount r ≤ idx.toNat →
    ∃ t, exec i s = .next t ∧ Answered rest [s.cfg.stFail] s t ∧ SameStorage s t ∧
      t.idx = idx ∧ t.cnt = s.cnt ∧ t.data = s.data

/-- R105: what a command sends begins with a status, `ST_OK` or `ST_FAIL`, but for READ_FUSES in LEGACY. And it is `ST_FAIL`
only as the whole reply of an indexed command whose index, the two bytes at the head of the receive path, is out of range
(what R282 says of a command's first reply). -/
def Obligations.FailMeansRangeError : Prop :=
  ∀ (s t : State) (i : Instr) (b : Byte) (bytes : List Byte), s.cfg.wf = true → exec i s = .next t →
    ¬(i = .readFuses ∧ s.cfg.protocol = .legacy) → sent t = sent s ++ b :: bytes →
    b = s.cfg.stOk ∨
      b = s.cfg.stFail ∧ bytes = [] ∧
        ∃ r h l rest, indexRegion i = some r ∧ s.rxq = h :: l :: rest ∧ s.cfg.pageCount r ≤ (indexOf h l).toNat

/-! ### The primitives no command reaches as they stand -/

/-- R221: `EepromAtomicWrite` of some positions of a page: each staged position takes its byte, no byte outside the page
changes; nothing is said of the others, which are free values. -/
def Obligations.PartialEepromWrite : Prop :=
  ∀ (s : State) (p : Nat) (staged : List Host.Cell), StorageReady s → s.nvmStage = [] → p < s.cfg.pageCount .ee →
    Cells.rising staged = true → (∀ x ∈ staged, x.1 < s.cfg.page .ee) →
    ∃ t, callEepromAtomicWrite p staged s = .next t ∧
      (∀ x ∈ staged, t.mem.read .ee (pageOffset s.cfg .ee p + x.1) = x.2) ∧
      SameMemoryOutside .ee (pageOffset s.cfg .ee p) (s.cfg.page .ee) s t ∧
      t.buf = s.buf ∧ ControllerIdle t ∧ sent t = sent s ∧ t.rxq = s.rxq ∧ SameOperands s t ∧ SameControl s t

/-- R222: `EepromFullErase` makes every byte of the EEPROM 0xFF and changes no other region. -/
def Obligations.FullEepromErase : Prop :=
  ∀ s : State, StorageReady s →
    ∃ t, callEepromFullErase s = .next t ∧
      (∀ a, a < s.cfg.size .ee → t.mem.read .ee a = 0xFF) ∧
      SameMemoryOutside .ee 0 (s.cfg.size .ee) s t ∧
      t.buf = s.buf ∧ ControllerIdle t ∧ sent t = sent s ∧ t.rxq = s.rxq ∧ SameOperands s t ∧ SameControl s t

/-! ### The controller -/

/-- R218: the completion of a command. An erase leaves its value in every byte of its target; a page commit leaves each
staged byte (a flash or row commit, where the controller requires erased pages, only where the old byte was erased;
elsewhere a free value); nothing outside the target changes; the controller is idle and its staging area empty. -/
def Obligations.CompletionWritesTarget : Prop :=
  ∀ (s t : State) (c : NvmCmd), s.cfg.wf = true → s.mem.wf s.cfg = true → s.seq ≠ .resetting →
    s.nvmBusy = true → s.nvmPending = some c → c.inRange s.cfg = true → applyMove .nvmc s = .next t →
    (c = .eraseAppSection → ∀ a, a < s.cfg.size .app → t.mem.read .app a = s.cfg.erasedByte) ∧
    (c = .eraseUsersigRow → ∀ a, a < s.cfg.size .us → t.mem.read .us a = s.cfg.erasedByte) ∧
    (c = .eepromEraseAll → ∀ a, a < s.cfg.size .ee → t.mem.read .ee a = 0xFF) ∧
    (∀ p, c = .eepromAtomicWrite p → ∀ k v, k < s.cfg.page .ee → Cells.get? s.nvmStage k = some v →
      t.mem.read .ee (p * s.cfg.page .ee + k) = v) ∧
    (∀ p, c = .flashWritePage p → ∀ k v, k < s.cfg.page .app → Cells.get? s.nvmStage k = some v →
      s.cfg.flashWriteRequiresErased = false ∨ s.mem.read .app (p * s.cfg.page .app + k) = s.cfg.erasedByte →
      t.mem.read .app (p * s.cfg.page .app + k) = v) ∧
    (c = .writeUsersigRow → ∀ k v, k < s.cfg.page .us → Cells.get? s.nvmStage k = some v →
      s.cfg.flashWriteRequiresErased = false ∨ s.mem.read .us k = s.cfg.erasedByte → t.mem.read .us k = v) ∧
    SameMemoryOutside (c.target s.cfg).1 (c.target s.cfg).2.1 (c.target s.cfg).2.2 s t ∧
    ControllerIdle t ∧ t.buf = s.buf ∧ t.seq = s.seq ∧ t.todo = s.todo ∧ t.trace = s.trace ++ [.done c]

/-- R28: "Only agent `NVMC` changes `mem`, and only by completing a command that `SEQ` issued"; the one other event is a
reset that cuts a command in flight (R230). -/
def Obligations.OnlyTheControllerWrites : Prop :=
  ∀ (s t : State) (m : Move), applyMove m s = .next t →
    (m ≠ .nvmc → (∀ cause, m ≠ .reset cause) → t.mem = s.mem) ∧
    (s.nvmPending = none → t.mem = s.mem)

/-- R229, R228, D31: the three faults, at the primitive that raises them: a controller command issued while the controller
is busy, a protected write with interrupts enabled, an unwritten buffer position read. -/
def Obligations.ViolationsFault : Prop :=
  (∀ (s : State) (c : NvmCmd) (ps : List Prim), s.seq ≠ .resetting → s.todo = .issue c :: ps → s.nvmBusy = true →
    applyMove .seq s = .fault .nvmCommandWhileBusy) ∧
  (∀ (s : State) (k : PageCommit) (ps : List Prim), s.seq ≠ .resetting → s.todo = .issuePage k :: ps →
    s.nvmBusy = true → applyMove .seq s = .fault .nvmCommandWhileBusy) ∧
  (∀ (s : State) (r : ProtectedReg) (v : Nat) (ps : List Prim), s.seq ≠ .resetting →
    s.todo = .protectedWrite r v :: ps → s.gie = true → applyMove .seq s = .fault .unlockWindowMissed) ∧
  (∀ (s : State) (k : Nat) (ps : List Prim), s.seq ≠ .resetting → s.todo = .stage k :: ps →
    s.buf[k]? = some none → applyMove .seq s = .fault .unwrittenBufferRead)

/-! ### Reset -/

/-- R321, R40, R288(c): a reset at any point of a run gives every piece of state the reset value the spec states, keeps
the history and, with no command in flight, every byte of memory; all causes have the same effect but for the trace. -/
def Obligations.ResetClearsState : Prop :=
  ∀ (s : State) (cause : ResetCause),
    let t := applyReset cause s
    t.seq = .rst ∧ t.entry = .undecided ∧ t.buf = List.replicate s.cfg.bufSize none ∧ ControllerIdle t ∧
    t.rxq = [] ∧ t.txq = [] ∧ t.de = false ∧ t.rxdis = false ∧ t.tcnt = 0 ∧ t.trun = false ∧ t.gie = false ∧
    t.unlockArmed = false ∧ t.wireOut = s.wireOut ∧ t.trace = s.trace ++ [.reset cause] ∧ t.cfg = s.cfg ∧
    (s.nvmPending = none → t.mem = s.mem) ∧
    (∀ other, { applyReset other s with trace := [] } = { t with trace := [] })

/-- R230: a reset while a command is in flight: every byte the command could have written is a draw (it takes the bytes of
the tape, any there are), every other byte of every region is preserved. How a draw reads the tape is the model's (log
5). -/
def Obligations.CutCommandDraws : Prop :=
  ∀ (s : State) (cause : ResetCause) (c : NvmCmd) (bs rest : List Byte), s.cfg.wf = true → s.mem.wf s.cfg = true →
    s.nvmPending = some c → c.inRange s.cfg = true →
    SameMemoryOutside (c.target s.cfg).1 (c.target s.cfg).2.1 (c.target s.cfg).2.2 s (applyReset cause s) ∧
    (s.tape = bs ++ rest → bs.length = (c.target s.cfg).2.2 →
      (applyReset cause s).mem.readBytes (c.target s.cfg).1 (c.target s.cfg).2.1 (c.target s.cfg).2.2 = bs)

/-- R40: the machine right after reset has the reset values the spec states. The configuration it has is the model's
choice (log 2). -/
def Obligations.ResetStateValues : Prop :=
  State.reset.seq = .rst ∧ State.reset.entry = .undecided ∧ (∀ x ∈ State.reset.buf, x = none) ∧
  State.reset.buf.length = State.reset.cfg.bufSize ∧ State.reset.nvmBusy = false ∧ State.reset.nvmPending = none ∧
  State.reset.nvmStage = [] ∧ State.reset.rxq = [] ∧ State.reset.txq = [] ∧ State.reset.de = false ∧
  State.reset.rxdis = false ∧ State.reset.tcnt = 0 ∧ State.reset.trun = false ∧ State.reset.gie = false ∧
  State.reset.unlockArmed = false ∧ State.reset.cfg.wf = true

/-! ### The Device Entry Arbiter -/

/-- R323: Variant A decides at once by the entry line, sends nothing and reads nothing: with the line asserted the command
loop with `entry = BOOTLOADER`, else the jump sequence of R326 with `entry = APPLICATION`. That the jump sequence is run in
the same step, nothing being scheduled, is log 4's. -/
def Obligations.VariantADecides : Prop :=
  ∀ s : State, s.cfg.wf = true → s.sched = [] → s.cfg.entryVariant = .a → s.seq = .rst → s.todo = [.arbitrate] →
    (s.entryLine = true → step s = .next { s with seq := .fetch, todo := loopTop, entry := .bootloader }) ∧
    (s.entryLine = false → step s = .next { s with
      seq := .app, todo := [], entry := .application, gie := false, ivsel := .appTable, extaddr := .clean,
      trace := s.trace ++ [.jump s.cfg.appEntryAddr] })

/-- R324, R325: Variant B starts the timer and polls: with nothing received and the timer not expired `SEQ` has no step; a
byte that is not the no-op byte is consumed and dropped; the no-op byte before expiry decides to stay; expiry with
nothing received decides to leave. -/
def Obligations.VariantBPolls : Prop :=
  ∀ s : State, s.cfg.entryVariant = .b →
    (s.seq = .rst → s.todo = [.arbitrate] → applyMove .seq s = .next { s with
      seq := .arbPoll, todo := [.poll], tcnt := 0, trun := true, trace := s.trace ++ [.timerStart] }) ∧
    (s.seq = .arbPoll → s.todo = [.poll] → s.trun = true →
      (s.rxq = [] → s.tcnt < s.cfg.bootTimeoutTicks → applyMove .seq s = .next s) ∧
      (∀ b rest, s.rxq = b :: rest → s.tcnt < s.cfg.bootTimeoutTicks → b ≠ s.cfg.nopByte →
        applyMove .seq s = .next { s with rxq := rest, trace := s.trace ++ [.rx b] }) ∧
      (∀ rest, s.rxq = s.cfg.nopByte :: rest → s.tcnt < s.cfg.bootTimeoutTicks →
        ∃ t, applyMove .seq s = .next t ∧ t.entry = .bootloader ∧ t.seq = .arbAck ∧ t.rxq = rest ∧
          t.trace = s.trace ++ [.rx s.cfg.nopByte] ∧ t.trun = true ∧ sent t = sent s) ∧
      (s.rxq = [] → s.cfg.bootTimeoutTicks ≤ s.tcnt →
        ∃ t, applyMove .seq s = .next t ∧ t.entry = .application ∧ t.seq = .jump ∧ t.trun = true ∧
          sent t = sent s ∧ t.trace = s.trace))

/-- R324: the stay path as one run: the no-op byte taken before expiry is answered by one acknowledgement byte in its
bracket, then the timer stops, and the command loop starts. That the timer's count does not move during the
acknowledgement is so in this run with nothing scheduled (log 4): a scheduled `TMR` may tick there. -/
def Obligations.VariantBAcknowledges : Prop :=
  ∀ (s : State) (rest : List Byte), s.cfg.wf = true → s.sched = [] → s.seq = .arbPoll → s.todo = [.poll] →
    s.rxq = s.cfg.nopByte :: rest → s.tcnt < s.cfg.bootTimeoutTicks →
    ∃ t, step s = .next t ∧ AtLoop t ∧ t.entry = .bootloader ∧ Replied rest [s.cfg.arbAckByte] s t ∧
      t.trun = false ∧ t.tcnt = s.tcnt ∧ SameStorage s t ∧ SameOperands s t ∧
      t.cfg = s.cfg ∧ t.op = s.op ∧ t.gie = s.gie ∧ t.ivsel = s.ivsel ∧ t.extaddr = s.extaddr

/-- R324, R325, R288(d): with a byte waiting and the timer expired both outcomes are admitted, and no other: the byte is
taken, which decides to stay if it is the no-op byte and is dropped if it is any other (P1, P2), or the block leaves (P3)
with the byte still waiting. Which draw gives which outcome is the model's (log 5). -/
def Obligations.RaceAdmitsBoth : Prop :=
  ∀ (s : State) (b : Byte) (rest : List Byte), s.seq = .arbPoll → s.todo = [.poll] → s.trun = true →
    s.rxq = b :: rest → s.cfg.bootTimeoutTicks ≤ s.tcnt →
    let stays (t : State) := t.entry = .bootloader ∧ t.seq = .arbAck ∧ t.rxq = rest
    let drops (t : State) := t.entry = s.entry ∧ t.seq = .arbPoll ∧ t.todo = [.poll] ∧ t.rxq = rest
    let leaves (t : State) := t.entry = .application ∧ t.seq = .jump ∧ t.rxq = s.rxq
    (b = s.cfg.nopByte → ∃ tape t, applyMove .seq { s with tape := tape } = .next t ∧ stays t) ∧
    (b ≠ s.cfg.nopByte → ∃ tape t, applyMove .seq { s with tape := tape } = .next t ∧ drops t) ∧
    (∃ tape t, applyMove .seq { s with tape := tape } = .next t ∧ leaves t) ∧
    (∃ t, applyMove .seq s = .next t ∧
      (leaves t ∨ b = s.cfg.nopByte ∧ stays t ∨ b ≠ s.cfg.nopByte ∧ drops t))

/-- R325, R293: with no byte arriving and nothing else pending the arbiter always ends: after as many steps as ticks are
left and one more the block has jumped, having sent nothing. The steps are those of the run with nothing scheduled (log
4). -/
def Obligations.BootWindowEnds : Prop :=
  ∀ s : State, s.cfg.wf = true → s.sched = [] → s.seq = .arbPoll → s.todo = [.poll] → s.trun = true → s.rxq = [] →
    s.txq = [] → s.nvmBusy = false →
    ∃ t, runSteps (s.cfg.bootTimeoutTicks - s.tcnt + 1) s = .next t ∧ t.seq = .app ∧ t.entry = .application ∧
      t.wireOut = s.wireOut ∧ t.txq = [] ∧ t.mem = s.mem ∧ t.tcnt = max s.tcnt s.cfg.bootTimeoutTicks ∧
      t.trun = true ∧ t.trace = s.trace ++ [.jump s.cfg.appEntryAddr]

/-- R326: the four actions of the jump sequence, one move each, in their order; then the terminal state with the memory as
it was. -/
def Obligations.JumpSequence : Prop :=
  ∀ s : State, s.seq = .jump → s.todo = [.clearGie, .selectAppTable, .cleanExtAddr, .jumpToApp] →
    let s1 := { s with gie := false, todo := [.selectAppTable, .cleanExtAddr, .jumpToApp] }
    let s2 := { s1 with ivsel := .appTable, todo := [.cleanExtAddr, .jumpToApp] }
    let s3 := { s2 with extaddr := .clean, todo := [.jumpToApp] }
    applyMove .seq s = .next s1 ∧ applyMove .seq s1 = .next s2 ∧ applyMove .seq s2 = .next s3 ∧
    applyMove .seq s3 = .next { s3 with
      seq := .app, todo := [], trace := s.trace ++ [.jump s.cfg.appEntryAddr] }

/-- R326, R292, R321: in the terminal state nothing but a reset takes the block out: every other move of a state that
meets the invariant leaves it there with its memory and its two lines released. That its Entry State, what it has sent,
the buffer and the processor configuration stay as well is the model's (log 28): of the application that runs there the
spec says nothing (U9). -/
def Obligations.AppIsTerminal : Prop :=
  ∀ (s t : State) (m : Move), Inv s → s.seq = .app → s.todo = [] → (∀ cause, m ≠ .reset cause) →
    applyMove m s = .next t →
    t.seq = .app ∧ t.todo = [] ∧ t.entry = s.entry ∧ t.mem = s.mem ∧ t.de = false ∧ t.rxdis = false ∧
      sent t = sent s ∧ t.buf = s.buf ∧ t.gie = s.gie ∧ t.ivsel = s.ivsel ∧ t.extaddr = s.extaddr

/-- R26, R328: `entry` is "decided once per power-on/reset and never revisited until the next reset". -/
def Obligations.EntryIsDecidedOnce : Prop :=
  ∀ s t : State, Inv s → step s = .next t →
    t.entry = s.entry ∨ s.entry = .undecided ∨ t.entry = .undecided ∧ t.seq = .rst

/-! ### What holds in every run -/

/-- The invariant of Safety.lean holds in the state after a reset (R40), for every configuration the block can have; so also
in `State.reset`, whose configuration is the model's choice (log 2). -/
def Obligations.InvAtReset : Prop :=
  (∀ c : Config, c.wf = true → Inv (State.resetOf c)) ∧ Inv State.reset

/-- The invariant is kept by every step, whichever agent moves: memory in canonical form and inside its regions, the
staging area a partial map, the Page Buffer at its size, `gie = 0` and `unlock_armed = 0` (R286, R36), `nvm_busy = 1` if
and only if a command is pending (R30), bytes queued in drive mode only (R247(a)), the two lines 0 in LEGACY (R33), `cnt`
below 65536 (R20, R24), the rest of the control path has what it needs, and nothing is left to be done at `RESETTING`
(R320). -/
def Obligations.StepKeepsInv : Prop :=
  ∀ s t : State, Inv s → step s = .next t → Inv t

/-- From a state that meets the invariant every step answers a next state: no controller command while busy (R229), no
unwritten buffer position read (R25(d)), no missed unlock window (R228), no access outside a region (R63), in any
interleaving of the agents. -/
def Obligations.InvNeverStops : Prop :=
  ∀ s : State, Inv s → ∃ t, step s = .next t

/-- R65: "A model keeps `mem[BOOT]` constant across every step." -/
def Obligations.BootFlashIsConstant : Prop :=
  ∀ s t : State, step s = .next t → t.mem.boot = s.mem.boot

/-- R61, R41, R29: no step changes the configuration: the regions and the constant spaces are fixed at build time. -/
def Obligations.ConfigurationIsConstant : Prop :=
  ∀ s t : State, step s = .next t → t.cfg = s.cfg

/-- R38, R32, R40: no step takes anything back from the trace or from the wire, a reset included. -/
def Obligations.HistoryOnlyGrows : Prop :=
  ∀ s t : State, step s = .next t → s.trace <+: t.trace ∧ s.wireOut <+: t.wireOut

/-- R247(a), R247(b), R73, R30: in a state that meets the invariant the block hands a byte to the transmitter only in drive
mode (in HALFDUPLEX) and with every commit done; it waits for a byte, or polls, in listen mode only; at the top of the
loop the controller is idle and nothing is staged. -/
def Obligations.BusAndBarriers : Prop :=
  ∀ s : State, Inv s →
    (∀ p ps, s.todo = p :: ps → (∃ b, p = .txByte b) ∨ p = .txData →
      (s.cfg.halfDuplex = true → s.de = true) ∧ s.nvmBusy = false ∧ s.nvmStage = []) ∧
    (∀ p ps, s.todo = p :: ps → p = .rxOp ∨ p = .rxIdxHi ∨ p = .rxIdxLo ∨ (∃ n, p = .rxPayload n) ∨ p = .poll →
      s.de = false ∧ s.rxdis = false) ∧
    (AtLoop s → s.nvmBusy = false ∧ s.nvmStage = [] ∧ s.de = false ∧ s.rxdis = false)

/-- R7, R10: the run of a whole command is a run of the agents' moves: in a state that meets the invariant, whatever a step
with nothing scheduled answers, some list of moves, one primitive each, gives the same state. -/
def Obligations.CommandIsARunOfMoves : Prop :=
  ∀ s t : State, Inv s → s.sched = [] → step s = .next t → ∃ moves, runMoves moves s = .next t

/-- R250, R262(b): a host byte sent while the bus is busy is lost, kept, or replaced by a drawn byte, each of them possible;
at any other moment it arrives, and so does every byte of a host that keeps its duty (b). Which draw gives which fate is
the model's (log 17); how the duty is read is log 31's. -/
def Obligations.HostByteFate : Prop :=
  ∀ (s : State) (b : Byte), s.seq ≠ .resetting →
    (busBusy s = false → applyMove (.send b) s = .next { s with rxq := s.rxq ++ [b] }) ∧
    (∀ v : HostView, dutyB s v (.send b) = true → applyMove (.send b) s = .next { s with rxq := s.rxq ++ [b] }) ∧
    (busBusy s = true →
      (∀ t, applyMove (.send b) s = .next t → ∃ extra : List Byte, extra.length ≤ 1 ∧ t.rxq = s.rxq ++ extra) ∧
      (∀ extra : List Byte, extra.length ≤ 1 →
        ∃ tape t, applyMove (.send b) { s with tape := tape } = .next t ∧ t.rxq = s.rxq ++ extra))

/-! ### Whole commands -/

/-- R75: "write page i" followed by "read page i" returns exactly the bytes written, for flash and for EEPROM, at every
index, over the wire. For flash, with one acknowledgement, and where the controller requires erased pages, on an erased
page (R220); for EEPROM in every configuration. A command is one step, nothing being scheduled (log 4). -/
def Obligations.WriteThenRead : Prop :=
  ∀ (s : State) (wr rd : Instr) (r : Region) (idx : Half) (payload : List Byte), StorageReady s → AtLoop s →
    s.sched = [] →
    (wr = .writePage ∧ rd = .readPage ∧ r = .app ∧ s.cfg.ackMode = .single ∧
        (s.cfg.flashWriteRequiresErased = false ∨
          ∀ k, k < s.cfg.page .app → s.mem.read .app (pageOffset s.cfg .app idx.toNat + k) = s.cfg.erasedByte) ∨
      wr = .writeEeprom ∧ rd = .readEeprom ∧ r = .ee) →
    idx.toNat < s.cfg.pageCount r → payload.length = s.cfg.page r →
    ∃ t u, step { s with rxq := encodeFrame s.cfg (.fip wr idx payload) } = .next t ∧
      step { t with rxq := encodeFrame s.cfg (.fi rd idx) } = .next u ∧
      sent t = sent s ++ [s.cfg.stOk] ∧
      sent u = sent t ++ (s.cfg.stOk :: le16 (s.cfg.page r) ++ payload) ∧ AtLoop u

/-- R71, R111, R290: in LEGACY each well-formed frame is consumed whole, and not a byte more, and the block is again at the
top of the loop (after RESET, at `RESETTING`): queued commands are executed in their order. What it sends is as long as
R104 and R107 say (`replyLength`). That one step, nothing being scheduled, runs the whole command is the model's choice
(logs 3 and 4). -/
def Obligations.FrameIsConsumedWhole : Prop :=
  ∀ (s : State) (f : Frame) (rest : List Byte), StorageReady s → AtLoop s → s.sched = [] → s.gie = false →
    s.cfg.protocol = .legacy → f.wf s.cfg = true →
    ∃ t, step { s with rxq := encodeFrame s.cfg f ++ rest } = .next t ∧ t.rxq = rest ∧ StorageReady t ∧
      t.sched = [] ∧ t.gie = false ∧ (f.instr = .reset → t.seq = .resetting) ∧ (f.instr ≠ .reset → AtLoop t) ∧
      (sent t).length = (sent s).length + replyLength s.cfg f

/-- R261 steps 2 and 3, R264: from a state in which the block waits for a command, with an image of at most
`page_count(APP)` pages, every exchange is answered `ST_OK`; at the end the pages of the image are in Application Flash,
every other byte of it is erased, every other region is as it was, and the host has received one `ST_OK` a command. Before
each frame the host has seen the whole reply to the one before and the bus is free (R262(a), (b)); every frame is
well-formed (R262(d)) and answered by one byte. The host sends a frame between two steps and its waiting runs the block
(log 29). -/
def Obligations.UpdateInstallsImage : Prop :=
  ∀ (s : State) (image : List (List Byte)) (patience : Nat), Between s → s.cfg.ackMode = .single →
    (s.cfg.protocol = .halfDuplex → s.cfg.echoMax ≤ s.cfg.echoDiscardReads) → 3 ≤ patience →
    image.length ≤ s.cfg.pageCount .app → (∀ p ∈ image, p.length = s.cfg.page .app) →
    (∀ f ∈ updateFrames image, f.wf s.cfg = true ∧ replyLength s.cfg f = 1) ∧
    (∀ k, k ≤ image.length + 1 →
      ∃ t, exchanges patience ((updateFrames image).take k) s = some t ∧ Between t ∧ busBusy t = false ∧
        t.wireOut = s.wireOut ++ List.replicate k s.cfg.stOk) ∧
    ∃ t, exchanges patience (updateFrames image) s = some t ∧
      (∀ i (hi : i < image.length),
        t.mem.readBytes .app (pageOffset s.cfg .app i) (s.cfg.page .app) = image[i]) ∧
      (∀ a, image.length * s.cfg.page .app ≤ a → a < s.cfg.size .app → t.mem.read .app a = s.cfg.erasedByte) ∧
      SameMemoryOutside .app 0 (s.cfg.size .app) s t

/-- R261 whole, R264: from a reset of a Variant B block, the host's no-op byte is answered by the acknowledgement (step 1),
the image is installed (steps 2 and 3), RESET is sent and the block restarts with the memory of the update (step 4). With
nothing scheduled, as log 4 has it, and a host that sends between two steps (log 29). -/
def Obligations.WholeUpdate : Prop :=
  ∀ (s : State) (image : List (List Byte)) (patience tries : Nat), StorageReady s → s.sched = [] → s.gie = false →
    s.seq = .rst → s.todo = [.arbitrate] → s.cfg.entryVariant = .b → 0 < s.cfg.bootTimeoutTicks → s.rxq = [] →
    s.txq = [] → s.hostRead = s.wireOut.length → s.de = false → s.rxdis = false → s.cfg.ackMode = .single →
    (s.cfg.protocol = .halfDuplex → s.cfg.echoMax ≤ s.cfg.echoDiscardReads) → 4 ≤ patience → 1 ≤ tries →
    image.length ≤ s.cfg.pageCount .app → (∀ p ∈ image, p.length = s.cfg.page .app) →
    ∃ r t u v, rendezvous patience tries s = some r ∧ Between r ∧ r.entry = .bootloader ∧ r.trun = false ∧
      r.wireOut = s.wireOut ++ [s.cfg.arbAckByte] ∧ SameStorage s r ∧
      update patience tries image s = some t ∧
      (∀ i (hi : i < image.length),
        t.mem.readBytes .app (pageOffset s.cfg .app i) (s.cfg.page .app) = image[i]) ∧
      (∀ a, image.length * s.cfg.page .app ≤ a → a < s.cfg.size .app → t.mem.read .app a = s.cfg.erasedByte) ∧
      SameMemoryOutside .app 0 (s.cfg.size .app) s t ∧
      step t = .next u ∧ sent u = r.wireOut ++ List.replicate (image.length + 2) s.cfg.stOk ∧
      step u = .next v ∧ v = applyReset .software u ∧ v.seq = .rst ∧ v.entry = .undecided ∧ v.mem = t.mem
end

