-- ==== Sys2Proof/Laws/Memory.lean ====
section
/-! SUPPORT. The laws of byte maps, of one region and of the four regions: read after write, every other place left
alone, the canonical form kept. -/

namespace Sys2Proof.Machine

/-! ### Byte maps -/

theorem Cells.get?_set (cs : List Host.Cell) (a x : Nat) (b : Byte) :
    Cells.get? (Cells.set cs a b) x = if x = a then some b else Cells.get? cs x := by
  induction cs with
  | nil => simp [Cells.set, Cells.get?]
  | cons e cs ih =>
    obtain ⟨k, v⟩ := e
    simp only [Cells.set]
    split_ifs with h1 h2 <;> simp only [Cells.get?, ih] <;> split_ifs <;> first | rfl | omega

theorem Cells.get?_eq_none (cs : List Host.Cell) (x : Nat) (h : ∀ e ∈ cs, e.1 ≠ x) : Cells.get? cs x = none := by
  induction cs with
  | nil => rfl
  | cons e cs ih =>
    obtain ⟨k, v⟩ := e
    have hk : x ≠ k := fun hx => h (k, v) (by simp) hx.symm
    simp [Cells.get?, hk, ih fun e he => h e (by simp [he])]

theorem Cells.get?_erase (cs : List Host.Cell) (a x : Nat) (hs : Cells.rising cs = true) :
    Cells.get? (Cells.erase cs a) x = if x = a then none else Cells.get? cs x := by
  induction cs with
  | nil => simp [Cells.erase, Cells.get?]
  | cons e cs ih =>
    obtain ⟨k, v⟩ := e
    simp only [Cells.rising, decide_eq_true_eq, List.pairwise_cons] at hs ih
    simp only [Cells.erase]
    by_cases h1 : a = k
    · rw [if_pos h1]
      by_cases h2 : x = a
      · rw [if_pos h2]
        exact Cells.get?_eq_none _ _ fun e he => by have := hs.1 e he; omega
      · rw [if_neg h2, Cells.get?, if_neg (by omega)]
    · rw [if_neg h1, Cells.get?, Cells.get?, ih hs.2]
      by_cases h2 : x = k
      · rw [if_pos h2, if_pos h2, if_neg (by omega)]
      · rw [if_neg h2, if_neg h2]

theorem Cells.mem_set {cs : List Host.Cell} {a : Nat} {b : Byte} {e : Host.Cell}
    (h : e ∈ Cells.set cs a b) : e = (a, b) ∨ e ∈ cs := by
  induction cs with
  | nil => simpa [Cells.set] using h
  | cons d cs ih =>
    obtain ⟨k, v⟩ := d
    simp only [Cells.set] at h
    split_ifs at h <;> simp only [List.mem_cons] at h ⊢ <;> tauto

theorem Cells.mem_erase {cs : List Host.Cell} {a : Nat} {e : Host.Cell} (h : e ∈ Cells.erase cs a) : e ∈ cs := by
  induction cs with
  | nil => simp [Cells.erase] at h
  | cons d cs ih =>
    obtain ⟨k, v⟩ := d
    simp only [Cells.erase] at h
    split_ifs at h
    · exact List.mem_cons_of_mem _ h
    · rcases List.mem_cons.1 h with h | h
      · exact h ▸ List.mem_cons_self
      · exact List.mem_cons_of_mem _ (ih h)

theorem Cells.rising_set (cs : List Host.Cell) (a : Nat) (b : Byte) (hs : Cells.rising cs = true) :
    Cells.rising (Cells.set cs a b) = true := by
  induction cs with
  | nil => simp [Cells.set, Cells.rising]
  | cons d cs ih =>
    obtain ⟨k, v⟩ := d
    simp only [Cells.rising, decide_eq_true_eq, List.pairwise_cons] at hs ih ⊢
    simp only [Cells.set]
    split_ifs with h1 h2
    · refine List.pairwise_cons.2 ⟨fun e he => ?_, List.pairwise_cons.2 hs⟩
      rcases List.mem_cons.1 he with rfl | he
      · exact h1
      · exact lt_trans h1 (hs.1 e he)
    · exact List.pairwise_cons.2 ⟨fun e he => h2 ▸ hs.1 e he, hs.2⟩
    · refine List.pairwise_cons.2 ⟨fun e he => ?_, ih hs.2⟩
      rcases Cells.mem_set he with rfl | he
      · show k < a
        omega
      · exact hs.1 e he

theorem Cells.rising_erase (cs : List Host.Cell) (a : Nat) (hs : Cells.rising cs = true) :
    Cells.rising (Cells.erase cs a) = true := by
  induction cs with
  | nil => simpa [Cells.erase] using hs
  | cons d cs ih =>
    obtain ⟨k, v⟩ := d
    simp only [Cells.rising, decide_eq_true_eq, List.pairwise_cons] at hs ih ⊢
    simp only [Cells.erase]
    split_ifs
    · exact hs.2
    · exact List.pairwise_cons.2 ⟨fun e he => hs.1 e (Cells.mem_erase he), ih hs.2⟩

/-! ### One region -/

theorem Memory.wf_iff (m : Memory) :
    m.wf = true ↔ Cells.rising m = true ∧ ∀ e ∈ m, e.2 ≠ Memory.blank := by
  simp [Memory.wf]

theorem Memory.read_write (m : Memory) (a x : Nat) (b : Byte) (h : m.wf = true) :
    (m.write a b).read x = if x = a then b else m.read x := by
  have hr := ((Memory.wf_iff m).1 h).1
  unfold Memory.write Memory.read
  by_cases hb : b = Memory.blank
  · rw [if_pos hb, Cells.get?_erase _ _ _ hr]
    split_ifs <;> simp [hb]
  · rw [if_neg hb, Cells.get?_set]
    split_ifs <;> simp

theorem Memory.mem_write {m : Memory} {a : Nat} {b : Byte} {e : Host.Cell} (h : e ∈ m.write a b) :
    e = (a, b) ∨ e ∈ m := by
  unfold Memory.write at h
  split_ifs at h
  · exact .inr (Cells.mem_erase h)
  · exact Cells.mem_set h

/-- A write keeps the canonical form. -/
theorem Memory.wf_write (m : Memory) (a : Nat) (b : Byte) (h : m.wf = true) : (m.write a b).wf = true := by
  obtain ⟨hr, hv⟩ := (Memory.wf_iff m).1 h
  refine (Memory.wf_iff _).2 ⟨?_, fun e he => ?_⟩
  · unfold Memory.write
    split_ifs
    · exact Cells.rising_erase _ _ hr
    · exact Cells.rising_set _ _ _ hr
  · by_cases hb : b = Memory.blank
    · rw [Memory.write, if_pos hb] at he
      exact hv e (Cells.mem_erase he)
    · rcases Memory.mem_write he with rfl | he
      · exact hb
      · exact hv e he

/-! ### The four regions -/

@[simp] theorem NvMem.region_setRegion (m : NvMem) (r r' : Region) (x : Memory) :
    (m.setRegion r x).region r' = if r' = r then x else m.region r' := by
  cases r <;> cases r' <;> rfl

/-- Every region is in canonical form. -/
def NvMem.Canonical (m : NvMem) : Prop := ∀ r, (m.region r).wf = true

theorem NvMem.wf_iff (c : Config) (m : NvMem) :
    m.wf c = true ↔ ∀ r, (m.region r).wf = true ∧ ∀ e ∈ m.region r, e.1 < c.size r := by
  constructor
  · intro h r
    simp only [NvMem.wf, List.all_cons, List.all_nil, Bool.and_true, Bool.and_eq_true, List.all_eq_true,
      decide_eq_true_eq] at h
    cases r <;> tauto
  · intro h
    simp only [NvMem.wf, List.all_cons, List.all_nil, Bool.and_true, Bool.and_eq_true, List.all_eq_true,
      decide_eq_true_eq]
    exact ⟨h .app, h .boot, h .ee, h .us⟩

theorem NvMem.canonical_of_wf {c : Config} {m : NvMem} (h : m.wf c = true) : m.Canonical :=
  fun r => ((NvMem.wf_iff c m).1 h r).1

theorem NvMem.read_write (m : NvMem) (r r' : Region) (a x : Nat) (b : Byte) (h : m.Canonical) :
    (m.write r a b).read r' x = if r' = r ∧ x = a then b else m.read r' x := by
  unfold NvMem.write NvMem.read
  rw [NvMem.region_setRegion]
  by_cases hr : r' = r
  · subst hr
    rw [if_pos rfl, Memory.read_write _ _ _ _ (h r')]
    simp
  · simp [hr]

theorem NvMem.canonical_write (m : NvMem) (r : Region) (a : Nat) (b : Byte) (h : m.Canonical) :
    (m.write r a b).Canonical := by
  intro r'
  unfold NvMem.write
  rw [NvMem.region_setRegion]
  split_ifs
  · exact Memory.wf_write _ _ _ (h r)
  · exact h r'

theorem NvMem.canonical_writeBytes (m : NvMem) (r : Region) (a : Nat) (bs : List Byte) (h : m.Canonical) :
    (m.writeBytes r a bs).Canonical := by
  induction bs generalizing m a with
  | nil => exact h
  | cons b bs ih => exact ih _ _ (NvMem.canonical_write m r a b h)

/-- What a write of several bytes leaves at each place: the byte written there, or what was there. -/
theorem NvMem.read_writeBytes (m : NvMem) (r r' : Region) (a x : Nat) (bs : List Byte) (h : m.Canonical) :
    (m.writeBytes r a bs).read r' x =
      if r' = r ∧ a ≤ x ∧ x < a + bs.length then bs.getD (x - a) 0 else m.read r' x := by
  induction bs generalizing m a with
  | nil =>
    have : ¬(a ≤ x ∧ x < a) := by omega
    simp [NvMem.writeBytes, this]
  | cons b bs ih =>
    rw [NvMem.writeBytes, ih _ _ (NvMem.canonical_write m r a b h), NvMem.read_write m r r' a x b h]
    by_cases hr : r' = r
    · by_cases hx : x = a
      · subst hx
        simp [hr]
      · by_cases hlt : a < x
        · obtain ⟨d, rfl⟩ : ∃ d, x = a + 1 + d := ⟨x - (a + 1), by omega⟩
          have e1 : a + 1 + d - (a + 1) = d := by omega
          have e2 : a + 1 + d - a = d + 1 := by omega
          simp only [hr, true_and, e1, e2, List.getD_cons_succ, List.length_cons, hx, if_false]
          congr 1
          simp only [eq_iff_iff]
          omega
        · have h1 : ¬(a + 1 ≤ x) := by omega
          have h2 : ¬(a ≤ x) := by omega
          simp [h1, h2, hx]
    · simp [hr]

theorem NvMem.read_writeBytes_same (m : NvMem) (r : Region) (a k : Nat) (bs : List Byte) (h : m.Canonical)
    (hk : k < bs.length) : (m.writeBytes r a bs).read r (a + k) = bs[k] := by
  rw [NvMem.read_writeBytes m r r a (a + k) bs h, if_pos ⟨rfl, by omega, by omega⟩]
  simp [hk]

theorem NvMem.region_writeBytes_of_ne (m : NvMem) {r r' : Region} (a : Nat) (bs : List Byte) (hr : r' ≠ r) :
    (m.writeBytes r a bs).region r' = m.region r' := by
  induction bs generalizing m a with
  | nil => rfl
  | cons b bs ih => rw [NvMem.writeBytes, ih, NvMem.write, NvMem.region_setRegion, if_neg hr]

theorem NvMem.length_readBytes (m : NvMem) (r : Region) (a n : Nat) : (m.readBytes r a n).length = n := by
  simp [NvMem.readBytes]

/-- Read after write: the bytes written are the bytes read (20_memory.md R75). -/
theorem NvMem.readBytes_writeBytes (m : NvMem) (r : Region) (a : Nat) (bs : List Byte) (h : m.Canonical) :
    (m.writeBytes r a bs).readBytes r a bs.length = bs := by
  refine List.ext_getElem (by simp [NvMem.readBytes]) fun k hk hk' => ?_
  simp only [NvMem.readBytes, List.getElem_map, List.getElem_range]
  exact NvMem.read_writeBytes_same m r a k bs h hk'

/-- A write inside a region keeps the four regions canonical and bounded. -/
theorem NvMem.wf_writeBytes (c : Config) (m : NvMem) (r : Region) (a : Nat) (bs : List Byte)
    (h : m.wf c = true) (hb : a + bs.length ≤ c.size r) : (m.writeBytes r a bs).wf c = true := by
  induction bs generalizing m a with
  | nil => exact h
  | cons b bs ih =>
    rw [List.length_cons] at hb
    refine ih _ _ ((NvMem.wf_iff c _).2 fun r' => ⟨NvMem.canonical_write m r a b (NvMem.canonical_of_wf h) r', ?_⟩) (by omega)
    intro e he
    have hm := (NvMem.wf_iff c m).1 h
    rw [NvMem.write, NvMem.region_setRegion] at he
    by_cases hr : r' = r
    · subst hr
      rw [if_pos rfl] at he
      rcases Memory.mem_write he with rfl | he
      · show a < c.size r'
        omega
      · exact (hm r').2 e he
    · rw [if_neg hr] at he
      exact (hm r').2 e he

end Sys2Proof.Machine
end

