-- ==== Sys2Proof/Laws/State.lean ====
section
/-! SUPPORT. For each named update of State, its effect on each field. -/

namespace Sys2Proof.Machine

/-! ### `withDraws`: the part of State a draw touches -/

/-- The state with the tape and the draw counter replaced. -/
def State.withDraws (s : State) (t : List Byte) (n : Nat) : State := { s with tape := t, draws := n }

@[simp] theorem withDraws_cfg (s : State) (t : List Byte) (n : Nat) : (s.withDraws t n).cfg = s.cfg := rfl
@[simp] theorem withDraws_seq (s : State) (t : List Byte) (n : Nat) : (s.withDraws t n).seq = s.seq := rfl
@[simp] theorem withDraws_todo (s : State) (t : List Byte) (n : Nat) : (s.withDraws t n).todo = s.todo := rfl
@[simp] theorem withDraws_op (s : State) (t : List Byte) (n : Nat) : (s.withDraws t n).op = s.op := rfl
@[simp] theorem withDraws_idx (s : State) (t : List Byte) (n : Nat) : (s.withDraws t n).idx = s.idx := rfl
@[simp] theorem withDraws_idxHi (s : State) (t : List Byte) (n : Nat) : (s.withDraws t n).idxHi = s.idxHi := rfl
@[simp] theorem withDraws_cnt (s : State) (t : List Byte) (n : Nat) : (s.withDraws t n).cnt = s.cnt := rfl
@[simp] theorem withDraws_data (s : State) (t : List Byte) (n : Nat) : (s.withDraws t n).data = s.data := rfl
@[simp] theorem withDraws_buf (s : State) (t : List Byte) (n : Nat) : (s.withDraws t n).buf = s.buf := rfl
@[simp] theorem withDraws_entry (s : State) (t : List Byte) (n : Nat) : (s.withDraws t n).entry = s.entry := rfl
@[simp] theorem withDraws_nvmBusy (s : State) (t : List Byte) (n : Nat) : (s.withDraws t n).nvmBusy = s.nvmBusy := rfl
@[simp] theorem withDraws_nvmPending (s : State) (t : List Byte) (n : Nat) : (s.withDraws t n).nvmPending = s.nvmPending := rfl
@[simp] theorem withDraws_nvmStage (s : State) (t : List Byte) (n : Nat) : (s.withDraws t n).nvmStage = s.nvmStage := rfl
@[simp] theorem withDraws_mem (s : State) (t : List Byte) (n : Nat) : (s.withDraws t n).mem = s.mem := rfl
@[simp] theorem withDraws_rxq (s : State) (t : List Byte) (n : Nat) : (s.withDraws t n).rxq = s.rxq := rfl
@[simp] theorem withDraws_txq (s : State) (t : List Byte) (n : Nat) : (s.withDraws t n).txq = s.txq := rfl
@[simp] theorem withDraws_wireOut (s : State) (t : List Byte) (n : Nat) : (s.withDraws t n).wireOut = s.wireOut := rfl
@[simp] theorem withDraws_hostRead (s : State) (t : List Byte) (n : Nat) : (s.withDraws t n).hostRead = s.hostRead := rfl
@[simp] theorem withDraws_de (s : State) (t : List Byte) (n : Nat) : (s.withDraws t n).de = s.de := rfl
@[simp] theorem withDraws_rxdis (s : State) (t : List Byte) (n : Nat) : (s.withDraws t n).rxdis = s.rxdis := rfl
@[simp] theorem withDraws_tcnt (s : State) (t : List Byte) (n : Nat) : (s.withDraws t n).tcnt = s.tcnt := rfl
@[simp] theorem withDraws_trun (s : State) (t : List Byte) (n : Nat) : (s.withDraws t n).trun = s.trun := rfl
@[simp] theorem withDraws_gie (s : State) (t : List Byte) (n : Nat) : (s.withDraws t n).gie = s.gie := rfl
@[simp] theorem withDraws_ivsel (s : State) (t : List Byte) (n : Nat) : (s.withDraws t n).ivsel = s.ivsel := rfl
@[simp] theorem withDraws_extaddr (s : State) (t : List Byte) (n : Nat) : (s.withDraws t n).extaddr = s.extaddr := rfl
@[simp] theorem withDraws_unlockArmed (s : State) (t : List Byte) (n : Nat) : (s.withDraws t n).unlockArmed = s.unlockArmed := rfl
@[simp] theorem withDraws_entryLine (s : State) (t : List Byte) (n : Nat) : (s.withDraws t n).entryLine = s.entryLine := rfl
@[simp] theorem withDraws_trace (s : State) (t : List Byte) (n : Nat) : (s.withDraws t n).trace = s.trace := rfl
@[simp] theorem withDraws_sched (s : State) (t : List Byte) (n : Nat) : (s.withDraws t n).sched = s.sched := rfl
@[simp] theorem withDraws_tape (s : State) (t : List Byte) (n : Nat) : (s.withDraws t n).tape = t := rfl
@[simp] theorem withDraws_draws (s : State) (t : List Byte) (n : Nat) : (s.withDraws t n).draws = n := rfl

/-! ### `log` -/

@[simp] theorem log_cfg (e : Event) (s : State) : (log e s).cfg = s.cfg := rfl
@[simp] theorem log_seq (e : Event) (s : State) : (log e s).seq = s.seq := rfl
@[simp] theorem log_todo (e : Event) (s : State) : (log e s).todo = s.todo := rfl
@[simp] theorem log_op (e : Event) (s : State) : (log e s).op = s.op := rfl
@[simp] theorem log_idx (e : Event) (s : State) : (log e s).idx = s.idx := rfl
@[simp] theorem log_idxHi (e : Event) (s : State) : (log e s).idxHi = s.idxHi := rfl
@[simp] theorem log_cnt (e : Event) (s : State) : (log e s).cnt = s.cnt := rfl
@[simp] theorem log_data (e : Event) (s : State) : (log e s).data = s.data := rfl
@[simp] theorem log_buf (e : Event) (s : State) : (log e s).buf = s.buf := rfl
@[simp] theorem log_entry (e : Event) (s : State) : (log e s).entry = s.entry := rfl
@[simp] theorem log_nvmBusy (e : Event) (s : State) : (log e s).nvmBusy = s.nvmBusy := rfl
@[simp] theorem log_nvmPending (e : Event) (s : State) : (log e s).nvmPending = s.nvmPending := rfl
@[simp] theorem log_nvmStage (e : Event) (s : State) : (log e s).nvmStage = s.nvmStage := rfl
@[simp] theorem log_mem (e : Event) (s : State) : (log e s).mem = s.mem := rfl
@[simp] theorem log_rxq (e : Event) (s : State) : (log e s).rxq = s.rxq := rfl
@[simp] theorem log_txq (e : Event) (s : State) : (log e s).txq = s.txq := rfl
@[simp] theorem log_wireOut (e : Event) (s : State) : (log e s).wireOut = s.wireOut := rfl
@[simp] theorem log_hostRead (e : Event) (s : State) : (log e s).hostRead = s.hostRead := rfl
@[simp] theorem log_de (e : Event) (s : State) : (log e s).de = s.de := rfl
@[simp] theorem log_rxdis (e : Event) (s : State) : (log e s).rxdis = s.rxdis := rfl
@[simp] theorem log_tcnt (e : Event) (s : State) : (log e s).tcnt = s.tcnt := rfl
@[simp] theorem log_trun (e : Event) (s : State) : (log e s).trun = s.trun := rfl
@[simp] theorem log_gie (e : Event) (s : State) : (log e s).gie = s.gie := rfl
@[simp] theorem log_ivsel (e : Event) (s : State) : (log e s).ivsel = s.ivsel := rfl
@[simp] theorem log_extaddr (e : Event) (s : State) : (log e s).extaddr = s.extaddr := rfl
@[simp] theorem log_unlockArmed (e : Event) (s : State) : (log e s).unlockArmed = s.unlockArmed := rfl
@[simp] theorem log_entryLine (e : Event) (s : State) : (log e s).entryLine = s.entryLine := rfl
@[simp] theorem log_trace (e : Event) (s : State) : (log e s).trace = s.trace ++ [e] := rfl
@[simp] theorem log_sched (e : Event) (s : State) : (log e s).sched = s.sched := rfl
@[simp] theorem log_tape (e : Event) (s : State) : (log e s).tape = s.tape := rfl
@[simp] theorem log_draws (e : Event) (s : State) : (log e s).draws = s.draws := rfl

/-! ### `txByte` -/

@[simp] theorem txByte_cfg (b : Byte) (s : State) : (txByte b s).cfg = s.cfg := rfl
@[simp] theorem txByte_seq (b : Byte) (s : State) : (txByte b s).seq = s.seq := rfl
@[simp] theorem txByte_todo (b : Byte) (s : State) : (txByte b s).todo = s.todo := rfl
@[simp] theorem txByte_op (b : Byte) (s : State) : (txByte b s).op = s.op := rfl
@[simp] theorem txByte_idx (b : Byte) (s : State) : (txByte b s).idx = s.idx := rfl
@[simp] theorem txByte_idxHi (b : Byte) (s : State) : (txByte b s).idxHi = s.idxHi := rfl
@[simp] theorem txByte_cnt (b : Byte) (s : State) : (txByte b s).cnt = s.cnt := rfl
@[simp] theorem txByte_data (b : Byte) (s : State) : (txByte b s).data = s.data := rfl
@[simp] theorem txByte_buf (b : Byte) (s : State) : (txByte b s).buf = s.buf := rfl
@[simp] theorem txByte_entry (b : Byte) (s : State) : (txByte b s).entry = s.entry := rfl
@[simp] theorem txByte_nvmBusy (b : Byte) (s : State) : (txByte b s).nvmBusy = s.nvmBusy := rfl
@[simp] theorem txByte_nvmPending (b : Byte) (s : State) : (txByte b s).nvmPending = s.nvmPending := rfl
@[simp] theorem txByte_nvmStage (b : Byte) (s : State) : (txByte b s).nvmStage = s.nvmStage := rfl
@[simp] theorem txByte_mem (b : Byte) (s : State) : (txByte b s).mem = s.mem := rfl
@[simp] theorem txByte_rxq (b : Byte) (s : State) : (txByte b s).rxq = s.rxq := rfl
@[simp] theorem txByte_txq (b : Byte) (s : State) : (txByte b s).txq = s.txq ++ [b] := rfl
@[simp] theorem txByte_wireOut (b : Byte) (s : State) : (txByte b s).wireOut = s.wireOut := rfl
@[simp] theorem txByte_hostRead (b : Byte) (s : State) : (txByte b s).hostRead = s.hostRead := rfl
@[simp] theorem txByte_de (b : Byte) (s : State) : (txByte b s).de = s.de := rfl
@[simp] theorem txByte_rxdis (b : Byte) (s : State) : (txByte b s).rxdis = s.rxdis := rfl
@[simp] theorem txByte_tcnt (b : Byte) (s : State) : (txByte b s).tcnt = s.tcnt := rfl
@[simp] theorem txByte_trun (b : Byte) (s : State) : (txByte b s).trun = s.trun := rfl
@[simp] theorem txByte_gie (b : Byte) (s : State) : (txByte b s).gie = s.gie := rfl
@[simp] theorem txByte_ivsel (b : Byte) (s : State) : (txByte b s).ivsel = s.ivsel := rfl
@[simp] theorem txByte_extaddr (b : Byte) (s : State) : (txByte b s).extaddr = s.extaddr := rfl
@[simp] theorem txByte_unlockArmed (b : Byte) (s : State) : (txByte b s).unlockArmed = s.unlockArmed := rfl
@[simp] theorem txByte_entryLine (b : Byte) (s : State) : (txByte b s).entryLine = s.entryLine := rfl
@[simp] theorem txByte_trace (b : Byte) (s : State) : (txByte b s).trace = s.trace ++ [.txq b] := rfl
@[simp] theorem txByte_sched (b : Byte) (s : State) : (txByte b s).sched = s.sched := rfl
@[simp] theorem txByte_tape (b : Byte) (s : State) : (txByte b s).tape = s.tape := rfl
@[simp] theorem txByte_draws (b : Byte) (s : State) : (txByte b s).draws = s.draws := rfl

/-! ### `setDE` -/

@[simp] theorem setDE_cfg (v : Bool) (s : State) : (setDE v s).cfg = s.cfg := rfl
@[simp] theorem setDE_seq (v : Bool) (s : State) : (setDE v s).seq = s.seq := rfl
@[simp] theorem setDE_todo (v : Bool) (s : State) : (setDE v s).todo = s.todo := rfl
@[simp] theorem setDE_op (v : Bool) (s : State) : (setDE v s).op = s.op := rfl
@[simp] theorem setDE_idx (v : Bool) (s : State) : (setDE v s).idx = s.idx := rfl
@[simp] theorem setDE_idxHi (v : Bool) (s : State) : (setDE v s).idxHi = s.idxHi := rfl
@[simp] theorem setDE_cnt (v : Bool) (s : State) : (setDE v s).cnt = s.cnt := rfl
@[simp] theorem setDE_data (v : Bool) (s : State) : (setDE v s).data = s.data := rfl
@[simp] theorem setDE_buf (v : Bool) (s : State) : (setDE v s).buf = s.buf := rfl
@[simp] theorem setDE_entry (v : Bool) (s : State) : (setDE v s).entry = s.entry := rfl
@[simp] theorem setDE_nvmBusy (v : Bool) (s : State) : (setDE v s).nvmBusy = s.nvmBusy := rfl
@[simp] theorem setDE_nvmPending (v : Bool) (s : State) : (setDE v s).nvmPending = s.nvmPending := rfl
@[simp] theorem setDE_nvmStage (v : Bool) (s : State) : (setDE v s).nvmStage = s.nvmStage := rfl
@[simp] theorem setDE_mem (v : Bool) (s : State) : (setDE v s).mem = s.mem := rfl
@[simp] theorem setDE_rxq (v : Bool) (s : State) : (setDE v s).rxq = s.rxq := rfl
@[simp] theorem setDE_txq (v : Bool) (s : State) : (setDE v s).txq = s.txq := rfl
@[simp] theorem setDE_wireOut (v : Bool) (s : State) : (setDE v s).wireOut = s.wireOut := rfl
@[simp] theorem setDE_hostRead (v : Bool) (s : State) : (setDE v s).hostRead = s.hostRead := rfl
@[simp] theorem setDE_de (v : Bool) (s : State) : (setDE v s).de = v := rfl
@[simp] theorem setDE_rxdis (v : Bool) (s : State) : (setDE v s).rxdis = s.rxdis := rfl
@[simp] theorem setDE_tcnt (v : Bool) (s : State) : (setDE v s).tcnt = s.tcnt := rfl
@[simp] theorem setDE_trun (v : Bool) (s : State) : (setDE v s).trun = s.trun := rfl
@[simp] theorem setDE_gie (v : Bool) (s : State) : (setDE v s).gie = s.gie := rfl
@[simp] theorem setDE_ivsel (v : Bool) (s : State) : (setDE v s).ivsel = s.ivsel := rfl
@[simp] theorem setDE_extaddr (v : Bool) (s : State) : (setDE v s).extaddr = s.extaddr := rfl
@[simp] theorem setDE_unlockArmed (v : Bool) (s : State) : (setDE v s).unlockArmed = s.unlockArmed := rfl
@[simp] theorem setDE_entryLine (v : Bool) (s : State) : (setDE v s).entryLine = s.entryLine := rfl
@[simp] theorem setDE_trace (v : Bool) (s : State) : (setDE v s).trace = s.trace ++ [.de v] := rfl
@[simp] theorem setDE_sched (v : Bool) (s : State) : (setDE v s).sched = s.sched := rfl
@[simp] theorem setDE_tape (v : Bool) (s : State) : (setDE v s).tape = s.tape := rfl
@[simp] theorem setDE_draws (v : Bool) (s : State) : (setDE v s).draws = s.draws := rfl

/-! ### `setRxDis` -/

@[simp] theorem setRxDis_cfg (v : Bool) (s : State) : (setRxDis v s).cfg = s.cfg := rfl
@[simp] theorem setRxDis_seq (v : Bool) (s : State) : (setRxDis v s).seq = s.seq := rfl
@[simp] theorem setRxDis_todo (v : Bool) (s : State) : (setRxDis v s).todo = s.todo := rfl
@[simp] theorem setRxDis_op (v : Bool) (s : State) : (setRxDis v s).op = s.op := rfl
@[simp] theorem setRxDis_idx (v : Bool) (s : State) : (setRxDis v s).idx = s.idx := rfl
@[simp] theorem setRxDis_idxHi (v : Bool) (s : State) : (setRxDis v s).idxHi = s.idxHi := rfl
@[simp] theorem setRxDis_cnt (v : Bool) (s : State) : (setRxDis v s).cnt = s.cnt := rfl
@[simp] theorem setRxDis_data (v : Bool) (s : State) : (setRxDis v s).data = s.data := rfl
@[simp] theorem setRxDis_buf (v : Bool) (s : State) : (setRxDis v s).buf = s.buf := rfl
@[simp] theorem setRxDis_entry (v : Bool) (s : State) : (setRxDis v s).entry = s.entry := rfl
@[simp] theorem setRxDis_nvmBusy (v : Bool) (s : State) : (setRxDis v s).nvmBusy = s.nvmBusy := rfl
@[simp] theorem setRxDis_nvmPending (v : Bool) (s : State) : (setRxDis v s).nvmPending = s.nvmPending := rfl
@[simp] theorem setRxDis_nvmStage (v : Bool) (s : State) : (setRxDis v s).nvmStage = s.nvmStage := rfl
@[simp] theorem setRxDis_mem (v : Bool) (s : State) : (setRxDis v s).mem = s.mem := rfl
@[simp] theorem setRxDis_rxq (v : Bool) (s : State) : (setRxDis v s).rxq = s.rxq := rfl
@[simp] theorem setRxDis_txq (v : Bool) (s : State) : (setRxDis v s).txq = s.txq := rfl
@[simp] theorem setRxDis_wireOut (v : Bool) (s : State) : (setRxDis v s).wireOut = s.wireOut := rfl
@[simp] theorem setRxDis_hostRead (v : Bool) (s : State) : (setRxDis v s).hostRead = s.hostRead := rfl
@[simp] theorem setRxDis_de (v : Bool) (s : State) : (setRxDis v s).de = s.de := rfl
@[simp] theorem setRxDis_rxdis (v : Bool) (s : State) : (setRxDis v s).rxdis = v := rfl
@[simp] theorem setRxDis_tcnt (v : Bool) (s : State) : (setRxDis v s).tcnt = s.tcnt := rfl
@[simp] theorem setRxDis_trun (v : Bool) (s : State) : (setRxDis v s).trun = s.trun := rfl
@[simp] theorem setRxDis_gie (v : Bool) (s : State) : (setRxDis v s).gie = s.gie := rfl
@[simp] theorem setRxDis_ivsel (v : Bool) (s : State) : (setRxDis v s).ivsel = s.ivsel := rfl
@[simp] theorem setRxDis_extaddr (v : Bool) (s : State) : (setRxDis v s).extaddr = s.extaddr := rfl
@[simp] theorem setRxDis_unlockArmed (v : Bool) (s : State) : (setRxDis v s).unlockArmed = s.unlockArmed := rfl
@[simp] theorem setRxDis_entryLine (v : Bool) (s : State) : (setRxDis v s).entryLine = s.entryLine := rfl
@[simp] theorem setRxDis_trace (v : Bool) (s : State) : (setRxDis v s).trace = s.trace ++ [.rxdis v] := rfl
@[simp] theorem setRxDis_sched (v : Bool) (s : State) : (setRxDis v s).sched = s.sched := rfl
@[simp] theorem setRxDis_tape (v : Bool) (s : State) : (setRxDis v s).tape = s.tape := rfl
@[simp] theorem setRxDis_draws (v : Bool) (s : State) : (setRxDis v s).draws = s.draws := rfl

/-! ### `rxPoll` -/

@[simp] theorem rxPoll_cfg (s : State) : (rxPoll s).cfg = s.cfg := rfl
@[simp] theorem rxPoll_seq (s : State) : (rxPoll s).seq = s.seq := rfl
@[simp] theorem rxPoll_todo (s : State) : (rxPoll s).todo = s.todo := rfl
@[simp] theorem rxPoll_op (s : State) : (rxPoll s).op = s.op := rfl
@[simp] theorem rxPoll_idx (s : State) : (rxPoll s).idx = s.idx := rfl
@[simp] theorem rxPoll_idxHi (s : State) : (rxPoll s).idxHi = s.idxHi := rfl
@[simp] theorem rxPoll_cnt (s : State) : (rxPoll s).cnt = s.cnt := rfl
@[simp] theorem rxPoll_data (s : State) : (rxPoll s).data = s.data := rfl
@[simp] theorem rxPoll_buf (s : State) : (rxPoll s).buf = s.buf := rfl
@[simp] theorem rxPoll_entry (s : State) : (rxPoll s).entry = s.entry := rfl
@[simp] theorem rxPoll_nvmBusy (s : State) : (rxPoll s).nvmBusy = s.nvmBusy := rfl
@[simp] theorem rxPoll_nvmPending (s : State) : (rxPoll s).nvmPending = s.nvmPending := rfl
@[simp] theorem rxPoll_nvmStage (s : State) : (rxPoll s).nvmStage = s.nvmStage := rfl
@[simp] theorem rxPoll_mem (s : State) : (rxPoll s).mem = s.mem := rfl
@[simp] theorem rxPoll_rxq (s : State) : (rxPoll s).rxq = s.rxq.tail := rfl
@[simp] theorem rxPoll_txq (s : State) : (rxPoll s).txq = s.txq := rfl
@[simp] theorem rxPoll_wireOut (s : State) : (rxPoll s).wireOut = s.wireOut := rfl
@[simp] theorem rxPoll_hostRead (s : State) : (rxPoll s).hostRead = s.hostRead := rfl
@[simp] theorem rxPoll_de (s : State) : (rxPoll s).de = s.de := rfl
@[simp] theorem rxPoll_rxdis (s : State) : (rxPoll s).rxdis = s.rxdis := rfl
@[simp] theorem rxPoll_tcnt (s : State) : (rxPoll s).tcnt = s.tcnt := rfl
@[simp] theorem rxPoll_trun (s : State) : (rxPoll s).trun = s.trun := rfl
@[simp] theorem rxPoll_gie (s : State) : (rxPoll s).gie = s.gie := rfl
@[simp] theorem rxPoll_ivsel (s : State) : (rxPoll s).ivsel = s.ivsel := rfl
@[simp] theorem rxPoll_extaddr (s : State) : (rxPoll s).extaddr = s.extaddr := rfl
@[simp] theorem rxPoll_unlockArmed (s : State) : (rxPoll s).unlockArmed = s.unlockArmed := rfl
@[simp] theorem rxPoll_entryLine (s : State) : (rxPoll s).entryLine = s.entryLine := rfl
@[simp] theorem rxPoll_trace (s : State) : (rxPoll s).trace = s.trace ++ s.rxq.head?.toList.map .rx := rfl
@[simp] theorem rxPoll_sched (s : State) : (rxPoll s).sched = s.sched := rfl
@[simp] theorem rxPoll_tape (s : State) : (rxPoll s).tape = s.tape := rfl
@[simp] theorem rxPoll_draws (s : State) : (rxPoll s).draws = s.draws := rfl

/-! ### `drain` -/

@[simp] theorem drain_cfg (s : State) : (drain s).cfg = s.cfg := rfl
@[simp] theorem drain_seq (s : State) : (drain s).seq = s.seq := rfl
@[simp] theorem drain_todo (s : State) : (drain s).todo = s.todo := rfl
@[simp] theorem drain_op (s : State) : (drain s).op = s.op := rfl
@[simp] theorem drain_idx (s : State) : (drain s).idx = s.idx := rfl
@[simp] theorem drain_idxHi (s : State) : (drain s).idxHi = s.idxHi := rfl
@[simp] theorem drain_cnt (s : State) : (drain s).cnt = s.cnt := rfl
@[simp] theorem drain_data (s : State) : (drain s).data = s.data := rfl
@[simp] theorem drain_buf (s : State) : (drain s).buf = s.buf := rfl
@[simp] theorem drain_entry (s : State) : (drain s).entry = s.entry := rfl
@[simp] theorem drain_nvmBusy (s : State) : (drain s).nvmBusy = s.nvmBusy := rfl
@[simp] theorem drain_nvmPending (s : State) : (drain s).nvmPending = s.nvmPending := rfl
@[simp] theorem drain_nvmStage (s : State) : (drain s).nvmStage = s.nvmStage := rfl
@[simp] theorem drain_mem (s : State) : (drain s).mem = s.mem := rfl
@[simp] theorem drain_rxq (s : State) : (drain s).rxq = s.rxq := rfl
@[simp] theorem drain_txq (s : State) : (drain s).txq = [] := rfl
@[simp] theorem drain_wireOut (s : State) : (drain s).wireOut = s.wireOut ++ s.txq := rfl
@[simp] theorem drain_hostRead (s : State) : (drain s).hostRead = s.hostRead := rfl
@[simp] theorem drain_de (s : State) : (drain s).de = s.de := rfl
@[simp] theorem drain_rxdis (s : State) : (drain s).rxdis = s.rxdis := rfl
@[simp] theorem drain_tcnt (s : State) : (drain s).tcnt = s.tcnt := rfl
@[simp] theorem drain_trun (s : State) : (drain s).trun = s.trun := rfl
@[simp] theorem drain_gie (s : State) : (drain s).gie = s.gie := rfl
@[simp] theorem drain_ivsel (s : State) : (drain s).ivsel = s.ivsel := rfl
@[simp] theorem drain_extaddr (s : State) : (drain s).extaddr = s.extaddr := rfl
@[simp] theorem drain_unlockArmed (s : State) : (drain s).unlockArmed = s.unlockArmed := rfl
@[simp] theorem drain_entryLine (s : State) : (drain s).entryLine = s.entryLine := rfl
@[simp] theorem drain_trace (s : State) : (drain s).trace = s.trace ++ s.txq.map .tx := rfl
@[simp] theorem drain_sched (s : State) : (drain s).sched = s.sched := rfl
@[simp] theorem drain_tape (s : State) : (drain s).tape = s.tape := rfl
@[simp] theorem drain_draws (s : State) : (drain s).draws = s.draws := rfl

/-! ### `nvmIssue` -/

@[simp] theorem nvmIssue_cfg (c : NvmCmd) (s : State) : (nvmIssue c s).cfg = s.cfg := rfl
@[simp] theorem nvmIssue_seq (c : NvmCmd) (s : State) : (nvmIssue c s).seq = s.seq := rfl
@[simp] theorem nvmIssue_todo (c : NvmCmd) (s : State) : (nvmIssue c s).todo = s.todo := rfl
@[simp] theorem nvmIssue_op (c : NvmCmd) (s : State) : (nvmIssue c s).op = s.op := rfl
@[simp] theorem nvmIssue_idx (c : NvmCmd) (s : State) : (nvmIssue c s).idx = s.idx := rfl
@[simp] theorem nvmIssue_idxHi (c : NvmCmd) (s : State) : (nvmIssue c s).idxHi = s.idxHi := rfl
@[simp] theorem nvmIssue_cnt (c : NvmCmd) (s : State) : (nvmIssue c s).cnt = s.cnt := rfl
@[simp] theorem nvmIssue_data (c : NvmCmd) (s : State) : (nvmIssue c s).data = s.data := rfl
@[simp] theorem nvmIssue_buf (c : NvmCmd) (s : State) : (nvmIssue c s).buf = s.buf := rfl
@[simp] theorem nvmIssue_entry (c : NvmCmd) (s : State) : (nvmIssue c s).entry = s.entry := rfl
@[simp] theorem nvmIssue_nvmBusy (c : NvmCmd) (s : State) : (nvmIssue c s).nvmBusy = true := rfl
@[simp] theorem nvmIssue_nvmPending (c : NvmCmd) (s : State) : (nvmIssue c s).nvmPending = some c := rfl
@[simp] theorem nvmIssue_nvmStage (c : NvmCmd) (s : State) : (nvmIssue c s).nvmStage = s.nvmStage := rfl
@[simp] theorem nvmIssue_mem (c : NvmCmd) (s : State) : (nvmIssue c s).mem = s.mem := rfl
@[simp] theorem nvmIssue_rxq (c : NvmCmd) (s : State) : (nvmIssue c s).rxq = s.rxq := rfl
@[simp] theorem nvmIssue_txq (c : NvmCmd) (s : State) : (nvmIssue c s).txq = s.txq := rfl
@[simp] theorem nvmIssue_wireOut (c : NvmCmd) (s : State) : (nvmIssue c s).wireOut = s.wireOut := rfl
@[simp] theorem nvmIssue_hostRead (c : NvmCmd) (s : State) : (nvmIssue c s).hostRead = s.hostRead := rfl
@[simp] theorem nvmIssue_de (c : NvmCmd) (s : State) : (nvmIssue c s).de = s.de := rfl
@[simp] theorem nvmIssue_rxdis (c : NvmCmd) (s : State) : (nvmIssue c s).rxdis = s.rxdis := rfl
@[simp] theorem nvmIssue_tcnt (c : NvmCmd) (s : State) : (nvmIssue c s).tcnt = s.tcnt := rfl
@[simp] theorem nvmIssue_trun (c : NvmCmd) (s : State) : (nvmIssue c s).trun = s.trun := rfl
@[simp] theorem nvmIssue_gie (c : NvmCmd) (s : State) : (nvmIssue c s).gie = s.gie := rfl
@[simp] theorem nvmIssue_ivsel (c : NvmCmd) (s : State) : (nvmIssue c s).ivsel = s.ivsel := rfl
@[simp] theorem nvmIssue_extaddr (c : NvmCmd) (s : State) : (nvmIssue c s).extaddr = s.extaddr := rfl
@[simp] theorem nvmIssue_unlockArmed (c : NvmCmd) (s : State) : (nvmIssue c s).unlockArmed = s.unlockArmed := rfl
@[simp] theorem nvmIssue_entryLine (c : NvmCmd) (s : State) : (nvmIssue c s).entryLine = s.entryLine := rfl
@[simp] theorem nvmIssue_trace (c : NvmCmd) (s : State) : (nvmIssue c s).trace = s.trace ++ [.issue c] := rfl
@[simp] theorem nvmIssue_sched (c : NvmCmd) (s : State) : (nvmIssue c s).sched = s.sched := rfl
@[simp] theorem nvmIssue_tape (c : NvmCmd) (s : State) : (nvmIssue c s).tape = s.tape := rfl
@[simp] theorem nvmIssue_draws (c : NvmCmd) (s : State) : (nvmIssue c s).draws = s.draws := rfl

/-! ### `stageByte` -/

@[simp] theorem stageByte_cfg (k : Nat) (v : Byte) (s : State) : (stageByte k v s).cfg = s.cfg := rfl
@[simp] theorem stageByte_seq (k : Nat) (v : Byte) (s : State) : (stageByte k v s).seq = s.seq := rfl
@[simp] theorem stageByte_todo (k : Nat) (v : Byte) (s : State) : (stageByte k v s).todo = s.todo := rfl
@[simp] theorem stageByte_op (k : Nat) (v : Byte) (s : State) : (stageByte k v s).op = s.op := rfl
@[simp] theorem stageByte_idx (k : Nat) (v : Byte) (s : State) : (stageByte k v s).idx = s.idx := rfl
@[simp] theorem stageByte_idxHi (k : Nat) (v : Byte) (s : State) : (stageByte k v s).idxHi = s.idxHi := rfl
@[simp] theorem stageByte_cnt (k : Nat) (v : Byte) (s : State) : (stageByte k v s).cnt = s.cnt := rfl
@[simp] theorem stageByte_data (k : Nat) (v : Byte) (s : State) : (stageByte k v s).data = s.data := rfl
@[simp] theorem stageByte_buf (k : Nat) (v : Byte) (s : State) : (stageByte k v s).buf = s.buf := rfl
@[simp] theorem stageByte_entry (k : Nat) (v : Byte) (s : State) : (stageByte k v s).entry = s.entry := rfl
@[simp] theorem stageByte_nvmBusy (k : Nat) (v : Byte) (s : State) : (stageByte k v s).nvmBusy = s.nvmBusy := rfl
@[simp] theorem stageByte_nvmPending (k : Nat) (v : Byte) (s : State) : (stageByte k v s).nvmPending = s.nvmPending := rfl
@[simp] theorem stageByte_nvmStage (k : Nat) (v : Byte) (s : State) : (stageByte k v s).nvmStage = Cells.set s.nvmStage k v := rfl
@[simp] theorem stageByte_mem (k : Nat) (v : Byte) (s : State) : (stageByte k v s).mem = s.mem := rfl
@[simp] theorem stageByte_rxq (k : Nat) (v : Byte) (s : State) : (stageByte k v s).rxq = s.rxq := rfl
@[simp] theorem stageByte_txq (k : Nat) (v : Byte) (s : State) : (stageByte k v s).txq = s.txq := rfl
@[simp] theorem stageByte_wireOut (k : Nat) (v : Byte) (s : State) : (stageByte k v s).wireOut = s.wireOut := rfl
@[simp] theorem stageByte_hostRead (k : Nat) (v : Byte) (s : State) : (stageByte k v s).hostRead = s.hostRead := rfl
@[simp] theorem stageByte_de (k : Nat) (v : Byte) (s : State) : (stageByte k v s).de = s.de := rfl
@[simp] theorem stageByte_rxdis (k : Nat) (v : Byte) (s : State) : (stageByte k v s).rxdis = s.rxdis := rfl
@[simp] theorem stageByte_tcnt (k : Nat) (v : Byte) (s : State) : (stageByte k v s).tcnt = s.tcnt := rfl
@[simp] theorem stageByte_trun (k : Nat) (v : Byte) (s : State) : (stageByte k v s).trun = s.trun := rfl
@[simp] theorem stageByte_gie (k : Nat) (v : Byte) (s : State) : (stageByte k v s).gie = s.gie := rfl
@[simp] theorem stageByte_ivsel (k : Nat) (v : Byte) (s : State) : (stageByte k v s).ivsel = s.ivsel := rfl
@[simp] theorem stageByte_extaddr (k : Nat) (v : Byte) (s : State) : (stageByte k v s).extaddr = s.extaddr := rfl
@[simp] theorem stageByte_unlockArmed (k : Nat) (v : Byte) (s : State) : (stageByte k v s).unlockArmed = s.unlockArmed := rfl
@[simp] theorem stageByte_entryLine (k : Nat) (v : Byte) (s : State) : (stageByte k v s).entryLine = s.entryLine := rfl
@[simp] theorem stageByte_trace (k : Nat) (v : Byte) (s : State) : (stageByte k v s).trace = s.trace ++ [.stage k v] := rfl
@[simp] theorem stageByte_sched (k : Nat) (v : Byte) (s : State) : (stageByte k v s).sched = s.sched := rfl
@[simp] theorem stageByte_tape (k : Nat) (v : Byte) (s : State) : (stageByte k v s).tape = s.tape := rfl
@[simp] theorem stageByte_draws (k : Nat) (v : Byte) (s : State) : (stageByte k v s).draws = s.draws := rfl

/-! ### `timerStart` -/

@[simp] theorem timerStart_cfg (s : State) : (timerStart s).cfg = s.cfg := rfl
@[simp] theorem timerStart_seq (s : State) : (timerStart s).seq = s.seq := rfl
@[simp] theorem timerStart_todo (s : State) : (timerStart s).todo = s.todo := rfl
@[simp] theorem timerStart_op (s : State) : (timerStart s).op = s.op := rfl
@[simp] theorem timerStart_idx (s : State) : (timerStart s).idx = s.idx := rfl
@[simp] theorem timerStart_idxHi (s : State) : (timerStart s).idxHi = s.idxHi := rfl
@[simp] theorem timerStart_cnt (s : State) : (timerStart s).cnt = s.cnt := rfl
@[simp] theorem timerStart_data (s : State) : (timerStart s).data = s.data := rfl
@[simp] theorem timerStart_buf (s : State) : (timerStart s).buf = s.buf := rfl
@[simp] theorem timerStart_entry (s : State) : (timerStart s).entry = s.entry := rfl
@[simp] theorem timerStart_nvmBusy (s : State) : (timerStart s).nvmBusy = s.nvmBusy := rfl
@[simp] theorem timerStart_nvmPending (s : State) : (timerStart s).nvmPending = s.nvmPending := rfl
@[simp] theorem timerStart_nvmStage (s : State) : (timerStart s).nvmStage = s.nvmStage := rfl
@[simp] theorem timerStart_mem (s : State) : (timerStart s).mem = s.mem := rfl
@[simp] theorem timerStart_rxq (s : State) : (timerStart s).rxq = s.rxq := rfl
@[simp] theorem timerStart_txq (s : State) : (timerStart s).txq = s.txq := rfl
@[simp] theorem timerStart_wireOut (s : State) : (timerStart s).wireOut = s.wireOut := rfl
@[simp] theorem timerStart_hostRead (s : State) : (timerStart s).hostRead = s.hostRead := rfl
@[simp] theorem timerStart_de (s : State) : (timerStart s).de = s.de := rfl
@[simp] theorem timerStart_rxdis (s : State) : (timerStart s).rxdis = s.rxdis := rfl
@[simp] theorem timerStart_tcnt (s : State) : (timerStart s).tcnt = 0 := rfl
@[simp] theorem timerStart_trun (s : State) : (timerStart s).trun = true := rfl
@[simp] theorem timerStart_gie (s : State) : (timerStart s).gie = s.gie := rfl
@[simp] theorem timerStart_ivsel (s : State) : (timerStart s).ivsel = s.ivsel := rfl
@[simp] theorem timerStart_extaddr (s : State) : (timerStart s).extaddr = s.extaddr := rfl
@[simp] theorem timerStart_unlockArmed (s : State) : (timerStart s).unlockArmed = s.unlockArmed := rfl
@[simp] theorem timerStart_entryLine (s : State) : (timerStart s).entryLine = s.entryLine := rfl
@[simp] theorem timerStart_trace (s : State) : (timerStart s).trace = s.trace ++ [.timerStart] := rfl
@[simp] theorem timerStart_sched (s : State) : (timerStart s).sched = s.sched := rfl
@[simp] theorem timerStart_tape (s : State) : (timerStart s).tape = s.tape := rfl
@[simp] theorem timerStart_draws (s : State) : (timerStart s).draws = s.draws := rfl

/-! ### `timerStop` -/

@[simp] theorem timerStop_cfg (s : State) : (timerStop s).cfg = s.cfg := rfl
@[simp] theorem timerStop_seq (s : State) : (timerStop s).seq = s.seq := rfl
@[simp] theorem timerStop_todo (s : State) : (timerStop s).todo = s.todo := rfl
@[simp] theorem timerStop_op (s : State) : (timerStop s).op = s.op := rfl
@[simp] theorem timerStop_idx (s : State) : (timerStop s).idx = s.idx := rfl
@[simp] theorem timerStop_idxHi (s : State) : (timerStop s).idxHi = s.idxHi := rfl
@[simp] theorem timerStop_cnt (s : State) : (timerStop s).cnt = s.cnt := rfl
@[simp] theorem timerStop_data (s : State) : (timerStop s).data = s.data := rfl
@[simp] theorem timerStop_buf (s : State) : (timerStop s).buf = s.buf := rfl
@[simp] theorem timerStop_entry (s : State) : (timerStop s).entry = s.entry := rfl
@[simp] theorem timerStop_nvmBusy (s : State) : (timerStop s).nvmBusy = s.nvmBusy := rfl
@[simp] theorem timerStop_nvmPending (s : State) : (timerStop s).nvmPending = s.nvmPending := rfl
@[simp] theorem timerStop_nvmStage (s : State) : (timerStop s).nvmStage = s.nvmStage := rfl
@[simp] theorem timerStop_mem (s : State) : (timerStop s).mem = s.mem := rfl
@[simp] theorem timerStop_rxq (s : State) : (timerStop s).rxq = s.rxq := rfl
@[simp] theorem timerStop_txq (s : State) : (timerStop s).txq = s.txq := rfl
@[simp] theorem timerStop_wireOut (s : State) : (timerStop s).wireOut = s.wireOut := rfl
@[simp] theorem timerStop_hostRead (s : State) : (timerStop s).hostRead = s.hostRead := rfl
@[simp] theorem timerStop_de (s : State) : (timerStop s).de = s.de := rfl
@[simp] theorem timerStop_rxdis (s : State) : (timerStop s).rxdis = s.rxdis := rfl
@[simp] theorem timerStop_tcnt (s : State) : (timerStop s).tcnt = s.tcnt := rfl
@[simp] theorem timerStop_trun (s : State) : (timerStop s).trun = false := rfl
@[simp] theorem timerStop_gie (s : State) : (timerStop s).gie = s.gie := rfl
@[simp] theorem timerStop_ivsel (s : State) : (timerStop s).ivsel = s.ivsel := rfl
@[simp] theorem timerStop_extaddr (s : State) : (timerStop s).extaddr = s.extaddr := rfl
@[simp] theorem timerStop_unlockArmed (s : State) : (timerStop s).unlockArmed = s.unlockArmed := rfl
@[simp] theorem timerStop_entryLine (s : State) : (timerStop s).entryLine = s.entryLine := rfl
@[simp] theorem timerStop_trace (s : State) : (timerStop s).trace = s.trace ++ [.timerStop] := rfl
@[simp] theorem timerStop_sched (s : State) : (timerStop s).sched = s.sched := rfl
@[simp] theorem timerStop_tape (s : State) : (timerStop s).tape = s.tape := rfl
@[simp] theorem timerStop_draws (s : State) : (timerStop s).draws = s.draws := rfl

/-! ### `takeIdxHi` -/

@[simp] theorem takeIdxHi_cfg (b : Byte) (rest : List Byte) (s : State) : (takeIdxHi b rest s).cfg = s.cfg := rfl
@[simp] theorem takeIdxHi_seq (b : Byte) (rest : List Byte) (s : State) : (takeIdxHi b rest s).seq = s.seq := rfl
@[simp] theorem takeIdxHi_todo (b : Byte) (rest : List Byte) (s : State) : (takeIdxHi b rest s).todo = s.todo := rfl
@[simp] theorem takeIdxHi_op (b : Byte) (rest : List Byte) (s : State) : (takeIdxHi b rest s).op = s.op := rfl
@[simp] theorem takeIdxHi_idx (b : Byte) (rest : List Byte) (s : State) : (takeIdxHi b rest s).idx = s.idx := rfl
@[simp] theorem takeIdxHi_idxHi (b : Byte) (rest : List Byte) (s : State) : (takeIdxHi b rest s).idxHi = b := rfl
@[simp] theorem takeIdxHi_cnt (b : Byte) (rest : List Byte) (s : State) : (takeIdxHi b rest s).cnt = s.cnt := rfl
@[simp] theorem takeIdxHi_data (b : Byte) (rest : List Byte) (s : State) : (takeIdxHi b rest s).data = s.data := rfl
@[simp] theorem takeIdxHi_buf (b : Byte) (rest : List Byte) (s : State) : (takeIdxHi b rest s).buf = s.buf := rfl
@[simp] theorem takeIdxHi_entry (b : Byte) (rest : List Byte) (s : State) : (takeIdxHi b rest s).entry = s.entry := rfl
@[simp] theorem takeIdxHi_nvmBusy (b : Byte) (rest : List Byte) (s : State) : (takeIdxHi b rest s).nvmBusy = s.nvmBusy := rfl
@[simp] theorem takeIdxHi_nvmPending (b : Byte) (rest : List Byte) (s : State) : (takeIdxHi b rest s).nvmPending = s.nvmPending := rfl
@[simp] theorem takeIdxHi_nvmStage (b : Byte) (rest : List Byte) (s : State) : (takeIdxHi b rest s).nvmStage = s.nvmStage := rfl
@[simp] theorem takeIdxHi_mem (b : Byte) (rest : List Byte) (s : State) : (takeIdxHi b rest s).mem = s.mem := rfl
@[simp] theorem takeIdxHi_rxq (b : Byte) (rest : List Byte) (s : State) : (takeIdxHi b rest s).rxq = rest := rfl
@[simp] theorem takeIdxHi_txq (b : Byte) (rest : List Byte) (s : State) : (takeIdxHi b rest s).txq = s.txq := rfl
@[simp] theorem takeIdxHi_wireOut (b : Byte) (rest : List Byte) (s : State) : (takeIdxHi b rest s).wireOut = s.wireOut := rfl
@[simp] theorem takeIdxHi_hostRead (b : Byte) (rest : List Byte) (s : State) : (takeIdxHi b rest s).hostRead = s.hostRead := rfl
@[simp] theorem takeIdxHi_de (b : Byte) (rest : List Byte) (s : State) : (takeIdxHi b rest s).de = s.de := rfl
@[simp] theorem takeIdxHi_rxdis (b : Byte) (rest : List Byte) (s : State) : (takeIdxHi b rest s).rxdis = s.rxdis := rfl
@[simp] theorem takeIdxHi_tcnt (b : Byte) (rest : List Byte) (s : State) : (takeIdxHi b rest s).tcnt = s.tcnt := rfl
@[simp] theorem takeIdxHi_trun (b : Byte) (rest : List Byte) (s : State) : (takeIdxHi b rest s).trun = s.trun := rfl
@[simp] theorem takeIdxHi_gie (b : Byte) (rest : List Byte) (s : State) : (takeIdxHi b rest s).gie = s.gie := rfl
@[simp] theorem takeIdxHi_ivsel (b : Byte) (rest : List Byte) (s : State) : (takeIdxHi b rest s).ivsel = s.ivsel := rfl
@[simp] theorem takeIdxHi_extaddr (b : Byte) (rest : List Byte) (s : State) : (takeIdxHi b rest s).extaddr = s.extaddr := rfl
@[simp] theorem takeIdxHi_unlockArmed (b : Byte) (rest : List Byte) (s : State) : (takeIdxHi b rest s).unlockArmed = s.unlockArmed := rfl
@[simp] theorem takeIdxHi_entryLine (b : Byte) (rest : List Byte) (s : State) : (takeIdxHi b rest s).entryLine = s.entryLine := rfl
@[simp] theorem takeIdxHi_trace (b : Byte) (rest : List Byte) (s : State) : (takeIdxHi b rest s).trace = s.trace ++ [.rx b] := rfl
@[simp] theorem takeIdxHi_sched (b : Byte) (rest : List Byte) (s : State) : (takeIdxHi b rest s).sched = s.sched := rfl
@[simp] theorem takeIdxHi_tape (b : Byte) (rest : List Byte) (s : State) : (takeIdxHi b rest s).tape = s.tape := rfl
@[simp] theorem takeIdxHi_draws (b : Byte) (rest : List Byte) (s : State) : (takeIdxHi b rest s).draws = s.draws := rfl

/-! ### `takeIdxLo` -/

@[simp] theorem takeIdxLo_cfg (b : Byte) (rest : List Byte) (s : State) : (takeIdxLo b rest s).cfg = s.cfg := rfl
@[simp] theorem takeIdxLo_seq (b : Byte) (rest : List Byte) (s : State) : (takeIdxLo b rest s).seq = s.seq := rfl
@[simp] theorem takeIdxLo_todo (b : Byte) (rest : List Byte) (s : State) : (takeIdxLo b rest s).todo = s.todo := rfl
@[simp] theorem takeIdxLo_op (b : Byte) (rest : List Byte) (s : State) : (takeIdxLo b rest s).op = s.op := rfl
@[simp] theorem takeIdxLo_idx (b : Byte) (rest : List Byte) (s : State) : (takeIdxLo b rest s).idx = indexOf s.idxHi b := rfl
@[simp] theorem takeIdxLo_idxHi (b : Byte) (rest : List Byte) (s : State) : (takeIdxLo b rest s).idxHi = s.idxHi := rfl
@[simp] theorem takeIdxLo_cnt (b : Byte) (rest : List Byte) (s : State) : (takeIdxLo b rest s).cnt = s.cnt := rfl
@[simp] theorem takeIdxLo_data (b : Byte) (rest : List Byte) (s : State) : (takeIdxLo b rest s).data = s.data := rfl
@[simp] theorem takeIdxLo_buf (b : Byte) (rest : List Byte) (s : State) : (takeIdxLo b rest s).buf = s.buf := rfl
@[simp] theorem takeIdxLo_entry (b : Byte) (rest : List Byte) (s : State) : (takeIdxLo b rest s).entry = s.entry := rfl
@[simp] theorem takeIdxLo_nvmBusy (b : Byte) (rest : List Byte) (s : State) : (takeIdxLo b rest s).nvmBusy = s.nvmBusy := rfl
@[simp] theorem takeIdxLo_nvmPending (b : Byte) (rest : List Byte) (s : State) : (takeIdxLo b rest s).nvmPending = s.nvmPending := rfl
@[simp] theorem takeIdxLo_nvmStage (b : Byte) (rest : List Byte) (s : State) : (takeIdxLo b rest s).nvmStage = s.nvmStage := rfl
@[simp] theorem takeIdxLo_mem (b : Byte) (rest : List Byte) (s : State) : (takeIdxLo b rest s).mem = s.mem := rfl
@[simp] theorem takeIdxLo_rxq (b : Byte) (rest : List Byte) (s : State) : (takeIdxLo b rest s).rxq = rest := rfl
@[simp] theorem takeIdxLo_txq (b : Byte) (rest : List Byte) (s : State) : (takeIdxLo b rest s).txq = s.txq := rfl
@[simp] theorem takeIdxLo_wireOut (b : Byte) (rest : List Byte) (s : State) : (takeIdxLo b rest s).wireOut = s.wireOut := rfl
@[simp] theorem takeIdxLo_hostRead (b : Byte) (rest : List Byte) (s : State) : (takeIdxLo b rest s).hostRead = s.hostRead := rfl
@[simp] theorem takeIdxLo_de (b : Byte) (rest : List Byte) (s : State) : (takeIdxLo b rest s).de = s.de := rfl
@[simp] theorem takeIdxLo_rxdis (b : Byte) (rest : List Byte) (s : State) : (takeIdxLo b rest s).rxdis = s.rxdis := rfl
@[simp] theorem takeIdxLo_tcnt (b : Byte) (rest : List Byte) (s : State) : (takeIdxLo b rest s).tcnt = s.tcnt := rfl
@[simp] theorem takeIdxLo_trun (b : Byte) (rest : List Byte) (s : State) : (takeIdxLo b rest s).trun = s.trun := rfl
@[simp] theorem takeIdxLo_gie (b : Byte) (rest : List Byte) (s : State) : (takeIdxLo b rest s).gie = s.gie := rfl
@[simp] theorem takeIdxLo_ivsel (b : Byte) (rest : List Byte) (s : State) : (takeIdxLo b rest s).ivsel = s.ivsel := rfl
@[simp] theorem takeIdxLo_extaddr (b : Byte) (rest : List Byte) (s : State) : (takeIdxLo b rest s).extaddr = s.extaddr := rfl
@[simp] theorem takeIdxLo_unlockArmed (b : Byte) (rest : List Byte) (s : State) : (takeIdxLo b rest s).unlockArmed = s.unlockArmed := rfl
@[simp] theorem takeIdxLo_entryLine (b : Byte) (rest : List Byte) (s : State) : (takeIdxLo b rest s).entryLine = s.entryLine := rfl
@[simp] theorem takeIdxLo_trace (b : Byte) (rest : List Byte) (s : State) : (takeIdxLo b rest s).trace = s.trace ++ [.rx b] := rfl
@[simp] theorem takeIdxLo_sched (b : Byte) (rest : List Byte) (s : State) : (takeIdxLo b rest s).sched = s.sched := rfl
@[simp] theorem takeIdxLo_tape (b : Byte) (rest : List Byte) (s : State) : (takeIdxLo b rest s).tape = s.tape := rfl
@[simp] theorem takeIdxLo_draws (b : Byte) (rest : List Byte) (s : State) : (takeIdxLo b rest s).draws = s.draws := rfl

/-! ### `takePayload` -/

@[simp] theorem takePayload_cfg (b : Byte) (rest : List Byte) (s : State) : (takePayload b rest s).cfg = s.cfg := rfl
@[simp] theorem takePayload_seq (b : Byte) (rest : List Byte) (s : State) : (takePayload b rest s).seq = s.seq := rfl
@[simp] theorem takePayload_todo (b : Byte) (rest : List Byte) (s : State) : (takePayload b rest s).todo = s.todo := rfl
@[simp] theorem takePayload_op (b : Byte) (rest : List Byte) (s : State) : (takePayload b rest s).op = s.op := rfl
@[simp] theorem takePayload_idx (b : Byte) (rest : List Byte) (s : State) : (takePayload b rest s).idx = s.idx := rfl
@[simp] theorem takePayload_idxHi (b : Byte) (rest : List Byte) (s : State) : (takePayload b rest s).idxHi = s.idxHi := rfl
@[simp] theorem takePayload_cnt (b : Byte) (rest : List Byte) (s : State) : (takePayload b rest s).cnt = s.cnt + 1 := rfl
@[simp] theorem takePayload_data (b : Byte) (rest : List Byte) (s : State) : (takePayload b rest s).data = s.data := rfl
@[simp] theorem takePayload_buf (b : Byte) (rest : List Byte) (s : State) : (takePayload b rest s).buf = s.buf.set s.cnt (some b) := rfl
@[simp] theorem takePayload_entry (b : Byte) (rest : List Byte) (s : State) : (takePayload b rest s).entry = s.entry := rfl
@[simp] theorem takePayload_nvmBusy (b : Byte) (rest : List Byte) (s : State) : (takePayload b rest s).nvmBusy = s.nvmBusy := rfl
@[simp] theorem takePayload_nvmPending (b : Byte) (rest : List Byte) (s : State) : (takePayload b rest s).nvmPending = s.nvmPending := rfl
@[simp] theorem takePayload_nvmStage (b : Byte) (rest : List Byte) (s : State) : (takePayload b rest s).nvmStage = s.nvmStage := rfl
@[simp] theorem takePayload_mem (b : Byte) (rest : List Byte) (s : State) : (takePayload b rest s).mem = s.mem := rfl
@[simp] theorem takePayload_rxq (b : Byte) (rest : List Byte) (s : State) : (takePayload b rest s).rxq = rest := rfl
@[simp] theorem takePayload_txq (b : Byte) (rest : List Byte) (s : State) : (takePayload b rest s).txq = s.txq := rfl
@[simp] theorem takePayload_wireOut (b : Byte) (rest : List Byte) (s : State) : (takePayload b rest s).wireOut = s.wireOut := rfl
@[simp] theorem takePayload_hostRead (b : Byte) (rest : List Byte) (s : State) : (takePayload b rest s).hostRead = s.hostRead := rfl
@[simp] theorem takePayload_de (b : Byte) (rest : List Byte) (s : State) : (takePayload b rest s).de = s.de := rfl
@[simp] theorem takePayload_rxdis (b : Byte) (rest : List Byte) (s : State) : (takePayload b rest s).rxdis = s.rxdis := rfl
@[simp] theorem takePayload_tcnt (b : Byte) (rest : List Byte) (s : State) : (takePayload b rest s).tcnt = s.tcnt := rfl
@[simp] theorem takePayload_trun (b : Byte) (rest : List Byte) (s : State) : (takePayload b rest s).trun = s.trun := rfl
@[simp] theorem takePayload_gie (b : Byte) (rest : List Byte) (s : State) : (takePayload b rest s).gie = s.gie := rfl
@[simp] theorem takePayload_ivsel (b : Byte) (rest : List Byte) (s : State) : (takePayload b rest s).ivsel = s.ivsel := rfl
@[simp] theorem takePayload_extaddr (b : Byte) (rest : List Byte) (s : State) : (takePayload b rest s).extaddr = s.extaddr := rfl
@[simp] theorem takePayload_unlockArmed (b : Byte) (rest : List Byte) (s : State) : (takePayload b rest s).unlockArmed = s.unlockArmed := rfl
@[simp] theorem takePayload_entryLine (b : Byte) (rest : List Byte) (s : State) : (takePayload b rest s).entryLine = s.entryLine := rfl
@[simp] theorem takePayload_trace (b : Byte) (rest : List Byte) (s : State) : (takePayload b rest s).trace = s.trace ++ [.rx b] := rfl
@[simp] theorem takePayload_sched (b : Byte) (rest : List Byte) (s : State) : (takePayload b rest s).sched = s.sched := rfl
@[simp] theorem takePayload_tape (b : Byte) (rest : List Byte) (s : State) : (takePayload b rest s).tape = s.tape := rfl
@[simp] theorem takePayload_draws (b : Byte) (rest : List Byte) (s : State) : (takePayload b rest s).draws = s.draws := rfl

end Sys2Proof.Machine
end

