-- ==== Sys2Proof/Laws/Ops.lean ====
section
/-! SUPPORT. What each shared operation over the draws, the controller and the wire can do, said once. -/

namespace Sys2Proof.Machine

/-! ### Draws -/

/-- A draw touches nothing but the tape and the counter. -/
theorem draw_frame (s : State) : (draw s).2 = s.withDraws (draw s).2.tape (draw s).2.draws := by
  unfold draw
  split <;> rfl

theorem fillDraws_frame (bs : List (Option Byte)) (s : State) :
    (fillDraws bs s).2 = s.withDraws (fillDraws bs s).2.tape (fillDraws bs s).2.draws := by
  induction bs generalizing s with
  | nil => rfl
  | cons b bs ih =>
    cases b with
    | some v => exact ih s
    | none =>
      have h := congrArg
        (fun u => State.withDraws u (fillDraws bs (draw s).2).2.tape (fillDraws bs (draw s).2).2.draws) (draw_frame s)
      exact (ih (draw s).2).trans h

@[simp] theorem length_fillDraws (bs : List (Option Byte)) (s : State) : (fillDraws bs s).1.length = bs.length := by
  induction bs generalizing s with
  | nil => rfl
  | cons b bs ih => cases b <;> simp [fillDraws, ih]

/-- A byte that is given is not drawn. -/
theorem fillDraws_given (bs : List (Option Byte)) (s : State) (k : Nat) (v : Byte) (h : bs[k]? = some (some v)) :
    (fillDraws bs s).1[k]? = some v := by
  induction bs generalizing s k with
  | nil => simp at h
  | cons b bs ih =>
    cases k with
    | zero =>
      simp only [List.getElem?_cons_zero, Option.some.injEq] at h
      subst h
      rfl
    | succ k =>
      rw [List.getElem?_cons_succ] at h
      cases b with
      | some w => exact ih s k h
      | none => exact ih (draw s).2 k h

/-- With every byte given nothing is drawn. -/
theorem fillDraws_all_given (vs : List Byte) (s : State) : fillDraws (vs.map some) s = (vs, s) := by
  induction vs with
  | nil => rfl
  | cons v vs ih => simp [fillDraws, ih]

/-! ### The controller -/

/-- The write of a command's target touches memory, the tape and the counter only. -/
theorem writeTarget_frame (c : NvmCmd) (bs : List (Option Byte)) (s : State) :
    writeTarget c bs s =
      { s.withDraws (fillDraws bs s).2.tape (fillDraws bs s).2.draws with
        mem := s.mem.writeBytes (c.target s.cfg).1 (c.target s.cfg).2.1 (fillDraws bs s).1 } :=
  congrArg (fun u : State =>
    { u with mem := s.mem.writeBytes (c.target s.cfg).1 (c.target s.cfg).2.1 (fillDraws bs s).1 }) (fillDraws_frame bs s)

/-- Completion (45_nvm_primitives.md R218) of the command in flight. -/
theorem nvmComplete_pending (s : State) (c : NvmCmd) (h : s.nvmPending = some c) :
    nvmComplete s =
      { s.withDraws (fillDraws (c.wanted s) s).2.tape (fillDraws (c.wanted s) s).2.draws with
        mem := s.mem.writeBytes (c.target s.cfg).1 (c.target s.cfg).2.1 (fillDraws (c.wanted s) s).1
        nvmStage := []
        nvmPending := none
        nvmBusy := false
        trace := s.trace ++ [.done c] } := by
  unfold nvmComplete
  rw [h]
  simp only [writeTarget_frame]
  rfl

/-- No completion touches anything but memory, the controller, the draws and the trace; afterwards the controller is
idle. -/
theorem nvmComplete_frame (s : State) :
    ∃ m st t n tr, nvmComplete s =
      { s.withDraws t n with
        mem := m, nvmStage := st, nvmPending := none, nvmBusy := false, trace := tr } := by
  cases h : s.nvmPending with
  | none =>
    refine ⟨s.mem, s.nvmStage, s.tape, s.draws, s.trace, ?_⟩
    unfold nvmComplete
    rw [h]
    simp only [State.withDraws, ← h]
  | some c => exact ⟨_, _, _, _, _, nvmComplete_pending s c h⟩

/-- The target of a command that names a page of its region lies in the region (20_memory.md R63, 00_scope.md R8). -/
theorem NvmCmd.target_inside (c : Config) (x : NvmCmd) (hw : c.wf = true) (h : x.inRange c = true) :
    (x.target c).2.1 + (x.target c).2.2 ≤ c.size (x.target c).1 := by
  have page_fits : ∀ (r : Region) (p : Nat), p < c.pageCount r → pageOffset c r p + c.page r ≤ c.size r := by
    intro r p hp
    have h1 : (p + 1) * c.page r ≤ c.pageCount r * c.page r := Nat.mul_le_mul_right _ hp
    have h2 : c.pageCount r * c.page r ≤ c.size r := Nat.div_mul_le_self _ _
    unfold pageOffset
    calc p * c.page r + c.page r = (p + 1) * c.page r := by ring
      _ ≤ _ := le_trans h1 h2
  have hrow : c.size .us = c.page .us := by
    simp only [Config.wf, Bool.and_eq_true, Config.rowOk, decide_eq_true_eq] at hw
    tauto
  cases x <;> simp only [NvmCmd.target, NvmCmd.inRange, decide_eq_true_eq] at h ⊢ <;>
    first
    | exact page_fits _ _ h
    | omega

theorem NvmCmd.length_wanted (s : State) (x : NvmCmd) (hw : s.cfg.wf = true) :
    (x.wanted s).length = (x.target s.cfg).2.2 := by
  have hrow : s.cfg.size .us = s.cfg.page .us := by
    simp only [Config.wf, Bool.and_eq_true, Config.rowOk, decide_eq_true_eq] at hw
    tauto
  cases x <;> simp [NvmCmd.wanted, NvmCmd.target]

/-- A completion keeps the regions canonical, whatever the command. -/
theorem nvmComplete_canonical (s : State) (h : s.mem.Canonical) : (nvmComplete s).mem.Canonical := by
  cases hp : s.nvmPending with
  | none => unfold nvmComplete; rw [hp]; exact h
  | some c => rw [nvmComplete_pending s c hp]; exact NvMem.canonical_writeBytes _ _ _ _ h

/-- A completion never touches Boot Flash (R65). -/
theorem nvmComplete_boot (s : State) : (nvmComplete s).mem.boot = s.mem.boot := by
  cases hp : s.nvmPending with
  | none => unfold nvmComplete; rw [hp]
  | some c =>
    rw [nvmComplete_pending s c hp]
    exact NvMem.region_writeBytes_of_ne s.mem (r' := .boot) _ _ (by cases c <;> simp [NvmCmd.target])

/-! ### The wire -/

theorem takeOpcode_cons (s : State) (b : Byte) (rest : List Byte) (h : s.rxq = b :: rest) :
    takeOpcode s = { s with rxq := rest, op := b, trace := s.trace ++ [.rx b] } := by
  unfold takeOpcode
  rw [h]
  rfl

/-- An echo adds to the receive path and to the draws, nothing else; a certain one adds exactly one byte. -/
theorem echoByte_frame (certain : Bool) (s : State) :
    ∃ e t n, List.length e ≤ 1 ∧ (certain = true → e.length = 1) ∧
      echoByte certain s = { s.withDraws t n with rxq := s.rxq ++ e } := by
  cases certain with
  | true =>
    exact ⟨[(draw s).1], _, _, by simp, by simp,
      congrArg (fun u : State => { u with rxq := s.rxq ++ [(draw s).1] }) (draw_frame s)⟩
  | false =>
    refine ⟨if (draw s).1 = 0 then [] else [(draw (draw s).2).1], _, _, by split_ifs <;> simp, by simp,
      congrArg (fun u : State => { u with rxq := s.rxq ++ if (draw s).1 = 0 then [] else [(draw (draw s).2).1] })
        ((draw_frame (draw s).2).trans (congrArg (fun u => State.withDraws u _ _) (draw_frame s)))⟩

end Sys2Proof.Machine
end

