-- ==== Sys2Proof/Laws/Sequencer.lean ====
section
/-! SUPPORT. Runs of control paths: `Runs ps s t` says that the primitives `ps` are performed one after the other from
`s` to `t` with none left waiting; what the bracket and `Reply` do, said once. -/

namespace Sys2Proof.Machine

/-- The primitives are all done, from `s` to `t`. -/
def Runs : List Prim → State → State → Prop
  | [], s, t => t = s
  | p :: ps, s, t => ∃ u, drive p s = .done u ∧ Runs ps u t

theorem Runs.append {ps qs : List Prim} {s t u : State} (h : Runs ps s t) (h' : Runs qs t u) : Runs (ps ++ qs) s u := by
  induction ps generalizing s with
  | nil => cases h; exact h'
  | cons p ps ih =>
    obtain ⟨v, hv, h⟩ := h
    exact ⟨v, hv, ih h⟩

theorem Runs.single {p : Prim} {s t : State} (h : drive p s = .done t) : Runs [p] s t := ⟨t, h, rfl⟩

/-- A run along a path goes on after the part that is done. -/
theorem runPath_append {ps : List Prim} {s t : State} (h : Runs ps s t) (qs : List Prim) :
    runPath (ps ++ qs) s = runPath qs t := by
  induction ps generalizing s with
  | nil => cases h; rfl
  | cons p ps ih =>
    obtain ⟨v, hv, h⟩ := h
    rw [List.cons_append, runPath, hv]
    exact ih h

theorem runCommand_append {ps : List Prim} {s t : State} (h : Runs ps s t) (qs : List Prim) :
    runCommand (ps ++ qs) s = runCommand qs t := by
  induction ps generalizing s with
  | nil => cases h; rfl
  | cons p ps ih =>
    obtain ⟨v, hv, h⟩ := h
    rw [List.cons_append, runCommand, hv]
    exact ih h

theorem runPath_of_runs {ps : List Prim} {s t : State} (h : Runs ps s t) : runPath ps s = .next (home t) := by
  simpa [runPath] using runPath_append h []

theorem runCommand_of_runs {ps : List Prim} {s t : State} (h : Runs ps s t) : runCommand ps s = .next (home t) := by
  simpa [runCommand] using runCommand_append h []

/-- A primitive that is no loop is performed once. -/
theorem drive_once (p : Prim) (s : State) (h : bound p (help p s) = 1) :
    drive p s = match perform p (help p s) with
      | .again s' => .again s'
      | e => e := by
  unfold drive
  rw [h, iterate]
  cases perform p (help p s) <;> rfl

/-! ### Single primitives -/

theorem drive_goto (l : Seq) (s : State) : drive (.goto l) s = .done { s with seq := l } := rfl

theorem drive_fresh (s : State) : drive .fresh s = .done { s with cnt := 0, data := [] } := rfl

theorem drive_txByte (b : Byte) (s : State) : drive (.txByte b) s = .done (txByte b s) := rfl

theorem drive_setDE (v : Bool) (s : State) : drive (.setDE v) s = .done (setDE v s) := rfl

theorem drive_setRxDis (v : Bool) (s : State) : drive (.setRxDis v) s = .done (setRxDis v s) := rfl

theorem drive_rxPoll (s : State) : drive .rxPoll s = .done (rxPoll s) := rfl

theorem drive_echo (c : Bool) (s : State) : drive (.echo c) s = .done (echoByte c s) := rfl

theorem drive_txWaitComplete (s : State) : drive .txWaitComplete s = .done (drain s) := by
  rw [drive_once _ _ rfl]
  simp [help, perform, txComplete]

/-- `WaitReady()` in a run: a command in flight is completed first. -/
theorem drive_waitReady (s : State) : drive .waitReady s = .done (if s.nvmBusy then nvmComplete s else s) := by
  rw [drive_once _ _ rfl]
  have h : (if s.nvmBusy then nvmComplete s else s).nvmBusy = false := by
    split_ifs with hb
    · obtain ⟨m, st, t, n, tr, h⟩ := nvmComplete_frame s
      rw [h]
    · simpa using hb
  simp [help, perform, nvmReady, h]

theorem drive_fetch (src : Source) (s : State) (h : sourceInRange s src = true) :
    drive (.fetch src) s = .done { s with data := s.data ++ sourceBytes s src } := by
  rw [drive_once _ _ rfl]
  simp [help, perform, h]

theorem drive_check (r : Region) (s : State) :
    drive (.check r) s = if validIndex s.cfg r s.idx then .done s else .turn (rangeError s.cfg) s := by
  rw [drive_once _ _ rfl]
  by_cases h : validIndex s.cfg r s.idx = true <;> simp [help, perform, h]

theorem drive_rxIdxHi (s : State) (b : Byte) (rest : List Byte) (h : s.rxq = b :: rest) :
    drive .rxIdxHi s = .done (takeIdxHi b rest s) := by
  rw [drive_once _ _ rfl]
  simp [help, perform, h]

theorem drive_rxIdxLo (s : State) (b : Byte) (rest : List Byte) (h : s.rxq = b :: rest) :
    drive .rxIdxLo s = .done (takeIdxLo b rest s) := by
  rw [drive_once _ _ rfl]
  simp [help, perform, h]

theorem drive_stage (s : State) (k : Nat) (v : Byte) (h : bufAt s k = some v) :
    drive (.stage k) s = .done (stageByte k v s) := by
  rw [drive_once _ _ rfl]
  simp [help, perform, h]

theorem drive_issue (s : State) (c : NvmCmd) (hb : s.nvmBusy = false) (hr : c.inRange s.cfg = true) :
    drive (.issue c) s = .done (nvmIssue c s) := by
  rw [drive_once _ _ rfl]
  simp [help, perform, tryIssue, hb, hr]

theorem drive_issuePage (s : State) (k : PageCommit) (hb : s.nvmBusy = false)
    (hr : (k.command s.idx).inRange s.cfg = true) :
    drive (.issuePage k) s = .done (nvmIssue (k.command s.idx) s) := by
  rw [drive_once _ _ rfl]
  simp [help, perform, tryIssue, hb, hr]

/-! ### Loops -/

/-- The data loop of `Reply` (30_encoding.md R119) from `cnt` on. -/
theorem iterate_txData (n : Nat) (s : State) (h1 : 1 ≤ n) (hn : s.data.length < n + s.cnt) (hc : s.cnt ≤ s.data.length) :
    iterate n .txData s =
      .done { s with
        cnt := s.data.length, txq := s.txq ++ s.data.drop s.cnt
        trace := s.trace ++ (s.data.drop s.cnt).map .txq } := by
  induction n generalizing s with
  | zero => omega
  | succ n ih =>
    rw [iterate, perform, dataStep]
    by_cases hc : s.cnt < s.data.length
    · simp only [List.getElem?_eq_getElem hc]
      have hd : s.data.drop s.cnt = s.data[s.cnt] :: s.data.drop (s.cnt + 1) := by
        rw [List.drop_eq_getElem_cons hc]
      split_ifs with hlast
      · have h := ih (txByte s.data[s.cnt] { s with cnt := s.cnt + 1 }) (by omega) (by simp; omega) (by simp; omega)
        refine h.trans ?_
        simp only [txByte, log, hd, List.map_cons, List.append_assoc, List.singleton_append]
      · have : s.data.drop (s.cnt + 1) = [] := List.drop_eq_nil_of_le (by omega)
        have hl : s.data.length = s.cnt + 1 := by omega
        rw [hd, this, hl]
        rfl
    · have hnone : s.data[s.cnt]? = none := List.getElem?_eq_none (by omega)
      have : s.data.drop s.cnt = [] := List.drop_eq_nil_of_le (by omega)
      have hl : s.data.length = s.cnt := by omega
      rw [hnone]
      simp [this, hl]

/-- The whole data loop. -/
theorem drive_txData (s : State) (h : s.cnt = 0) :
    drive .txData s = .done { s with
      cnt := s.data.length, txq := s.txq ++ s.data, trace := s.trace ++ s.data.map .txq } := by
  have hi := iterate_txData (s.data.length + 1) s (by omega) (by omega) (by omega)
  rw [h, List.drop_zero] at hi
  exact hi

end Sys2Proof.Machine
end

