-- ==== Sys2Proof/Laws/Reply.lean ====
section
/-! SUPPORT. What `Reply` does (30_encoding.md R119, 46_transceiver.md R241 to R247), said once: the bytes handed over, the
state of the bus after the bracket, and everything it leaves alone. -/

namespace Sys2Proof.Machine

/-- `u` differs from `s` in the wire side only: the label, the counter, the two queues, the wire, the lines, the trace and
the draws. -/
def OnlyWire (s u : State) : Prop :=
  ∃ l c rx tx w d r tr t n, u =
    { s.withDraws t n with
      seq := l, cnt := c, rxq := rx, txq := tx, wireOut := w, de := d, rxdis := r, trace := tr }

theorem OnlyWire.refl (s : State) : OnlyWire s s := ⟨_, _, _, _, _, _, _, _, _, _, rfl⟩

theorem OnlyWire.trans {s t u : State} (h : OnlyWire s t) (h' : OnlyWire t u) : OnlyWire s u := by
  obtain ⟨_, _, _, _, _, _, _, _, _, _, rfl⟩ := h
  obtain ⟨l, c, rx, tx, w, d, r, tr, t, n, rfl⟩ := h'
  exact ⟨l, c, rx, tx, w, d, r, tr, t, n, rfl⟩

/-- What lies outside the wire side is the same. -/
theorem OnlyWire.same {s u : State} (h : OnlyWire s u) :
    SameStorage s u ∧ SameControl s u ∧ u.idx = s.idx ∧ u.idxHi = s.idxHi ∧ u.data = s.data ∧ u.todo = s.todo := by
  obtain ⟨_, _, _, _, _, _, _, _, _, _, rfl⟩ := h
  exact ⟨⟨rfl, rfl, rfl, rfl, rfl⟩, ⟨rfl, rfl, rfl, rfl, rfl, rfl, rfl, rfl, rfl, rfl, rfl, rfl⟩, rfl, rfl, rfl, rfl⟩

theorem runs_optional_echoes (k : Nat) (s : State) :
    ∃ e t n, List.length e ≤ k ∧ Runs (List.replicate k (.echo false)) s { s.withDraws t n with rxq := s.rxq ++ e } := by
  induction k generalizing s with
  | zero => exact ⟨[], s.tape, s.draws, by simp, by simp [Runs, State.withDraws]⟩
  | succ k ih =>
    obtain ⟨e, t, n, he, -, h⟩ := echoByte_frame false s
    obtain ⟨e', t', n', he', hr⟩ := ih (echoByte false s)
    refine ⟨e ++ e', t', n', by simp; omega, _, drive_echo false s, ?_⟩
    rw [h] at hr ⊢
    simpa [State.withDraws] using hr

theorem runs_discards (k : Nat) (s : State) :
    Runs (List.replicate k .rxPoll) s
      { s with rxq := s.rxq.drop k, trace := s.trace ++ (s.rxq.take k).map .rx } := by
  induction k generalizing s with
  | zero => simp [Runs]
  | succ k ih =>
    refine ⟨_, drive_rxPoll s, ?_⟩
    have h := ih (rxPoll s)
    cases hq : s.rxq <;> simp_all [rxPoll]

theorem runs_txBegin (s : State) (hd : s.cfg.halfDuplex = true) :
    Runs (txBegin s.cfg) s
      { s with de := true, rxdis := true, trace := s.trace ++ [.de true, .rxdis true, .delay .driveSettle] } := by
  rw [txBegin, if_pos hd]
  have h : Runs [.setDE true, .setRxDis true, .delay .driveSettle] s
      (log (.delay .driveSettle) (setRxDis true (setDE true s))) := ⟨_, rfl, _, rfl, _, rfl, rfl⟩
  simpa [setDE, setRxDis, log] using h

theorem runs_txEnd (s : State) (hd : s.cfg.halfDuplex = true) :
    ∃ echo t n, 1 ≤ List.length echo ∧ echo.length ≤ max 1 s.cfg.echoMax ∧
      Runs (txEnd s.cfg) s
        { s.withDraws t n with
          txq := [], wireOut := s.wireOut ++ s.txq, de := false, rxdis := false
          rxq := (s.rxq ++ echo).drop s.cfg.echoDiscardReads
          trace := s.trace ++ s.txq.map .tx ++ [.de false, .rxdis false, .delay .listenSettle] ++
            ((s.rxq ++ echo).take s.cfg.echoDiscardReads).map .rx } := by
  rw [txEnd, if_pos hd]
  let s1 := log (.delay .listenSettle) (setRxDis false (setDE false (drain s)))
  obtain ⟨e, t, n, he, hc, h⟩ := echoByte_frame true s1
  obtain ⟨e', t', n', he', hr⟩ := runs_optional_echoes (s.cfg.echoMax - 1) (echoByte true s1)
  rw [h] at hr
  have hp := runs_discards s.cfg.echoDiscardReads { s1.withDraws t' n' with rxq := s.rxq ++ e ++ e' }
  have hc := hc rfl
  refine ⟨e ++ e', t', n', by simp; omega, by simp; omega, ?_⟩
  have h1 : Runs [.txWaitComplete, .setDE false, .setRxDis false, .delay .listenSettle, .echo true] s
      { s1.withDraws t n with rxq := s1.rxq ++ e } :=
    ⟨_, drive_txWaitComplete s, _, rfl, _, rfl, _, rfl, _, (drive_echo true s1).trans (congrArg Effect.done h), rfl⟩
  have h2 := (h1.append hr).append hp
  simpa [State.withDraws, s1, List.append_assoc, log, setDE, setRxDis, drain] using h2

/-- A burst of bytes in its bracket; `c` is the counter the body leaves. -/
theorem runs_bracket (s : State) (body : List Prim) (bytes : List Byte) (c : Nat)
    (hbody : ∀ d r tr, Runs body { s with de := d, rxdis := r, trace := tr }
      { s with de := d, rxdis := r, trace := tr ++ bytes.map .txq, cnt := c, txq := s.txq ++ bytes }) :
    ∃ u, Runs (bracket s.cfg body) s u ∧ Replied s.rxq bytes s u ∧ TracedBurst bytes s u ∧ OnlyWire s u ∧
      u.seq = s.seq ∧ u.cnt = c := by
  unfold bracket
  by_cases hd : s.cfg.halfDuplex = true
  · have h1 := runs_txBegin s hd
    have h2 := hbody true true (s.trace ++ [.de true, .rxdis true, .delay .driveSettle])
    obtain ⟨echo, t, n, hl, hm, h3⟩ := runs_txEnd
      { s with
        de := true, rxdis := true, cnt := c, txq := s.txq ++ bytes
        trace := s.trace ++ [.de true, .rxdis true, .delay .driveSettle] ++ bytes.map .txq } hd
    refine ⟨_, (h1.append h2).append h3, ⟨?_, fun _ => ⟨rfl, rfl, rfl, echo, hl, hm, rfl⟩, fun h => ?_⟩,
      ⟨fun _ => ⟨_, ?_, [.de true, .rxdis true, .delay .driveSettle], [.de false, .rxdis false, .delay .listenSettle],
        (s.rxq ++ echo).take s.cfg.echoDiscardReads, rfl, rfl, by simp, rfl, by simp⟩, fun h => ?_⟩,
      ⟨_, _, _, _, _, _, _, _, _, _, rfl⟩, rfl, rfl⟩
    · simp [sent]
    · exact absurd hd (by simp [h])
    · simp
    · exact absurd hd (by simp [h])
  · have h2 := hbody s.de s.rxdis s.trace
    have hb : txBegin s.cfg = [] := by simp [txBegin, hd]
    have he : txEnd s.cfg = [] := by simp [txEnd, hd]
    rw [hb, he, List.append_nil, List.nil_append]
    exact ⟨_, h2, ⟨by simp [sent], fun h => absurd h hd, fun _ => ⟨rfl, rfl, rfl, rfl⟩⟩,
      ⟨fun h => absurd h hd, fun _ => rfl⟩, ⟨_, _, _, _, _, _, _, _, _, _, rfl⟩, rfl, rfl⟩

theorem runs_txBytes (bs : List Byte) (s : State) :
    Runs (bs.map .txByte) s { s with txq := s.txq ++ bs, trace := s.trace ++ bs.map .txq } := by
  induction bs generalizing s with
  | nil => simp [Runs]
  | cons b bs ih =>
    refine ⟨_, drive_txByte b s, ?_⟩
    simpa [txByte, log] using ih (txByte b s)

/-- `Reply([b])`. -/
theorem runs_replyStatus (s : State) (b : Byte) :
    ∃ u, Runs (replyStatus s.cfg b) s u ∧ Replied s.rxq [b] s u ∧ TracedBurst [b] s u ∧ OnlyWire s u ∧
      u.seq = .reply ∧ u.cnt = s.cnt := by
  obtain ⟨u, h, hr, ht, hw, hs⟩ := runs_bracket { s with seq := .reply } [.txByte b] [b] s.cnt
    fun d r tr => ⟨_, drive_txByte b _, rfl⟩
  exact ⟨u, ⟨_, drive_goto .reply s, h⟩, hr, ht,
    OnlyWire.trans (t := { s with seq := .reply }) ⟨_, _, _, _, _, _, _, _, _, _, rfl⟩ hw, hs⟩

/-- `Reply(header ++ data)`. -/
theorem runs_replyData (s : State) (header : List Byte) (hc : s.cnt = 0) :
    ∃ u, Runs (replyData s.cfg header) s u ∧ Replied s.rxq (header ++ s.data) s u ∧
      TracedBurst (header ++ s.data) s u ∧ OnlyWire s u ∧ u.seq = .reply ∧ u.cnt = s.data.length := by
  obtain ⟨u, h, hr, ht, hw, hs⟩ := runs_bracket { s with seq := .reply } (header.map .txByte ++ [.txData])
    (header ++ s.data) s.data.length fun d r tr => by
      have h1 := runs_txBytes header { s with seq := .reply, de := d, rxdis := r, trace := tr }
      refine h1.append (Runs.single ((drive_txData _ (by exact hc)).trans ?_))
      simp [List.append_assoc]
  exact ⟨u, ⟨_, drive_goto .reply s, h⟩, hr, ht,
    OnlyWire.trans (t := { s with seq := .reply }) ⟨_, _, _, _, _, _, _, _, _, _, rfl⟩ hw, hs⟩

end Sys2Proof.Machine
end

