-- ==== Sys2Proof/Laws/Commands.lean ====
section
/-! SUPPORT. The parts a command is made of, each said once: reading the index and the payload, staging, a commit. -/

namespace Sys2Proof.Machine

/-- `ReadIndex()` with both bytes there (30_encoding.md R117). -/
theorem runs_readIndex (s : State) (h l : Byte) (rest : List Byte) (hq : s.rxq = h :: l :: rest) :
    ∃ tr, Runs readIndex s
      { s with seq := .idxLo, rxq := rest, idxHi := h, idx := indexOf h l, trace := tr } := by
  let s1 : State := { s with seq := .idxHi }
  let s2 : State := { takeIdxHi h (l :: rest) s1 with seq := .idxLo }
  have h1 : Runs [.goto .idxHi, .rxIdxHi, .goto .idxLo] s s2 := ⟨s1, rfl, _, drive_rxIdxHi s1 h (l :: rest) hq, _, rfl, rfl⟩
  have h2 : Runs [.rxIdxLo] s2 (takeIdxLo l rest s2) := Runs.single (drive_rxIdxLo s2 l rest rfl)
  exact ⟨_, h1.append h2⟩

/-- `ReadPayload` from `cnt` on with all the bytes there (R118). -/
theorem iterate_rxPayload (n : Nat) (p rest : List Byte) (f : Nat) (s : State) (hq : s.rxq = p ++ rest)
    (hn : s.cnt + p.length = n) (hb : n ≤ s.buf.length) (hf : p.length < f) :
    ∃ tr, iterate f (.rxPayload n) s = .done
      { s with
        rxq := rest, cnt := n, trace := tr
        buf := s.buf.take s.cnt ++ p.map some ++ s.buf.drop n } := by
  induction p generalizing s f with
  | nil =>
    obtain ⟨f, rfl⟩ : ∃ g, f = g + 1 := ⟨f - 1, by simp at hf; omega⟩
    have hcn : s.cnt = n := by simpa using hn
    refine ⟨s.trace, ?_⟩
    rw [iterate, perform, payloadStep, if_neg (by omega)]
    simp only [List.nil_append] at hq
    subst hcn
    subst hq
    simp
  | cons b p ih =>
    obtain ⟨f, rfl⟩ : ∃ g, f = g + 1 := ⟨f - 1, by simp at hf; omega⟩
    simp only [List.length_cons] at hn hf
    rw [iterate, perform, payloadStep, if_pos (by omega), hq]
    have hset : (s.buf.set s.cnt (some b)).take (s.cnt + 1) = s.buf.take s.cnt ++ [some b] := by
      have hlt : s.cnt < s.buf.length := by omega
      rw [List.take_add_one, List.getElem?_set_self hlt, List.take_set_of_le (le_refl _)]
      rfl
    have hdrop : (s.buf.set s.cnt (some b)).drop n = s.buf.drop n := by
      rw [List.drop_set_of_lt (by omega)]
    simp only [List.cons_append]
    split_ifs with hlast
    · obtain ⟨tr, h⟩ := ih f (takePayload b (p ++ rest) s) rfl (by simp; omega) (by simpa using hb) (by omega)
      refine ⟨tr, ?_⟩
      simp only [h, takePayload_buf, takePayload_cnt, hset, hdrop, List.append_assoc]
      simp [takePayload, log]
    · have hp : p = [] := List.eq_nil_of_length_eq_zero (by omega)
      subst hp
      have hcn : s.cnt + 1 = n := by simp at hn; omega
      refine ⟨s.trace ++ [.rx b], ?_⟩
      have hbuf : s.buf.set s.cnt (some b) = s.buf.take s.cnt ++ [some b] ++ s.buf.drop n := by
        rw [← hset, ← hdrop, hcn, List.take_append_drop]
      simp only [takePayload, log, hbuf, hcn]
      rfl

/-- `ReadPayload(n)` with all the bytes there: the payload fills the first `n` positions, the others stay. -/
theorem runs_readPayload (s : State) (p rest : List Byte) (hq : s.rxq = p ++ rest) (hb : p.length ≤ s.buf.length) :
    ∃ tr, Runs (readPayload p.length) s
      { s with
        seq := .payload, data := [], cnt := p.length, rxq := rest, trace := tr
        buf := p.map some ++ s.buf.drop p.length } := by
  obtain ⟨tr, h⟩ := iterate_rxPayload p.length p rest (p.length + 1) { s with cnt := 0, data := [], seq := .payload }
    hq (by simp) hb (by omega)
  exact ⟨tr, _, drive_fresh s, _, drive_goto .payload _, _, h, rfl⟩

/-- `ReadPayload` from `cnt` on with bytes missing (60_exceptions.md R299(b)): those there are taken, and it waits. -/
theorem iterate_rxPayload_short (n : Nat) (p : List Byte) (f : Nat) (s : State) (hq : s.rxq = p)
    (hn : s.cnt + p.length < n) (hb : n ≤ s.buf.length) (hf : p.length < f) :
    iterate f (.rxPayload n) s = .wait
      { s with
        rxq := [], cnt := s.cnt + p.length, trace := s.trace ++ p.map .rx
        buf := s.buf.take s.cnt ++ p.map some ++ s.buf.drop (s.cnt + p.length) } := by
  induction p generalizing s f with
  | nil =>
    obtain ⟨f, rfl⟩ : ∃ g, f = g + 1 := ⟨f - 1, by simp at hf; omega⟩
    rw [iterate, perform, payloadStep, if_pos (by simpa using hn), hq]
    cases s
    simp_all
  | cons b p ih =>
    obtain ⟨f, rfl⟩ : ∃ g, f = g + 1 := ⟨f - 1, by simp at hf; omega⟩
    simp only [List.length_cons] at hn hf
    rw [iterate, perform, payloadStep, if_pos (by omega), hq]
    have hlt : s.cnt < s.buf.length := by omega
    have hset : (s.buf.set s.cnt (some b)).take (s.cnt + 1) = s.buf.take s.cnt ++ [some b] := by
      rw [List.take_add_one, List.getElem?_set_self hlt, List.take_set_of_le (le_refl _)]
      rfl
    have hdrop : (s.buf.set s.cnt (some b)).drop (s.cnt + 1 + p.length) = s.buf.drop (s.cnt + 1 + p.length) := by
      rw [List.drop_set_of_lt (by omega)]
    have h := ih f (takePayload b p s) rfl (by simp; omega) (by simpa using hb) (by omega)
    simp only
    rw [if_pos (by omega)]
    simp only [h, takePayload_buf, takePayload_cnt, hset, hdrop, List.append_assoc]
    simp [takePayload, log, Nat.add_assoc, Nat.add_comm 1]

/-- Staging a run of buffer positions. -/
theorem runs_stageRange (a n : Nat) (s : State) (p : List Byte) (hp : p.length = a + n)
    (hb : ∀ k (hk : k < p.length), s.buf[k]? = some (some p[k])) :
    ∃ st tr, Runs ((List.range' a n).map .stage) s { s with nvmStage := st, trace := tr } ∧
      (∀ k, Cells.get? st k = if a ≤ k ∧ k < a + n then p[k]? else Cells.get? s.nvmStage k) ∧
      (Cells.rising s.nvmStage = true → Cells.rising st = true) := by
  induction n generalizing a s with
  | zero =>
    refine ⟨s.nvmStage, s.trace, rfl, fun k => ?_, id⟩
    rw [if_neg (by omega)]
  | succ n ih =>
    have ha : a < p.length := by omega
    have hba : bufAt s a = some p[a] := by simp [bufAt, hb a ha]
    obtain ⟨st, tr, hr, hg, hs⟩ := ih (a + 1) (stageByte a p[a] s) (by omega) (by simpa using hb)
    refine ⟨st, tr, ?_, fun k => ?_, fun h => hs (Cells.rising_set _ _ _ h)⟩
    · rw [List.range'_succ, List.map_cons]
      exact ⟨_, drive_stage s a p[a] hba, hr⟩
    · rw [hg k, stageByte_nvmStage, Cells.get?_set]
      by_cases hk : k = a
      · subst hk
        rw [if_neg (by omega), if_pos rfl, if_pos (by omega), List.getElem?_eq_getElem ha]
      · by_cases h2 : a + 1 ≤ k ∧ k < a + 1 + n
        · rw [if_pos h2, if_pos (by omega)]
        · rw [if_neg h2, if_neg hk, if_neg (by omega)]

/-- `StagePage(n)` (45_nvm_primitives.md R216) of a filled buffer. -/
theorem runs_stagePage (s : State) (p : List Byte)
    (hb : ∀ k (hk : k < p.length), s.buf[k]? = some (some p[k])) :
    ∃ st tr, Runs (stagePage p.length) s { s with nvmStage := st, trace := tr } ∧
      (∀ k, k < p.length → Cells.get? st k = p[k]?) := by
  obtain ⟨st, tr, h, hg, -⟩ := runs_stageRange 0 p.length s p (by omega) hb
  refine ⟨st, tr, ?_, fun k hk => by rw [hg k, if_pos (by omega)]⟩
  rw [stagePage, List.range_eq_range']
  exact h

/-- wait-ready, commit, wait-ready (R72, R220) from an idle controller: the command is issued and completed. -/
theorem runs_commit (s : State) (c : NvmCmd) (hb : s.nvmBusy = false) (hr : c.inRange s.cfg = true) :
    Runs [.waitReady, .issue c, .waitReady] s (nvmComplete (nvmIssue c s)) := by
  refine ⟨s, by rw [drive_waitReady]; simp [hb], _, drive_issue s c hb hr, _, drive_waitReady _, ?_⟩
  simp [Runs]

theorem runs_commitPage (s : State) (k : PageCommit) (hb : s.nvmBusy = false)
    (hr : (k.command s.idx).inRange s.cfg = true) :
    Runs [.waitReady, .issuePage k, .waitReady] s (nvmComplete (nvmIssue (k.command s.idx) s)) := by
  refine ⟨s, by rw [drive_waitReady]; simp [hb], _, drive_issuePage s k hb hr, _, drive_waitReady _, ?_⟩
  simp [Runs]

end Sys2Proof.Machine
end

