-- ==== Sys2Proof/Laws/Paths.lean ====
section
/-! SUPPORT. Control paths that have what they need: more knowledge keeps a path safe, and the path of every instruction is
safe from the top of the loop. -/

namespace Sys2Proof.Machine

/-- `k'` knows at least what `k` knows. -/
structure Known.le (k k' : Known) : Prop where
  ready : k.ready = true → k'.ready = true
  appIndex : k.appIndex = true → k'.appIndex = true
  eeIndex : k.eeIndex = true → k'.eeIndex = true
  filled : k.filled ≤ k'.filled
  de : k'.de = k.de
  rxdis : k'.rxdis = k.rxdis
  drained : k.drained = true → k'.drained = true
  counted : k.counted = true → k'.counted = true
  clean : k.clean = true → k'.clean = true
  undecided : k.undecided = true → k'.undecided = true
  loaded : k'.loaded ≤ k.loaded

theorem Known.le.refl (k : Known) : k.le k := ⟨id, id, id, le_refl _, rfl, rfl, id, id, id, id, le_refl _⟩

theorem Known.le.listening {k k' : Known} (h : k.le k') : k'.listening = k.listening := by
  simp [Known.listening, h.de, h.rxdis]

theorem Known.le.idle {k k' : Known} (h : k.le k') (hi : k.idle = true) : k'.idle = true := by
  simp only [Known.idle, Bool.and_eq_true] at hi ⊢
  exact ⟨⟨h.listening ▸ hi.1.1, h.ready hi.1.2⟩, h.clean hi.2⟩

theorem Prim.safe_mono {c : Config} {k k' : Known} (h : k.le k') (p : Prim) (hp : p.safe c k = true) :
    p.safe c k' = true := by
  have hl := h.listening
  have hi := @Known.le.idle _ _ h
  cases p <;> simp only [Prim.safe, Bool.and_eq_true, Bool.or_eq_true, decide_eq_true_eq, hl, h.de] at hp ⊢ <;>
    first
    | exact hp
    | exact hi hp
    | exact ⟨hi hp.1, h.undecided hp.2⟩
    | exact ⟨⟨hp.1.1, h.counted hp.1.2⟩, hp.2⟩
    | exact lt_of_lt_of_le hp h.filled
    | exact ⟨h.ready hp.1, hp.2⟩
    | exact ⟨hp.1, hp.2.imp id h.drained⟩
    | exact ⟨⟨hp.1.1, h.ready hp.1.2⟩, h.clean hp.2⟩
    | skip
  case issuePage x =>
    cases x <;> simp only [Bool.and_eq_true] at hp ⊢
    · exact ⟨h.ready hp.1, h.appIndex hp.2⟩
    · exact ⟨h.ready hp.1, h.eeIndex hp.2⟩
  case fetch src =>
    have hz : k.loaded = 0 → k'.loaded = 0 := fun h0 => Nat.le_zero.1 (h0 ▸ h.loaded)
    cases src <;> simp only [Bool.and_eq_true, decide_eq_true_eq] at hp ⊢ <;> first
    | exact hz hp
    | exact le_trans (Nat.add_le_add_right h.loaded 4) hp
    | skip
    rename_i r
    cases r
    · exact ⟨h.appIndex hp.1, hz hp.2⟩
    · exact ⟨hp.1, hz hp.2⟩
    · exact ⟨h.eeIndex hp.1, hz hp.2⟩
    · exact ⟨hp.1, hz hp.2⟩

theorem Prim.after_mono {k k' : Known} (h : k.le k') (p : Prim) : (p.after k).le (p.after k') := by
  obtain ⟨h1, h2, h3, h4, h5, h6, h7, h8, h9, h10, h11⟩ := h
  cases p <;> (try cases ‹Region›) <;> (try cases ‹Source›) <;> simp only [Prim.after] <;> constructor <;> simp_all
  all_goals omega

theorem pathSafe_mono {c : Config} (ps : List Prim) {k k' : Known} (h : k.le k') (hp : pathSafe c k ps = true) :
    pathSafe c k' ps = true := by
  induction ps generalizing k k' with
  | nil => exact h.idle hp
  | cons p ps ih =>
    simp only [pathSafe, Bool.and_eq_true] at hp ⊢
    exact ⟨Prim.safe_mono h p hp.1, ih (Prim.after_mono h p) hp.2⟩

theorem pathSafe_skip {c : Config} {k : Known} {ps qs : List Prim}
    (h : ∀ p ∈ ps, p.safe c k = true ∧ p.after k = k) (hq : pathSafe c k qs = true) :
    pathSafe c k (ps ++ qs) = true := by
  induction ps with
  | nil => exact hq
  | cons p ps ih =>
    obtain ⟨h1, h2⟩ := h p (by simp)
    simp only [List.cons_append, pathSafe, h1, h2, Bool.true_and]
    exact ih fun p hp => h p (by simp [hp])

/-- A body of a bracket: bytes handed over. -/
def Sends (body : List Prim) : Prop := ∀ p ∈ body, p = .txData ∨ ∃ b, p = .txByte b

theorem pathSafe_sends {c : Config} {k : Known} {body qs : List Prim} (hb : Sends body)
    (hd : c.halfDuplex = true → k.de = true) (hr : k.ready = true) (hc : k.clean = true)
    (hq : pathSafe c { k with drained := false, counted := false } qs = true) :
    pathSafe c k (body ++ qs) = true := by
  induction body generalizing k with
  | nil => (refine pathSafe_mono qs ?_ hq; exact ⟨id, id, id, le_refl _, rfl, rfl, by simp, by simp, id, id, le_refl _⟩)
  | cons p body ih =>
    have hs : p.safe c k = true := by
      rcases hb p (by simp) with rfl | ⟨b, rfl⟩ <;> simp only [Prim.safe] <;>
        cases h : c.halfDuplex <;> simp_all
    simp only [List.cons_append, pathSafe, hs, Bool.true_and]
    have hb' : Sends body := fun p hp => hb p (by simp [hp])
    rcases hb p (by simp) with rfl | ⟨b, rfl⟩ <;> exact ih hb' hd hr hc hq

theorem pathSafe_bracket {c : Config} {k : Known} {body qs : List Prim} (hb : Sends body) (hk : k.idle = true)
    (hq : pathSafe c { k with drained := false, counted := false } qs = true) :
    pathSafe c k (bracket c body ++ qs) = true := by
  have hl : k.de = false ∧ k.rxdis = false := by
    simp only [Known.idle, Known.listening, Bool.and_eq_true, Bool.not_eq_true'] at hk
    exact hk.1.1
  have hrc : k.ready = true ∧ k.clean = true := by
    simp only [Known.idle, Bool.and_eq_true] at hk
    exact ⟨hk.1.2, hk.2⟩
  unfold bracket txBegin txEnd
  by_cases hd : c.halfDuplex = true
  · rw [if_pos hd, if_pos hd]
    simp only [List.append_assoc, List.cons_append, List.nil_append, pathSafe, Prim.safe, Prim.after, hd, Bool.true_or,
      Bool.true_and]
    refine pathSafe_sends hb (fun _ => rfl) hrc.1 hrc.2 ?_
    simp only [pathSafe, Prim.safe, Prim.after, hd, Bool.or_true, Bool.true_and]
    refine pathSafe_skip (fun p hp => by rw [List.eq_of_mem_replicate hp]; exact ⟨hd, rfl⟩) ?_
    refine pathSafe_skip (fun p hp => by rw [List.eq_of_mem_replicate hp]; exact ⟨hd, rfl⟩) ?_
    (refine pathSafe_mono qs ?_ hq; exact ⟨id, id, id, le_refl _, hl.1.symm, hl.2.symm, by simp, id, id, id, le_refl _⟩)
  · rw [if_neg hd, if_neg hd]
    simp only [List.nil_append, List.append_assoc]
    exact pathSafe_sends hb (fun h => absurd h hd) hrc.1 hrc.2 hq

theorem pathSafe_replyStatus {c : Config} {k : Known} {b : Byte} {qs : List Prim} (hk : k.idle = true)
    (hq : pathSafe c { k with drained := false, counted := false } qs = true) :
    pathSafe c k (replyStatus c b ++ qs) = true := by
  refine pathSafe_bracket (k := k) ?_ hk hq
  intro p hp
  simp at hp
  exact .inr ⟨b, hp⟩

theorem pathSafe_replyData {c : Config} {k : Known} {h : List Byte} (hk : k.idle = true) :
    pathSafe c k (replyData c h) = true := by
  have := pathSafe_bracket (c := c) (k := k) (body := h.map .txByte ++ [.txData]) (qs := []) ?_ hk hk
  · simpa [replyData, pathSafe, Prim.safe, Prim.after] using this
  · intro p hp
    simp at hp
    rcases hp with ⟨b, -, rfl⟩ | rfl
    · exact .inr ⟨b, rfl⟩
    · exact .inl rfl

theorem pathSafe_status {c : Config} {k : Known} {b : Byte} (hk : k.idle = true) :
    pathSafe c k (replyStatus c b) = true := by
  simpa using pathSafe_replyStatus (c := c) (b := b) (qs := []) hk hk

theorem pathSafe_stagePage {c : Config} {k : Known} {n : Nat} {qs : List Prim} (hn : n ≤ k.filled)
    (hq : pathSafe c { k with clean := false } qs = true) : pathSafe c k (stagePage n ++ qs) = true := by
  unfold stagePage
  have key : ∀ l : List Nat, (∀ j ∈ l, j < k.filled) → ∀ k' : Known, k'.filled = k.filled →
      pathSafe c { k' with clean := false } qs = true → pathSafe c k' (l.map .stage ++ qs) = true := by
    intro l
    induction l with
    | nil => intro _ k' _ h; refine pathSafe_mono qs ?_ h; exact ⟨id, id, id, le_refl _, rfl, rfl, id, id, by simp, id, le_refl _⟩
    | cons j l ih =>
      intro hl k' hk' h
      simp only [List.map_cons, List.cons_append, pathSafe, Prim.safe, Prim.after, Bool.and_eq_true, decide_eq_true_eq]
      exact ⟨hk' ▸ hl j (by simp), ih (fun j hj => hl j (by simp [hj])) _ hk' h⟩
  exact key _ (fun j hj => by have := List.mem_range.1 hj; omega) k rfl hq

theorem pages_fit {c : Config} (hc : c.wf = true) :
    c.page .app ≤ c.bufSize ∧ c.page .ee ≤ c.bufSize ∧ c.page .us ≤ c.bufSize := by
  simp only [Config.wf, Bool.and_eq_true, Config.bufferOk, decide_eq_true_eq] at hc
  have h := hc.2.1
  omega

/-- `cnt` can count the largest page and the data of every reply (R24). -/
theorem counts_fit {c : Config} (hc : c.wf = true) :
    c.bufSize ≤ 65535 ∧ c.page .app ≤ 65535 ∧ c.page .ee ≤ 65535 ∧ c.size .us ≤ 65535 ∧ c.mcuId.length = 4 ∧
      c.serial.length ≤ 65535 ∧ c.fuses.length ≤ 65535 ∧ c.geomFields.length = 6 ∧ c.geomW ≤ 4 := by
  simp only [Config.wf, Bool.and_eq_true, Config.bufferOk, Config.countsOk, Config.rowOk, Config.widthOk,
    Config.fieldsOk, Config.constantsOk, decide_eq_true_eq] at hc
  obtain ⟨-, hb, -, -, ⟨⟨ha, he⟩, hu⟩, -, hr, hw, hf, -, hk⟩ := hc
  refine ⟨by omega, ha, he, hu, hk.1.1.1, hk.1.2, hk.2, hf.1, ?_⟩
  rw [hw]
  split_ifs <;> omega

theorem pathOf_safe (c : Config) (hc : c.wf = true) (i : Instr) (k : Known) (hk : k.idle = true) :
    pathSafe c k (pathOf c i) = true := by
  obtain ⟨ha, he, hu⟩ := pages_fit hc
  have hk' := hk
  simp only [Known.idle, Bool.and_eq_true] at hk'
  obtain ⟨⟨hl, hr⟩, hcl⟩ := hk'
  have hll : k.de = false ∧ k.rxdis = false := by
    simpa only [Known.listening, Bool.and_eq_true, Bool.not_eq_true'] using hl
  obtain ⟨kr, ka, ke, kf, kd, kx, kdr, kc, kcl, ku⟩ := k
  simp only [] at hr hcl hll
  obtain ⟨rfl, rfl⟩ := hll
  subst hr hcl
  cases i
  case eraseApp => exact pathSafe_status (by rfl)
  case eraseUsersig => exact pathSafe_status (by rfl)
  case readPage => exact pathSafe_replyData (by rfl)
  case readEeprom => exact pathSafe_replyData (by rfl)
  case readUsersig => exact pathSafe_replyData (by rfl)
  case readCrc => exact pathSafe_replyData (by rfl)
  case readMcuId => exact pathSafe_replyData (by rfl)
  case readSerial => exact pathSafe_replyData (by rfl)
  case readVersion => exact pathSafe_replyData (by rfl)
  case readFuses => exact pathSafe_replyData (by rfl)
  case readGeometry => exact pathSafe_replyData (by rfl)
  case nop => rfl
  case unknown => rfl
  case reset => exact pathSafe_replyStatus (by rfl) (by rfl)
  case writePage =>
    have tail : ∀ k : Known, k.idle = true → k.appIndex = true →
        pathSafe c k (readPayload (c.page .app) ++ ([.goto .exec] ++ (flashPageWrite c ++ replyStatus c c.stOk))) = true := by
      rintro ⟨kr, ka, ke, kf, kd, kx, kdr, kc, kcl, ku⟩ hk rfl
      simp only [Known.idle, Known.listening, Bool.and_eq_true, Bool.not_eq_true'] at hk
      obtain ⟨⟨⟨rfl, rfl⟩, rfl⟩, rfl⟩ := hk
      simp only [readPayload, List.cons_append, List.nil_append, pathSafe, Prim.safe, Prim.after, Known.listening, ha,
        decide_true, Bool.not_false, Bool.and_self]
      rw [flashPageWrite, List.append_assoc]
      refine pathSafe_stagePage (by simp) ?_
      exact pathSafe_status (by rfl)
    simp only [pathOf, writePagePath, List.append_assoc, readIndex, checkIndex, List.cons_append, List.nil_append, pathSafe,
      Prim.safe, Prim.after, Known.idle, Known.listening, Bool.not_false, Bool.and_self, Bool.true_and]
    unfold earlyAck
    split_ifs
    · exact pathSafe_replyStatus (by rfl) (tail _ (by rfl) rfl)
    · exact tail _ (by rfl) rfl
  case writeEeprom =>
    simp only [pathOf, writeEepromPath, readIndex, checkIndex, List.cons_append, List.nil_append, pathSafe,
      Prim.safe, Prim.after, Known.idle, Known.listening, Bool.not_false, Bool.and_self, Bool.true_and, readPayload, he,
      decide_true]
    rw [eepromPageWrite, List.append_assoc]
    refine pathSafe_stagePage (by simp) ?_
    exact pathSafe_status (by rfl)
  case writeUsersig =>
    simp only [pathOf, writeUsersigPath, List.cons_append, List.nil_append, pathSafe,
      Prim.safe, Prim.after, Known.listening, Bool.not_false, Bool.and_self, Bool.true_and, readPayload, hu,
      decide_true]
    rw [userSigWrite, List.append_assoc]
    refine pathSafe_stagePage (by simp) ?_
    exact pathSafe_status (by rfl)

end Sys2Proof.Machine
end

