-- ==== Sys2Proof/Laws/Perform.lean ====
section
/-! SUPPORT. What performing one primitive can do, said once: a primitive that has what it needs keeps the relations of the
state, ends with at least the knowledge `Prim.after` says, and does not fault. -/

namespace Sys2Proof.Machine

/-- What performing a primitive that has what it needs comes to. -/
def Keeps (p : Prim) (s : State) : Effect → Prop
  | .done s' => Steady s' ∧ s'.cfg = s.cfg ∧ (p.after (knownOf s)).le (knownOf s')
  | .again s' => Steady s' ∧ s'.cfg = s.cfg ∧ s'.todo = s.todo ∧ p.safe s.cfg (knownOf s') = true ∧
      (p.after (knownOf s)).le (p.after (knownOf s'))
  | .wait s' => s' = s
  | .turn path s' => Steady s' ∧ s'.cfg = s.cfg ∧ pathSafe s.cfg (knownOf s') path = true
  | .fault _ => False

/-- Counting: the counter and the data of a reply, within the range of `cnt`. -/
theorem Steady.counting {s : State} (h : Steady s) (n : Nat) (d : List Byte) (hn : n < 65536) (hd : d.length < 65536) :
    Steady { s with cnt := n, data := d } :=
  ⟨h.config, h.memory, h.staging, h.buffer, h.interrupts, h.unlock, h.busy, h.pending, h.driving, h.lines, hn, hd⟩

/-- An update outside the fields of the invariant. -/
theorem Steady.congr {s t : State} (h : Steady s) (h1 : t.cfg = s.cfg) (h2 : t.mem = s.mem) (h3 : t.nvmStage = s.nvmStage)
    (h4 : t.buf.length = s.buf.length) (h5 : t.gie = s.gie) (h6 : t.unlockArmed = s.unlockArmed) (h7 : t.nvmBusy = s.nvmBusy)
    (h8 : t.nvmPending = s.nvmPending) (h9 : t.txq = s.txq) (h10 : t.de = s.de) (h11 : t.rxdis = s.rxdis)
    (h12 : t.cnt = s.cnt) (h13 : t.data = s.data) : Steady t := by
  constructor
  · rw [h1]; exact h.config
  · rw [h1, h2]; exact h.memory
  · rw [h3]; exact h.staging
  · rw [h1, h4]; exact h.buffer
  · rw [h5]; exact h.interrupts
  · rw [h6]; exact h.unlock
  · rw [h7, h8]; exact h.busy
  · rw [h8, h1]; exact h.pending
  · rw [h1, h9, h10]; exact h.driving
  · rw [h1, h10, h11]; exact h.lines
  · rw [h12]; exact h.count
  · rw [h13]; exact h.data

theorem leadingWritten_set (buf : List (Option Byte)) (n : Nat) (b : Byte) (hn : n ≤ leadingWritten buf)
    (hl : n < buf.length) : leadingWritten buf ≤ leadingWritten (buf.set n (some b)) ∧
      n + 1 ≤ leadingWritten (buf.set n (some b)) := by
  induction buf generalizing n with
  | nil => simp at hl
  | cons x buf ih =>
    cases n with
    | zero => cases x <;> simp [leadingWritten]
    | succ n =>
      cases x with
      | none => simp [leadingWritten] at hn
      | some v =>
        simp only [leadingWritten, List.length_cons, List.set_cons_succ] at *
        have := ih n (by omega) (by omega)
        omega

theorem leadingWritten_get (buf : List (Option Byte)) (n : Nat) (hn : n < leadingWritten buf) :
    ∃ v, buf[n]? = some (some v) := by
  induction buf generalizing n with
  | nil => simp [leadingWritten] at hn
  | cons x buf ih =>
    cases x with
    | none => simp [leadingWritten] at hn
    | some v =>
      cases n with
      | zero => exact ⟨v, rfl⟩
      | succ n =>
        simp only [leadingWritten] at hn
        exact ih n (by omega)

theorem keeps_payload (n : Nat) (s : State) (h : Steady s) (hp : (Prim.rxPayload n).safe s.cfg (knownOf s) = true) :
    Keeps (.rxPayload n) s (perform (.rxPayload n) s) := by
  simp only [Prim.safe, Bool.and_eq_true, decide_eq_true_eq] at hp
  obtain ⟨⟨hl, hc⟩, hn⟩ := hp
  have hc' : s.cnt ≤ leadingWritten s.buf := by simpa [knownOf] using hc
  have hb := h.buffer
  simp only [perform, payloadStep]
  by_cases hlt : s.cnt < n
  · rw [if_pos hlt]
    cases hq : s.rxq with
    | nil => rfl
    | cons b rest =>
      simp only
      have hset := leadingWritten_set s.buf s.cnt b hc' (by omega)
      have hcount : s.cnt + 1 < 65536 := by
        have := (counts_fit h.config).1
        omega
      have hI : Steady (takePayload b rest s) := (h.counting (s.cnt + 1) s.data hcount h.data).congr rfl rfl rfl
        (by simp [takePayload, log]) rfl rfl rfl rfl rfl rfl rfl rfl rfl
      split_ifs with h2
      · refine ⟨hI, rfl, rfl, ?_, ?_⟩
        · simp only [Prim.safe, Bool.and_eq_true, decide_eq_true_eq]
          refine ⟨⟨hl, ?_⟩, hn⟩
          simp only [knownOf, takePayload, log]
          exact decide_eq_true hset.2
        · refine ⟨id, id, id, ?_, rfl, rfl, id, ?_, id, id, le_refl _⟩
          · simp only [Prim.after, knownOf, takePayload, log]
            have := hset.1
            omega
          · intro _
            simp only [Prim.after, knownOf, takePayload, log]
            exact decide_eq_true hset.2
      · refine ⟨hI, rfl, ?_⟩
        refine ⟨id, id, id, ?_, rfl, rfl, id, ?_, id, id, le_refl _⟩
        · simp only [Prim.after, knownOf, takePayload, log]
          have := hset
          omega
        · intro _
          simp only [knownOf, takePayload, log]
          exact decide_eq_true hset.2
  · rw [if_neg hlt]
    refine ⟨h, rfl, id, id, id, ?_, rfl, rfl, id, id, id, id, le_refl _⟩
    simp only [Prim.after, knownOf]
    omega

theorem steady_txByte (b : Byte) (s : State) (h : Steady s) (hd : s.cfg.halfDuplex = true → s.de = true) :
    Steady (txByte b s) :=
  ⟨h.config, h.memory, h.staging, h.buffer, h.interrupts, h.unlock, h.busy, h.pending, fun h1 _ => hd h1, h.lines,
    h.count, h.data⟩

theorem drive_mode {s : State} (hp : (Prim.txData).safe s.cfg (knownOf s) = true) (h : s.cfg.halfDuplex = true) :
    s.de = true := by
  simp only [Prim.safe, h, Bool.and_eq_true] at hp
  exact hp.1.1

theorem keeps_data (s : State) (h : Steady s) (hp : (Prim.txData).safe s.cfg (knownOf s) = true) :
    Keeps .txData s (perform .txData s) := by
  have hd : s.cfg.halfDuplex = true → s.de = true := drive_mode hp
  simp only [perform, dataStep]
  cases hq : s.data[s.cnt]? with
  | none => exact ⟨h, rfl, id, id, id, le_refl _, rfl, rfl, by simp [Prim.after], by simp [Prim.after], id, id, le_refl _⟩
  | some b =>
    have hlt : s.cnt < s.data.length := (List.getElem?_eq_some_iff.1 hq).1
    have hI : Steady (txByte b { s with cnt := s.cnt + 1 }) :=
      steady_txByte b _ (h.counting (s.cnt + 1) s.data (by have := h.data; omega) h.data) hd
    simp only
    split_ifs
    · exact ⟨hI, rfl, rfl, hp, id, id, id, le_refl _, rfl, rfl, by simp [Prim.after], by simp [Prim.after], id, id, le_refl _⟩
    · exact ⟨hI, rfl, id, id, id, le_refl _, rfl, rfl, by simp [Prim.after], by simp [Prim.after], id, id, le_refl _⟩

theorem steady_issue (c : NvmCmd) (s : State) (h : Steady s) (hc : c.inRange s.cfg = true) : Steady (nvmIssue c s) :=
  ⟨h.config, h.memory, h.staging, h.buffer, h.interrupts, h.unlock, rfl, fun x hx => by cases hx; exact hc, h.driving, h.lines, h.count, h.data⟩

theorem listening_of {s : State} (h : (knownOf s).listening = true) : s.de = false ∧ s.rxdis = false := by
  simpa [Known.listening, knownOf] using h

theorem draw_keeps (s : State) (h : Steady s) : Steady (draw s).2 ∧ knownOf (draw s).2 = knownOf s ∧ (draw s).2.cfg = s.cfg ∧
    (draw s).2.todo = s.todo := by
  rw [draw_frame]
  exact ⟨h.congr rfl rfl rfl rfl rfl rfl rfl rfl rfl rfl rfl rfl rfl, rfl, rfl, rfl⟩

theorem pathSafe_acknowledge (c : Config) (k : Known) (hk : k.idle = true) : pathSafe c k (acknowledge c) = true := by
  unfold acknowledge
  rw [List.cons_append]
  exact pathSafe_bracket (fun p hp => by simp at hp; exact .inr ⟨_, hp⟩) hk hk

theorem keeps_leave (p : Prim) (s : State) (h : Steady s) (hk : (knownOf s).idle = true) : Keeps p s (leave s) := by
  refine ⟨h.congr rfl rfl rfl rfl rfl rfl rfl rfl rfl rfl rfl rfl rfl, rfl, ?_⟩
  exact hk

theorem keeps_pollByte (b : Byte) (s : State) (h : Steady s) (hp : (Prim.poll).safe s.cfg (knownOf s) = true) :
    Keeps .poll s (pollByte b s) := by
  unfold pollByte
  have h1 : Steady (rxPoll s) := h.congr rfl rfl rfl rfl rfl rfl rfl rfl rfl rfl rfl rfl rfl
  simp only [Prim.safe, Bool.and_eq_true] at hp
  split_ifs
  · exact ⟨h1.congr rfl rfl rfl rfl rfl rfl rfl rfl rfl rfl rfl rfl rfl, rfl, pathSafe_acknowledge _ _ hp.1⟩
  · refine ⟨h1, rfl, rfl, ?_, Known.le.refl _⟩
    simp only [Prim.safe, Bool.and_eq_true]
    exact hp

theorem Keeps.of_draw {p : Prim} {s : State} (h : Steady s) {e : Effect} (hk : Keeps p (draw s).2 e)
    (hw : ∀ s', e ≠ .wait s') : Keeps p s e := by
  obtain ⟨-, h2, h3, h4⟩ := draw_keeps s h
  cases e <;> simp only [Keeps, h2, h3, h4] at hk ⊢ <;> first | exact hk | (exact absurd rfl (hw _))

theorem keeps_poll (s : State) (h : Steady s) (hp : (Prim.poll).safe s.cfg (knownOf s) = true) :
    Keeps .poll s (perform .poll s) := by
  have hk : (knownOf s).idle = true := by
    simp only [Prim.safe, Bool.and_eq_true] at hp
    exact hp.1
  obtain ⟨d1, d2, d3, d4⟩ := draw_keeps s h
  simp only [perform, pollStep]
  cases s.rxq with
  | nil => simp only; split_ifs; exacts [keeps_leave _ s h hk, rfl]
  | cons b rest =>
    simp only
    split_ifs with h1 h2
    · refine Keeps.of_draw h (keeps_pollByte b _ d1 (by rw [d2, d3]; exact hp)) ?_
      intro s' hs
      unfold pollByte at hs
      split_ifs at hs
      exact absurd hs (by simp [stay])
    · exact Keeps.of_draw h (keeps_leave _ _ d1 (by rw [d2]; exact hk)) (by simp [leave])
    · exact keeps_pollByte b s h hp

theorem keeps_arbitrate (s : State) (h : Steady s) (hp : (Prim.arbitrate).safe s.cfg (knownOf s) = true) :
    Keeps .arbitrate s (perform .arbitrate s) := by
  have hp' := hp
  simp only [Prim.safe, Bool.and_eq_true] at hp'
  simp only [perform, arbitrate]
  cases s.cfg.entryVariant with
  | a =>
    simp only
    split_ifs
    · exact ⟨h.congr rfl rfl rfl rfl rfl rfl rfl rfl rfl rfl rfl rfl rfl, rfl, hp'.1⟩
    · exact keeps_leave _ s h hp'.1
  | b =>
    refine ⟨h.congr rfl rfl rfl rfl rfl rfl rfl rfl rfl rfl rfl rfl rfl, rfl, ?_⟩
    simp only [pathSafe, Prim.after, Prim.safe, Bool.and_eq_true]
    exact ⟨trivial, hp', hp'.1⟩

theorem echoByte_keeps (c : Bool) (s : State) (h : Steady s) : Steady (echoByte c s) ∧ (echoByte c s).cfg = s.cfg ∧
    knownOf (echoByte c s) = knownOf s := by
  obtain ⟨e, t, n, -, -, he⟩ := echoByte_frame c s
  rw [he]
  exact ⟨h.congr rfl rfl rfl rfl rfl rfl rfl rfl rfl rfl rfl rfl rfl, rfl, rfl⟩

@[simp] theorem length_leBytes (w n : Nat) : (leBytes w n).length = w := by
  induction w generalizing n with
  | zero => rfl
  | succ w ih => simp [leBytes, ih]

/-- What a fetch that has what it needs loads is as much as `Prim.after` says at most, and not more than `cnt` can
count. -/
theorem loaded_fits {s : State} {src : Source} (h : Steady s) (hp : (Prim.fetch src).safe s.cfg (knownOf s) = true) :
    (s.data ++ sourceBytes s src).length ≤ ((Prim.fetch src).after (knownOf s)).loaded ∧
      (s.data ++ sourceBytes s src).length ≤ 65535 := by
  obtain ⟨-, ha, he, hu, hm, hs, hf, hg, hw⟩ := counts_fit h.config
  have hgeo : s.cfg.geomFields.length * s.cfg.geomW ≤ 24 := by rw [hg]; omega
  cases src
  case page r => cases r <;> simp_all [Prim.safe, Prim.after, Known.index, knownOf, sourceBytes, NvMem.length_readBytes]
  all_goals simp_all [Prim.safe, Prim.after, knownOf, sourceBytes, le32, NvMem.length_readBytes]
  all_goals omega

theorem Prim.after_fetch {s : State} (src : Source) {d : List Byte}
    (h : d.length ≤ ((Prim.fetch src).after (knownOf s)).loaded) :
    ((Prim.fetch src).after (knownOf s)).le (knownOf { s with data := d }) := by
  cases src <;> exact ⟨id, id, id, le_refl _, rfl, rfl, id, id, id, id, h⟩

theorem keeps_perform (p : Prim) (s : State) (h : Steady s) (hp : p.safe s.cfg (knownOf s) = true) :
    Keeps p s (perform p s) := by
  cases p
  case rxPayload n => exact keeps_payload n s h hp
  case txData => exact keeps_data s h hp
  case poll => exact keeps_poll s h hp
  case arbitrate => exact keeps_arbitrate s h hp
  case goto l => exact ⟨h.congr rfl rfl rfl rfl rfl rfl rfl rfl rfl rfl rfl rfl rfl, rfl, Known.le.refl _⟩
  case fresh =>
    exact ⟨h.counting 0 [] (by omega) (by simp), rfl, id, id, id, le_refl _, rfl, rfl, id, by simp [knownOf], id, id,
      le_refl _⟩
  case wdtPet => exact ⟨h.congr rfl rfl rfl rfl rfl rfl rfl rfl rfl rfl rfl rfl rfl, rfl, Known.le.refl _⟩
  case rxOp => rfl
  case rxIdxHi =>
    simp only [perform]
    cases s.rxq with
    | nil => rfl
    | cons b rest => exact ⟨h.congr rfl rfl rfl rfl rfl rfl rfl rfl rfl rfl rfl rfl rfl, rfl, Known.le.refl _⟩
  case rxIdxLo =>
    simp only [perform]
    cases s.rxq with
    | nil => rfl
    | cons b rest =>
      exact ⟨h.congr rfl rfl rfl rfl rfl rfl rfl rfl rfl rfl rfl rfl rfl, rfl, id, by simp [Prim.after], by simp [Prim.after],
        le_refl _, rfl, rfl, id, id, id, id, le_refl _⟩
  case check r =>
    simp only [perform]
    split_ifs with hv
    · refine ⟨h, rfl, ?_⟩
      cases r
      · exact ⟨id, fun _ => hv, id, le_refl _, rfl, rfl, id, id, id, id, le_refl _⟩
      · exact Known.le.refl _
      · exact ⟨id, id, fun _ => hv, le_refl _, rfl, rfl, id, id, id, id, le_refl _⟩
      · exact Known.le.refl _
    · exact ⟨h, rfl, pathSafe_status hp⟩
  case stage k =>
    obtain ⟨v, hv⟩ := leadingWritten_get s.buf k (of_decide_eq_true hp)
    simp only [perform, bufAt, hv, Option.join_some]
    refine ⟨⟨h.config, h.memory, Cells.rising_set _ _ _ h.staging, h.buffer, h.interrupts, h.unlock, h.busy, h.pending, h.driving, h.lines, h.count, h.data⟩, rfl, ?_⟩
    exact ⟨id, id, id, le_refl _, rfl, rfl, id, id, by simp [Prim.after], id, le_refl _⟩
  case stageByte k v =>
    refine ⟨⟨h.config, h.memory, Cells.rising_set _ _ _ h.staging, h.buffer, h.interrupts, h.unlock, h.busy, h.pending, h.driving, h.lines, h.count, h.data⟩, rfl, ?_⟩
    exact ⟨id, id, id, le_refl _, rfl, rfl, id, id, by simp [Prim.after], id, le_refl _⟩
  case waitReady =>
    simp only [perform]
    by_cases hb : nvmReady s = true
    · rw [if_pos hb]
      exact ⟨h, rfl, by simpa [knownOf, Prim.after, nvmReady] using hb, id, id, le_refl _, rfl, rfl, id, id, id, id, le_refl _⟩
    · rw [if_neg hb]; rfl
  case issue c =>
    simp only [Prim.safe, Bool.and_eq_true] at hp
    have hb : s.nvmBusy = false := by simpa [knownOf] using hp.1
    simp only [perform, tryIssue, hb, hp.2, if_true, if_false, Bool.false_eq_true]
    refine ⟨steady_issue c s h hp.2, rfl, by simp [Prim.after], id, id, le_refl _, rfl, rfl, id, id, by simp [Prim.after, knownOf, nvmIssue, log], id, le_refl _⟩
  case issuePage x =>
    have hb : s.nvmBusy = false ∧ (x.command s.idx).inRange s.cfg = true := by
      cases x <;> simp only [Prim.safe, Bool.and_eq_true, knownOf, validIndex] at hp <;>
        exact ⟨by simpa using hp.1, hp.2⟩
    simp only [perform, tryIssue, hb.1, hb.2, if_true, if_false, Bool.false_eq_true]
    refine ⟨steady_issue _ s h hb.2, rfl, by simp [Prim.after], id, id, le_refl _, rfl, rfl, id, id, by simp [Prim.after, knownOf, nvmIssue, log], id, le_refl _⟩
  case fetch src =>
    have hr : sourceInRange s src = true := by
      cases src <;> simp only [sourceInRange]
      rename_i r
      cases r <;> simp_all [Prim.safe, Known.index, knownOf]
    have hl := loaded_fits h hp
    simp only [perform, hr, if_true]
    refine ⟨h.counting s.cnt _ h.count (by have := hl.2; omega), rfl, ?_⟩
    exact Prim.after_fetch src hl.1
  case txByte b =>
    exact ⟨steady_txByte b s h (drive_mode hp), rfl, id, id, id, le_refl _, rfl, rfl, by simp [Prim.after], id, id, id, le_refl _⟩
  case txWaitComplete =>
    simp only [perform]
    by_cases hb : txComplete s = true
    · rw [if_pos hb]
      exact ⟨h, rfl, id, id, id, le_refl _, rfl, rfl, fun _ => hb, id, id, id, le_refl _⟩
    · rw [if_neg hb]; rfl
  case setDE v =>
    simp only [Prim.safe, Bool.and_eq_true, Bool.or_eq_true] at hp
    refine ⟨⟨h.config, h.memory, h.staging, h.buffer, h.interrupts, h.unlock, h.busy, h.pending, ?_, ?_,
      h.count, h.data⟩, rfl,
      id, id, id, le_refl _, rfl, rfl, id, id, id, id, le_refl _⟩
    · intro _ h2
      rcases hp.2 with hv | hv
      · exact hv
      · exact absurd (by simpa [knownOf] using hv) h2
    · intro h1
      rw [show (setDE v s).cfg = s.cfg from rfl, hp.1] at h1
      cases h1
  case setRxDis v =>
    simp only [Prim.safe] at hp
    refine ⟨⟨h.config, h.memory, h.staging, h.buffer, h.interrupts, h.unlock, h.busy, h.pending, h.driving, ?_,
      h.count, h.data⟩, rfl,
      id, id, id, le_refl _, rfl, rfl, id, id, id, id, le_refl _⟩
    intro h1
    rw [show (setRxDis v s).cfg = s.cfg from rfl, hp] at h1
    cases h1
  case delay d => exact ⟨h.congr rfl rfl rfl rfl rfl rfl rfl rfl rfl rfl rfl rfl rfl, rfl, Known.le.refl _⟩
  case echo c =>
    obtain ⟨h1, h2, h3⟩ := echoByte_keeps c s h
    exact ⟨h1, h2, by rw [h3]; exact Known.le.refl _⟩
  case rxPoll => exact ⟨h.congr rfl rfl rfl rfl rfl rfl rfl rfl rfl rfl rfl rfl rfl, rfl, Known.le.refl _⟩
  case timerStop => exact ⟨h.congr rfl rfl rfl rfl rfl rfl rfl rfl rfl rfl rfl rfl rfl, rfl, Known.le.refl _⟩
  case protectedWrite r v =>
    simp only [perform, h.interrupts, Bool.false_eq_true, if_false]
    exact ⟨h.congr rfl rfl rfl rfl (by exact h.interrupts.symm ▸ rfl) (by simp [log, h.unlock]) rfl rfl rfl
      rfl rfl rfl rfl, rfl, Known.le.refl _⟩
  case clearGie => exact ⟨h.congr rfl rfl rfl rfl h.interrupts.symm rfl rfl rfl rfl rfl rfl rfl rfl, rfl, Known.le.refl _⟩
  case selectAppTable => exact ⟨h.congr rfl rfl rfl rfl rfl rfl rfl rfl rfl rfl rfl rfl rfl, rfl, Known.le.refl _⟩
  case cleanExtAddr => exact ⟨h.congr rfl rfl rfl rfl rfl rfl rfl rfl rfl rfl rfl rfl rfl, rfl, Known.le.refl _⟩
  case jumpToApp => exact ⟨h.congr rfl rfl rfl rfl rfl rfl rfl rfl rfl rfl rfl rfl rfl, rfl, Known.le.refl _⟩

end Sys2Proof.Machine
end

