-- ==== Sys2Proof/Laws/Ending.lean ====
section
/-! SUPPORT. A path comes to `RESETTING` only as its last action (`endsAt`): what this asks of appended paths, that the path
of every instruction has it, and that performing a primitive leaves it to the rest of the path. -/

namespace Sys2Proof.Machine

/-- No primitive of the path goes to `RESETTING`. -/
def Prim.stays (p : Prim) : Prop := p ≠ .goto .resetting

theorem endsAt_cons {l : Seq} {p : Prim} {ps : List Prim} (h : endsAt l (p :: ps) = true) : l ≠ .resetting := by
  rintro rfl
  cases p <;> simp [endsAt] at h

/-- From a label that is not `RESETTING`, a path ends well whatever the label. -/
theorem endsAt_any {l l' : Seq} {ps : List Prim} (hl : l' ≠ .resetting) (h : endsAt l ps = true) : endsAt l' ps = true := by
  induction ps with
  | nil => rfl
  | cons p ps ih =>
    cases p <;> simp only [endsAt, Bool.and_eq_true, bne_iff_ne, ne_eq] at h ⊢ <;>
      first | exact ⟨hl, h.2⟩ | exact ⟨hl, ih h.2⟩

theorem endsAt_append {l : Seq} {ps qs : List Prim} (hl : l ≠ .resetting) (hp : ∀ p ∈ ps, p.stays)
    (hq : ∀ l', l' ≠ .resetting → endsAt l' qs = true) : endsAt l (ps ++ qs) = true := by
  induction ps generalizing l with
  | nil => exact hq l hl
  | cons p ps ih =>
    have hps : ∀ p ∈ ps, p.stays := fun p h => hp p (by simp [h])
    have hp := hp p (by simp)
    cases p
    case goto l' =>
      simp only [List.cons_append, endsAt, Bool.and_eq_true, bne_iff_ne, ne_eq]
      exact ⟨hl, ih (fun h => hp (by rw [h])) hps⟩
    all_goals
      simp only [List.cons_append, endsAt, Bool.and_eq_true, bne_iff_ne, ne_eq]
      exact ⟨hl, ih hl hps⟩

theorem endsAt_of_stays {l : Seq} {ps : List Prim} (hl : l ≠ .resetting) (hp : ∀ p ∈ ps, p.stays) :
    endsAt l ps = true := by
  simpa using endsAt_append (qs := []) hl hp fun _ _ => rfl

theorem stays_append {ps qs : List Prim} (hp : ∀ p ∈ ps, p.stays) (hq : ∀ p ∈ qs, p.stays) : ∀ p ∈ ps ++ qs, p.stays := by
  intro p h
  rcases List.mem_append.1 h with h | h
  · exact hp p h
  · exact hq p h

theorem stays_bracket (c : Config) (body : List Prim) (hb : ∀ p ∈ body, p.stays) : ∀ p ∈ bracket c body, p.stays := by
  refine stays_append (stays_append ?_ hb) ?_
  · unfold txBegin
    split_ifs <;> simp [Prim.stays]
  · unfold txEnd
    split_ifs
    · refine stays_append (stays_append (by simp [Prim.stays]) ?_) ?_ <;>
        (intro p h; rw [List.eq_of_mem_replicate h]; simp [Prim.stays])
    · simp

theorem stays_replyStatus (c : Config) (b : Byte) : ∀ p ∈ replyStatus c b, p.stays := by
  intro p h
  rcases List.mem_cons.1 h with rfl | h
  · simp [Prim.stays]
  · exact stays_bracket c _ (by simp [Prim.stays]) p h

theorem stays_replyData (c : Config) (bs : List Byte) : ∀ p ∈ replyData c bs, p.stays := by
  intro p h
  rcases List.mem_cons.1 h with rfl | h
  · simp [Prim.stays]
  · exact stays_bracket c _ (stays_append (by simp [Prim.stays]) (by simp [Prim.stays])) p h

theorem stays_acknowledge (c : Config) : ∀ p ∈ acknowledge c, p.stays := by
  refine stays_append ?_ (by simp [Prim.stays])
  intro p h
  rcases List.mem_cons.1 h with rfl | h
  · simp [Prim.stays]
  · exact stays_bracket c _ (by simp [Prim.stays]) p h

theorem stays_stagePage (n : Nat) : ∀ p ∈ stagePage n, p.stays := by
  intro p h
  obtain ⟨k, -, rfl⟩ := List.mem_map.1 h
  simp [Prim.stays]

theorem endsAt_pathOf (c : Config) (i : Instr) {l : Seq} (hl : l ≠ .resetting) : endsAt l (pathOf c i) = true := by
  cases i
  case reset =>
    refine endsAt_append hl (stays_replyStatus c _) fun l' h => ?_
    simp [endsAt, h]
  case nop => rfl
  case unknown => rfl
  case writePage =>
    refine endsAt_of_stays hl (stays_append (stays_append (stays_append (stays_append (stays_append (stays_append ?_ ?_) ?_)
      ?_) ?_) ?_) (stays_replyStatus c _))
    · simp [readIndex, Prim.stays]
    · simp [checkIndex, Prim.stays]
    · unfold earlyAck
      split_ifs
      · exact stays_replyStatus c _
      · simp
    · simp [readPayload, Prim.stays]
    · simp [Prim.stays]
    · exact stays_append (stays_stagePage _) (by simp [Prim.stays])
  case writeEeprom =>
    refine endsAt_of_stays hl (stays_append (stays_append (stays_append (stays_append (stays_append ?_ ?_) ?_)
      ?_) ?_) (stays_replyStatus c _))
    · simp [readIndex, Prim.stays]
    · simp [checkIndex, Prim.stays]
    · simp [readPayload, Prim.stays]
    · simp [Prim.stays]
    · exact stays_append (stays_stagePage _) (by simp [Prim.stays])
  case writeUsersig =>
    refine endsAt_of_stays hl (stays_append (stays_append (stays_append ?_ ?_) ?_) (stays_replyStatus c _))
    · simp [readPayload, Prim.stays]
    · simp [Prim.stays]
    · exact stays_append (stays_stagePage _) (by simp [Prim.stays])
  case eraseApp => exact endsAt_of_stays hl (stays_append (by simp [flashEraseApp, Prim.stays]) (stays_replyStatus c _))
  case eraseUsersig => exact endsAt_of_stays hl (stays_append (by simp [userSigErase, Prim.stays]) (stays_replyStatus c _))
  case readPage =>
    exact endsAt_of_stays hl (stays_append (by simp [readIndex, checkIndex, Prim.stays]) (stays_replyData c _))
  case readEeprom =>
    exact endsAt_of_stays hl (stays_append (by simp [readIndex, checkIndex, Prim.stays]) (stays_replyData c _))
  all_goals exact endsAt_of_stays hl (stays_append (by simp [Prim.stays]) (stays_replyData c _))

/-- What performing a primitive leaves to the rest of the path. -/
def Ends (p : Prim) (ps : List Prim) : Effect → Prop
  | .done s' => endsAt s'.seq ps = true
  | .again s' => endsAt s'.seq (p :: ps) = true
  | .wait s' => endsAt s'.seq (p :: ps) = true
  | .turn path s' => endsAt s'.seq path = true
  | .fault _ => True

theorem draw_seq (s : State) : (draw s).2.seq = s.seq := by rw [draw_frame]; rfl

theorem echoByte_seq (c : Bool) (s : State) : (echoByte c s).seq = s.seq := by
  obtain ⟨e, t, n, -, -, h⟩ := echoByte_frame c s
  rw [h]
  rfl

theorem ends_pollByte (b : Byte) (s : State) (ps : List Prim) (h : endsAt s.seq (.poll :: ps) = true) :
    Ends .poll ps (pollByte b s) := by
  unfold pollByte
  split_ifs
  · exact endsAt_of_stays (endsAt_cons h) (stays_acknowledge _)
  · exact h

theorem ends_perform (p : Prim) (ps : List Prim) (s : State) (h : endsAt s.seq (p :: ps) = true) :
    Ends p ps (perform p s) := by
  have hl := endsAt_cons h
  have hleave : ∀ l, l ≠ .resetting → endsAt l jumpToApp = true := fun l hl =>
    endsAt_of_stays hl (by simp [jumpToApp, Prim.stays])
  cases p <;> simp only [perform]
  case goto l => simp only [endsAt, Bool.and_eq_true] at h; exact h.2
  case arbitrate =>
    unfold arbitrate
    split
    · split_ifs
      · rfl
      · exact hleave _ hl
    · exact endsAt_of_stays hl (by simp [Prim.stays])
  case poll =>
    unfold pollStep
    split
    · split_ifs
      · exact hleave _ hl
      · exact h
    · split_ifs
      · simp only
        split_ifs
        · exact ends_pollByte _ _ ps (by rw [draw_seq]; exact h)
        · exact hleave _ (by rw [draw_seq]; exact hl)
      · exact ends_pollByte _ _ ps h
  case rxOp => exact h
  case check r =>
    split_ifs
    · simp only [endsAt, Bool.and_eq_true] at h; exact h.2
    · exact endsAt_of_stays hl (stays_replyStatus _ _)
  case rxPayload n =>
    have h' := h
    simp only [endsAt, Bool.and_eq_true] at h'
    unfold payloadStep
    repeat' split
    all_goals first | exact h'.2 | exact h
  case txData =>
    have h' := h
    simp only [endsAt, Bool.and_eq_true] at h'
    unfold dataStep
    split
    · exact h'.2
    · simp only
      split_ifs
      · exact h
      · exact h'.2
  case jumpToApp =>
    simp only [endsAt, Bool.and_eq_true] at h
    exact endsAt_any (by simp [log]) h.2
  case echo c =>
    simp only [endsAt, Bool.and_eq_true] at h
    simp only [Ends, echoByte_seq]
    exact h.2
  all_goals
    have h' := h
    simp only [endsAt, Bool.and_eq_true] at h'
    try unfold tryIssue
    repeat' split
    all_goals first | exact h'.2 | exact h | trivial

end Sys2Proof.Machine
end

