-- ==== Sys2Proof/Laws/Host.lean ====
section
/-! SUPPORT. What a step does away from a fetch, with no move scheduled; and what the moves of the host do, said once. -/

namespace Sys2Proof.Machine

/-! ### A step away from a fetch -/

/-- The control path in hand goes on. -/
theorem step_path {s : State} {p : Prim} {ps : List Prim} (hc : s.cfg.wf = true) (hs : s.sched = [])
    (ht : s.todo = p :: ps) (hf : fetchByte s = none) (hb : blocked s = false) : step s = runCommand (p :: ps) s := by
  cases s
  subst hs ht
  rw [step, if_pos hc]
  simp only [hf, advance, hb, Bool.false_eq_true, if_false]

/-- The sequencer is blocked, and another agent moves. -/
theorem step_blocked {s : State} {p : Prim} {ps : List Prim} (hc : s.cfg.wf = true) (hs : s.sched = [])
    (ht : s.todo = p :: ps) (hf : fetchByte s = none) (hb : blocked s = true) : step s = .next (othersMove s) := by
  cases s
  subst hs ht
  rw [step, if_pos hc]
  simp only [hf, advance, hb, if_true]

/-- At the top of the loop with nothing received the watchdog is petted and the block waits for a byte. -/
theorem step_loopTop {s : State} (hc : s.cfg.wf = true) (hs : s.sched = []) (ht : s.todo = loopTop) (hq : s.rxq = []) :
    step s = .next { s with todo := [.rxOp], trace := s.trace ++ [.wdtPet] } := by
  rw [step_path hc hs ht (by simp [fetchByte, ht, loopTop, hq]) (by simp [blocked, ht, loopTop])]
  rfl

/-- Waiting for a byte with the controller idle, the block lets the oldest queued byte leave. -/
theorem step_drains {s : State} {b : Byte} {rest : List Byte} (hc : s.cfg.wf = true) (hs : s.sched = [])
    (ht : s.todo = [.rxOp]) (hq : s.rxq = []) (hn : s.nvmBusy = false) (hx : s.txq = b :: rest) :
    step s = .next { s with txq := rest, wireOut := s.wireOut ++ [b], trace := s.trace ++ [.tx b] } := by
  rw [step_blocked hc hs ht (by simp [fetchByte, ht, hq]) (by simp [blocked, ht, hq])]
  simp [othersMove, hn, hx, utxMove, log]

/-! ### The moves of the host -/

/-- On a free bus a byte sent arrives (R260, R250). -/
theorem hostMove_send {s : State} (b : Byte) (hr : s.seq ≠ .resetting) (hb : busBusy s = false) :
    hostMove (.send b) s = { s with rxq := s.rxq ++ [b] } := by
  simp [hostMove, applyMove, hr, hostSend, hb]

/-- On a free bus a frame sent arrives whole. -/
theorem sendFrame_free {s : State} (f : Frame) (hr : s.seq ≠ .resetting) (hb : busBusy s = false) :
    sendFrame f s = { s with rxq := s.rxq ++ encodeFrame s.cfg f } := by
  have key : ∀ (bs : List Byte) (s : State), s.seq ≠ .resetting → busBusy s = false →
      bs.foldl (fun t b => hostMove (.send b) t) s = { s with rxq := s.rxq ++ bs } := by
    intro bs
    induction bs with
    | nil => intro s _ _; simp
    | cons b bs ih =>
      intro s hr hb
      rw [List.foldl_cons, hostMove_send b hr hb]
      exact (ih _ (by exact hr) (by exact hb)).trans (by simp)
  exact key _ s hr hb

/-- `resets` says which moves reset the block. -/
theorem applyMove_resets {s : State} {m : Move} (h : resets s m = true) :
    ∃ cause, m = .reset cause ∧ applyMove m s = .next (applyReset cause s) := by
  cases m with
  | reset cause =>
    refine ⟨cause, rfl, ?_⟩
    by_cases hr : s.seq = .resetting
    · simp only [resets, hr, if_true, decide_eq_true_eq] at h
      simp [applyMove, hr, h]
    · simp only [resets, hr, if_false] at h
      simp [applyMove, hr, h]
  | _ => simp [resets] at h

/-- A reply that will not come stays so: short of a reset no move pays for it, an acknowledgement least of all. -/
theorem HostView.after_never {s t : State} {m : Move} {v : HostView} (h : v.reply = .never) (hs : sends s m = none)
    (hr : resets s m = false) : (v.after s t m).reply = .never := by
  simp [HostView.after, hs, hr, h, Reply.follow]

/-- With the reply to the last command frame not received, no command frame is begun (R262(a)). -/
theorem dutyA_unreceived {s : State} {m : Move} {v : HostView} (h : v.reply.received s = false) (hr : v.rest = [])
    (h1 : v.inStep1 = false) (hs : (sends s m).isSome = true) : dutyA s v m = false := by
  cases hm : sends s m with
  | none => simp [hm] at hs
  | some b => simp [dutyA, HostView.received, hm, h, hr, h1]

/-- `Recv` with a byte unseen. -/
theorem hostMove_recv {s : State} (hr : s.seq ≠ .resetting) (h : s.hostRead < s.wireOut.length) :
    hostMove .recv s = { s with hostRead := s.hostRead + 1 } := by
  simp [hostMove, applyMove, hr, hostRecv]
  omega

/-- With everything seen, one byte more on the wire is the one unseen byte. -/
theorem unseen_one {s : State} {w : List Byte} {b : Byte} (hw : s.wireOut = w ++ [b]) (h : s.hostRead = w.length) :
    unseen s = [b] := by
  simp [unseen, hw, h]

/-- With an unseen byte `Recv` sees it. -/
theorem receive_seen {s : State} {b : Byte} {bs : List Byte} (hr : s.seq ≠ .resetting) (h : unseen s = b :: bs) :
    receive s = (some b, { s with hostRead := s.hostRead + 1 }) := by
  have hl : s.hostRead < s.wireOut.length := by
    by_contra hn
    simp [unseen, List.drop_eq_nil_of_le (not_lt.1 hn)] at h
  simp [receive, hostMove_recv hr hl, h]

/-- With none it sees none. -/
theorem receive_none {s : State} (h : unseen s = []) : (receive s).1 = none := by
  simp [receive, h]

/-- With an unseen byte the host takes it and the block does not move. -/
theorem await_seen {s : State} {b : Byte} {bs : List Byte} (n : Nat) (hr : s.seq ≠ .resetting) (h : unseen s = b :: bs) :
    await n s = (some b, { s with hostRead := s.hostRead + 1 }) := by
  cases n <;> simp [await, receive_seen hr h]

/-- With none the block makes a step. -/
theorem await_step {s t : State} (n : Nat) (h : unseen s = []) (hs : step s = .next t) :
    await (n + 1) s = await n t := by
  simp [await, receive_none h, hs]

end Sys2Proof.Machine
end

