-- ==== Sys2Proof/Laws/PerInstr.lean ====
section
/-! SUPPORT. The statement made for every instruction, one lemma a constructor: an instruction with a row of its own
stands in the opcode map beside its opcode byte, and no other does. -/

namespace Sys2Proof.Laws.OpcodeRow

/-- The row of an instruction (30_encoding.md R107, R110): the opcode map holds its byte with it exactly if the
instruction is not the default case. -/
def Statement (i : Instr) : Prop :=
  ∀ c : Config, (opcodeOf c i, i) ∈ opcodeRows c ↔ ∀ b, i ≠ .unknown b

theorem eraseApp : Statement .eraseApp := fun c => by simp [opcodeRows, opcodeOf]
theorem writePage : Statement .writePage := fun c => by simp [opcodeRows, opcodeOf]
theorem readPage : Statement .readPage := fun c => by simp [opcodeRows, opcodeOf]
theorem readCrc : Statement .readCrc := fun c => by simp [opcodeRows, opcodeOf]
theorem readMcuId : Statement .readMcuId := fun c => by simp [opcodeRows, opcodeOf]
theorem readSerial : Statement .readSerial := fun c => by simp [opcodeRows, opcodeOf]
theorem readVersion : Statement .readVersion := fun c => by simp [opcodeRows, opcodeOf]
theorem reset : Statement .reset := fun c => by simp [opcodeRows, opcodeOf]
theorem readFuses : Statement .readFuses := fun c => by simp [opcodeRows, opcodeOf]
theorem readEeprom : Statement .readEeprom := fun c => by simp [opcodeRows, opcodeOf]
theorem writeEeprom : Statement .writeEeprom := fun c => by simp [opcodeRows, opcodeOf]
theorem eraseUsersig : Statement .eraseUsersig := fun c => by simp [opcodeRows, opcodeOf]
theorem readUsersig : Statement .readUsersig := fun c => by simp [opcodeRows, opcodeOf]
theorem writeUsersig : Statement .writeUsersig := fun c => by simp [opcodeRows, opcodeOf]
theorem readGeometry : Statement .readGeometry := fun c => by simp [opcodeRows, opcodeOf]
theorem nop : Statement .nop := fun c => by simp [opcodeRows, opcodeOf]
theorem unknown (b : Byte) : Statement (.unknown b) := fun c => by simp [opcodeRows, opcodeOf]

end Sys2Proof.Laws.OpcodeRow
end

