-- ==== Sys2Proof/Tests/Slice0.lean ====
section
/-! SUPPORT. The tests: what the well-formedness checks refuse; words and frames written out from 30_encoding.md; the
vectors of 95_test_vectors.md, one step each; and for every statement with hypotheses a state that meets them. -/

namespace Sys2Proof.Tests

open Sys2Proof Sys2Proof.Machine

set_option Elab.async false

/-! ### Well-formedness: an ill-formed term for each check -/

theorem test_wf_pages : ({ Config.tiny with app := ⟨0, 15, 4⟩ } : Config).pagesOk = false := by decide
theorem test_wf_pages_zero : ({ Config.tiny with boot := ⟨0x10, 8, 0⟩ } : Config).pagesOk = false := by decide
theorem test_wf_buffer : ({ Config.tiny with bufSize := 5 } : Config).bufferOk = false := by decide
theorem test_wf_opcodes :
    ({ Config.tiny with ops := { Config.referenceOpcodes with reset := 0x01 } } : Config).opcodesOk = false := by decide
theorem test_wf_nop : ({ Config.tiny with nopByte := 0x0F } : Config).opcodesOk = false := by decide
theorem test_wf_status_equal : ({ Config.tiny with stFail := 0x4F } : Config).statusOk = false := by decide
theorem test_wf_status_ascii : ({ Config.tiny with stOk := 0x80 } : Config).statusOk = false := by decide
theorem test_wf_counts : ({ Config.tiny with app := ⟨0, 65536, 65536⟩ } : Config).countsOk = false := by decide +kernel
theorem test_wf_indices : ({ Config.tiny with app := ⟨0, 65537, 1⟩ } : Config).indicesOk = false := by decide +kernel
theorem test_wf_row : ({ Config.tiny with us := ⟨0, 8, 4⟩ } : Config).rowOk = false := by decide
theorem test_wf_width : ({ Config.tiny with geomW := 2 } : Config).widthOk = false := by decide
theorem test_wf_width_legacy : ({ Config.tiny with protocol := .legacy } : Config).widthOk = false := by decide
theorem test_wf_fields_count :
    ({ Config.tiny with geomFields := Config.referenceFields.tail } : Config).fieldsOk = false := by decide
theorem test_wf_fields_size :
    ({ Config.tiny with geomW := 2, app := ⟨0, 65536, 4⟩ } : Config).fieldsOk = false := by decide +kernel
theorem test_wf_echo : ({ Config.tiny with echoMax := 3 } : Config).echoOk = false := by decide
theorem test_wf_echo_zero : ({ Config.tiny with echoMax := 0 } : Config).echoOk = false := by decide
theorem test_wf_mcu_id : ({ Config.tiny with mcuId := [1, 2, 3] } : Config).constantsOk = false := by decide
theorem test_wf_serial : ({ Config.tiny with serial := [] } : Config).constantsOk = false := by decide

theorem test_wf_fuses :
    ({ Config.tiny with fuses := List.replicate 65536 0 } : Config).constantsOk = false := by
  have h : ¬ (List.replicate 65536 (0 : Byte)).length ≤ 65535 := by
    rw [List.length_replicate]; decide
  simp only [Config.constantsOk, h, decide_false, Bool.and_false]

/-- A configuration that fails one check is refused as a whole. -/
theorem test_wf_whole : ({ Config.tiny with bufSize := 5 } : Config).wf = false := by decide +kernel

theorem test_instr_opcode_is_not_unknown : (Instr.unknown 0x01).wf Config.tiny = false := by decide
theorem test_instr_nop_is_not_unknown : (Instr.unknown 0x00).wf Config.tiny = false := by decide
theorem test_instr_unknown : (Instr.unknown 0x10).wf Config.tiny = true := by decide

theorem test_frame_f0_of_indexed : (Frame.f0 .readPage).wf Config.tiny = false := by decide
theorem test_frame_f0_unknown_opcode : (Frame.f0 (.unknown 0x08)).wf Config.tiny = false := by decide
theorem test_frame_fi_of_plain : (Frame.fi .nop 0).wf Config.tiny = false := by decide
theorem test_frame_fip_short : (Frame.fip .writePage 3 [1, 2, 3]).wf Config.tiny = false := by decide
theorem test_frame_fip_payload_after_bad_index : (Frame.fip .writePage 4 [1, 2, 3, 4]).wf Config.tiny = false := by
  decide
theorem test_frame_fip_of_plain : (Frame.fip .reset 0 []).wf Config.tiny = false := by decide
theorem test_frame_fp_long : (Frame.fp .writeUsersig [1, 2, 3, 4, 5]).wf Config.tiny = false := by decide
theorem test_frame_fp_of_indexed : (Frame.fp .writePage [1, 2, 3, 4]).wf Config.tiny = false := by decide

/-! ### Decoding: the words of 30_encoding.md R107 with the reference values of D3, bit by bit -/

theorem test_decode_erase_app : decodeOp Config.tiny 0b00000001 = .eraseApp := by decide
theorem test_decode_write_page : decodeOp Config.tiny 0b00000010 = .writePage := by decide
theorem test_decode_read_page : decodeOp Config.tiny 0b00000011 = .readPage := by decide
theorem test_decode_read_crc : decodeOp Config.tiny 0b00000100 = .readCrc := by decide
theorem test_decode_read_mcu_id : decodeOp Config.tiny 0b00000101 = .readMcuId := by decide
theorem test_decode_read_serial : decodeOp Config.tiny 0b00000110 = .readSerial := by decide
theorem test_decode_read_version : decodeOp Config.tiny 0b00000111 = .readVersion := by decide
theorem test_decode_reset : decodeOp Config.tiny 0b00001000 = .reset := by decide
theorem test_decode_read_fuses : decodeOp Config.tiny 0b00001001 = .readFuses := by decide
theorem test_decode_read_eeprom : decodeOp Config.tiny 0b00001010 = .readEeprom := by decide
theorem test_decode_write_eeprom : decodeOp Config.tiny 0b00001011 = .writeEeprom := by decide
theorem test_decode_erase_usersig : decodeOp Config.tiny 0b00001100 = .eraseUsersig := by decide
theorem test_decode_read_usersig : decodeOp Config.tiny 0b00001101 = .readUsersig := by decide
theorem test_decode_write_usersig : decodeOp Config.tiny 0b00001110 = .writeUsersig := by decide
theorem test_decode_read_geometry : decodeOp Config.tiny 0b00001111 = .readGeometry := by decide
theorem test_decode_nop : decodeOp Config.tiny 0b00000000 = .nop := by decide
theorem test_decode_unknown : decodeOp Config.tiny 0b10101010 = .unknown 0xAA := by decide

/-- The frame of vector S1: WRITE_PAGE 1 with DE AD BE EF, index high byte first. -/
theorem test_decode_frame_write_page :
    decodeFrame Config.tiny [0x02, 0x00, 0x01, 0xDE, 0xAD, 0xBE, 0xEF, 0x07]
      = .ok (.fip .writePage 1 [0xDE, 0xAD, 0xBE, 0xEF], [0x07]) := by rfl

/-- After an index out of range no payload belongs to the frame (R111). -/
theorem test_decode_frame_bad_index :
    decodeFrame Config.tiny [0x0B, 0x00, 0x04, 0x12, 0x34] = .ok (.fip .writeEeprom 4 [], [0x12, 0x34]) := by rfl

/-- A frame cut short holds no whole frame. -/
theorem test_decode_frame_short : decodeFrame Config.tiny [0x0E, 1, 2, 3] = .error .cutShort := by rfl

/-- The encoding helpers of 95_test_vectors.md. -/
theorem test_byte_orders :
    be16 0x0001 = [0x00, 0x01] ∧ be16 0x0100 = [0x01, 0x00] ∧ le16 32 = [0x20, 0x00] ∧ le16 11 = [0x0B, 0x00] ∧
      le32 0x11223344 = [0x44, 0x33, 0x22, 0x11] ∧ leBytes 2 2048 = [0x00, 0x08] ∧
      leBytes 4 2048 = [0x00, 0x08, 0x00, 0x00] ∧ leBytes 4 16 = [0x10, 0x00, 0x00, 0x00] := by decide

/-! ### States for the vectors -/

/-- A region holding the bytes given, from offset 0. -/
def regionOf (bs : List Byte) : Memory := bs.zipIdx.map fun x => (x.2, x.1)

/-- The memory of the vectors: AA in the application, E0 .. E7 in the EEPROM, 55 in the row, B0 .. B7 in Boot Flash. -/
def vectorMem : NvMem where
  app := regionOf (List.replicate 16 0xAA)
  boot := regionOf [0xB0, 0xB1, 0xB2, 0xB3, 0xB4, 0xB5, 0xB6, 0xB7]
  ee := regionOf [0xE0, 0xE1, 0xE2, 0xE3, 0xE4, 0xE5, 0xE6, 0xE7]
  us := regionOf [0x55, 0x55, 0x55, 0x55]

/-- TINYCFG with the legacy protocol and Variant A. -/
def tinyLegacy : Config := { Config.tiny with protocol := .legacy, geomW := 2, entryVariant := .a }

/-- TINYCFG with two acknowledgements (R115). -/
def tinyEarly : Config := { Config.tiny with ackMode := .earlyAndFinal }

/-- The device in the command loop with the bytes given received. The tape gives the echoes of the drive-to-listen
switches: one echo byte 0xEC each. -/
def atLoop (c : Config) (rx : List Byte) : State :=
  { State.resetOf c with
    seq := .fetch, todo := loopTop, entry := .bootloader, mem := vectorMem, rxq := rx,
    tape := [0xEC, 0x00, 0xEE, 0xEC, 0x00, 0xEE] }

/-- A value of the next state. -/
def after {α : Type} (f : State → α) (r : Result) : Option α :=
  match r with
  | .next t => some (f t)
  | .fault _ => none
  | .refused _ => none

/-- The bytes sent, and whether the device is again at the top of the loop with nothing received. -/
def reply (t : State) : List Byte × Bool := (sent t, decide (t.seq = .fetch ∧ t.todo = loopTop ∧ t.rxq = []))

/-- What a region reads as. -/
def contents (r : Region) (t : State) : List Byte := t.mem.readBytes r 0 (t.cfg.size r)

/-! ### The vectors of 95_test_vectors.md, one step each -/

/-- FL1 from a written region, and the reply. -/
theorem test_erase_app :
    after (fun t => (reply t, contents .app t)) (step (atLoop Config.tiny [0x01]))
      = some (([0x4F], true), List.replicate 16 0xFF) := by decide +kernel

/-- T1: WRITE_PAGE 1 with one echo byte: the reply, the region and the whole trace. -/
theorem test_write_page :
    after (fun t => (reply t, contents .app t, t.trace))
      (step (atLoop Config.tiny [0x02, 0x00, 0x01, 0xDE, 0xAD, 0xBE, 0xEF])) = some
      (([0x4F], true), List.replicate 4 0xAA ++ [0xDE, 0xAD, 0xBE, 0xEF] ++ List.replicate 8 0xAA,
        [.wdtPet, .rx 0x02, .rx 0x00, .rx 0x01, .rx 0xDE, .rx 0xAD, .rx 0xBE, .rx 0xEF,
          .stage 0 0xDE, .stage 1 0xAD, .stage 2 0xBE, .stage 3 0xEF,
          .issue (.flashWritePage 1), .done (.flashWritePage 1),
          .de true, .rxdis true, .delay .driveSettle, .txq 0x4F, .tx 0x4F, .de false, .rxdis false,
          .delay .listenSettle, .rx 0xEC]) := by decide +kernel

/-- FL15: the early acknowledgement comes before any payload byte. -/
theorem test_write_page_early :
    after (fun t => (sent t, t.seq, t.cnt)) (step (atLoop tinyEarly [0x02, 0x00, 0x01]))
      = some ([0x4F], .payload, 0) := by decide +kernel

/-- FL8: the status, the count low byte first, the page. -/
theorem test_read_page :
    after reply (step (atLoop Config.tiny [0x03, 0x00, 0x03])) = some ([0x4F, 0x04, 0x00, 0xAA, 0xAA, 0xAA, 0xAA], true)
      := by decide +kernel

/-- FL6, EX2: an index with a high byte is not a small one; one byte of reply, the bad index latched. -/
theorem test_read_page_range_error :
    after (fun t => (reply t, t.idx)) (step (atLoop Config.tiny [0x03, 0x01, 0x00])) = some (([0x46], true), 0x0100) := by
  decide +kernel

/-- FL12: no count; the application's checksum first. -/
theorem test_read_crc :
    after sent (step (atLoop tinyLegacy [0x04])) = some (0x4F ::
      (le32 (Config.crc32Fn (List.replicate 16 0xAA)) ++
        le32 (Config.crc32Fn [0xB0, 0xB1, 0xB2, 0xB3, 0xB4, 0xB5, 0xB6, 0xB7]))) := by rfl

/-- Q1. -/
theorem test_read_mcu_id :
    after reply (step (atLoop Config.tiny [0x05])) = some ([0x4F, 0x04, 0x00, 0xA1, 0xA2, 0xA3, 0xA4], true) := by
  decide +kernel

/-- Q2. -/
theorem test_read_serial :
    after reply (step (atLoop Config.tiny [0x06])) = some
      ([0x4F, 0x0B, 0x00, 0x50, 0x51, 0x52, 0x53, 0x54, 0x55, 0x56, 0x57, 0x58, 0x59, 0x5A], true) := by decide +kernel

/-- Q3. -/
theorem test_read_version : after reply (step (atLoop Config.tiny [0x07])) = some ([0x4F, 0x02], true) := by
  decide +kernel

/-- X5: the status is on the wire, and the block waits for its reset. -/
theorem test_reset :
    after (fun t => (t.wireOut, t.seq, t.trace.getLast?)) (step (atLoop Config.tiny [0x08]))
      = some ([0x4F], .resetting, some (.protectedWrite .resetTrigger 1)) := by decide +kernel

/-- Q4. -/
theorem test_read_fuses :
    after reply (step (atLoop Config.tiny [0x09])) = some ([0x4F, 0xF0, 0xF1, 0xF2, 0xF3, 0xF4, 0xF5], true) := by
  decide +kernel

/-- Q5: in LEGACY there is no status. -/
theorem test_read_fuses_legacy :
    after reply (step (atLoop tinyLegacy [0x09])) = some ([0xF0, 0xF1, 0xF2, 0xF3, 0xF4, 0xF5], true) := by
  decide +kernel

/-- EE2. -/
theorem test_read_eeprom :
    after reply (step (atLoop Config.tiny [0x0A, 0x00, 0x03])) = some ([0x4F, 0x02, 0x00, 0xE6, 0xE7], true) := by
  decide +kernel

/-- EX3. -/
theorem test_read_eeprom_range_error :
    after reply (step (atLoop Config.tiny [0x0A, 0x00, 0x04])) = some ([0x46], true) := by decide +kernel

/-- EE4: the page is replaced without an erase; two positions of the buffer are written. -/
theorem test_write_eeprom :
    after (fun t => (reply t, contents .ee t, t.buf)) (step (atLoop Config.tiny [0x0B, 0x00, 0x03, 0x12, 0x34]))
      = some (([0x4F], true), [0xE0, 0xE1, 0xE2, 0xE3, 0xE4, 0xE5, 0x12, 0x34], [some 0x12, some 0x34, none, none]) := by
  decide +kernel

/-- P3: after a rejected index the bytes meant as payload are commands. -/
theorem test_write_eeprom_range_error :
    after (fun t => (sent t, t.rxq, contents .ee t)) (step (atLoop tinyLegacy [0x0B, 0x00, 0x04, 0x01, 0x07]))
      = some ([0x46], [0x01, 0x07], [0xE0, 0xE1, 0xE2, 0xE3, 0xE4, 0xE5, 0xE6, 0xE7]) := by decide +kernel

/-- UR2. -/
theorem test_erase_usersig :
    after (fun t => (reply t, contents .us t)) (step (atLoop Config.tiny [0x0C]))
      = some (([0x4F], true), [0xFF, 0xFF, 0xFF, 0xFF]) := by decide +kernel

/-- UR1. -/
theorem test_read_usersig :
    after reply (step (atLoop Config.tiny [0x0D])) = some ([0x4F, 0x04, 0x00, 0x55, 0x55, 0x55, 0x55], true) := by
  decide +kernel

/-- UR5: no index bytes; a payload equal to an opcode is data. -/
theorem test_write_usersig :
    after (fun t => (reply t, contents .us t)) (step (atLoop Config.tiny [0x0E, 0x0C, 0x0C, 0x0C, 0x0C]))
      = some (([0x4F], true), [0x0C, 0x0C, 0x0C, 0x0C]) := by decide +kernel

/-- Q8, on REFCFG. -/
theorem test_read_geometry :
    after reply (step (atLoop Config.reference [0x0F])) = some
      ([0x4F, 0x00, 0x08, 0x00, 0x00, 0x00, 0x02, 0x00, 0x00, 0x00, 0x01, 0x00, 0x00, 0x80, 0x00, 0x00, 0x00, 0x20, 0x00,
        0x00, 0x00, 0x00, 0x01, 0x00, 0x00], true) := by decide +kernel

/-- Q7, in LEGACY. -/
theorem test_read_geometry_legacy :
    after reply (step (atLoop tinyLegacy [0x0F])) = some
      ([0x4F, 0x10, 0x00, 0x08, 0x00, 0x04, 0x00, 0x08, 0x00, 0x02, 0x00, 0x04, 0x00], true) := by decide +kernel

/-- X2: no reply to a no-op byte in the loop. -/
theorem test_nop :
    after (fun t => (reply t, t.op, t.trace)) (step (atLoop Config.tiny [0x00]))
      = some (([], true), 0x00, [.wdtPet, .rx 0x00]) := by decide +kernel

/-- X1, V5: an unknown byte is eaten, with no bracket. -/
theorem test_unknown :
    after (fun t => (reply t, t.op, t.trace)) (step (atLoop Config.tiny [0xAA]))
      = some (([], true), 0xAA, [.wdtPet, .rx 0xAA]) := by decide +kernel

/-- V3, with READ_USERSIG: one discarding read and two echo bytes leave an echo byte in the receive path. -/
theorem test_echo_left_over :
    after (fun t => t.rxq)
      (step { atLoop { Config.tiny with echoDiscardReads := 1 } [0x0D] with tape := [0xE1, 0x01, 0xE2] })
      = some [0xE2] := by decide +kernel

/-- V4, after ERASE_USERSIG: a command queued during the reply is eaten by the discarding reads. -/
theorem test_discards_eat_a_command :
    after (fun t => t.rxq) (step { atLoop Config.tiny [0x0C, 0x07] with tape := [0xE1, 0x01, 0xE2] })
      = some [0xE2] := by decide +kernel

/-- AR1: the no-op byte in the boot window is answered, and the loop starts with the timer stopped. -/
theorem test_arbiter_stays :
    after (fun t => (reply t, t.entry, t.trun, t.tcnt))
      (step { atLoop Config.tiny [0x00] with
        seq := .arbPoll, todo := [.poll], entry := .undecided, trun := true, tcnt := 1 })
      = some (([0x4F], true), .bootloader, false, 1) := by decide +kernel

/-- AR2: the timer expired and nothing received: the jump. -/
theorem test_arbiter_leaves :
    after (fun t => ((sent t, t.seq, t.entry), t.ivsel, t.extaddr, t.trun))
      (step { atLoop Config.tiny [] with
        seq := .arbPoll, todo := [.poll], entry := .undecided, trun := true, tcnt := 3 })
      = some (([], .app, .application), .appTable, .clean, true) := by decide +kernel

/-- RV2: a reset between the issue of a page commit and its completion: the page is four draws, all else preserved. -/
theorem test_reset_cuts_commit :
    after (fun t => (contents .app t, t.seq, t.nvmBusy))
      (step { atLoop Config.tiny [] with
        nvmBusy := true, nvmPending := some (.flashWritePage 1), sched := [.reset .powerOn], tape := [1, 2, 3, 4] })
      = some (List.replicate 4 0xAA ++ [1, 2, 3, 4] ++ List.replicate 8 0xAA, .rst, false) := by decide +kernel

/-- S7: a commit of some positions leaves draws in the others. -/
theorem test_partial_eeprom_write :
    after (fun t => (contents .ee t, t.trace))
      (callEepromAtomicWrite 1 [(0, 0xC0)] { atLoop Config.tiny [] with tape := [0x99] })
      = some ([0xE0, 0xE1, 0xC0, 0x99, 0xE4, 0xE5, 0xE6, 0xE7],
          [.stage 0 0xC0, .issue (.eepromAtomicWrite 1), .done (.eepromAtomicWrite 1)]) := by decide +kernel

/-- T5. -/
theorem test_eeprom_full_erase :
    after (contents .ee) (callEepromFullErase (atLoop Config.tiny [])) = some (List.replicate 8 0xFF) := by decide +kernel

/-- From reset, the word of READ_VERSION placed for the next step is what that step runs. -/
theorem test_with_fetch_word :
    after (fun t => (t.wireOut, t.op)) (step { State.reset.withFetchWord 8 0x07 with tape := [0xEC, 0, 0] })
      = some ([0x4F, 0x02], 0x07) := by decide +kernel

/-! ### The host -/

/-- A device right after its reset, with the memory of the vectors, and the echoes of two switches after a rendezvous. -/
def fresh (c : Config) : State :=
  { State.resetOf c with mem := vectorMem, tape := (List.replicate 8 [0xEC, 0x00, 0xEE]).flatten }

/-- TINYCFG with the legacy protocol and Variant B. -/
def legacyB : Config := { tinyLegacy with entryVariant := .b }

/-- R264, in HALFDUPLEX: the acknowledgement, an `ST_OK` for the erase and one for the page; the other pages erased. -/
theorem test_update :
    (update 4 1 [[1, 2, 3, 4]] (fresh Config.tiny)).map (fun t => (contents .app t, t.wireOut, t.hostRead))
      = some ([1, 2, 3, 4] ++ List.replicate 12 0xFF, [0x4F, 0x4F, 0x4F], 3) := by decide +kernel

/-- The same in LEGACY, where a status counts as received only once it is on the wire. -/
theorem test_update_legacy :
    (update 4 1 [] (fresh legacyB)).map (fun t => (contents .app t, t.wireOut, t.txq))
      = some (List.replicate 16 0xFF, [0x4F, 0x4F], []) := by decide +kernel

/-- R264: a status that is not `ST_OK` aborts, and so does a wait that is too short for the status to leave. -/
theorem test_exchange_aborts :
    exchange 3 (.fip .writePage 4 []) (atLoop tinyLegacy []) = none ∧
      exchange 2 (.f0 .eraseApp) (atLoop tinyLegacy []) = none := by decide +kernel

/-- R265: without a device that answers, here one that has jumped, the rendezvous ends with the operator's patience. -/
theorem test_rendezvous_ends :
    rendezvous 4 2 { fresh legacyB with seq := .app, todo := [], entry := .application } = none := by decide +kernel

/-- R320: at `RESETTING` the host has no move, so a status it could not take there is not seen twice: the command after RESET
meets the boot window, which drops it, and is not answered. -/
theorem test_no_recv_at_resetting :
    (receive { atLoop Config.tiny [] with seq := .resetting, todo := [], wireOut := [0x4F] }).1 = none ∧
      exchanges 4 [.f0 .reset, .f0 .eraseApp] (fresh Config.tiny |> fun s => { s with
        seq := .fetch, todo := loopTop, entry := .bootloader }) = none := by decide +kernel

/-- R261, R262(a), AR1, AR5: step 1 repeats its no-op byte, in the boot window and after the block took the first, until it
has received the acknowledgement; the first command frame waits for it, and the frame after that for its status. -/
theorem test_duty_a_rendezvous :
    let view (fs : List Instr) : HostView := { plan := fs.map .f0 }
    let s := { fresh legacyB with seq := .arbPoll, todo := [.poll], trun := true }
    let taken : List Move := [.send 0x00, .send 0x00, .seq, .send 0x00]
    let acked := taken ++ List.replicate 3 .seq ++ [.utx, .send 0x00]
    dutiful (view [.nop, .nop, .nop, .nop, .eraseApp]) s (acked ++ [.recv, .send 0x01]) = true ∧
      dutiful (view [.nop, .nop, .nop, .nop, .eraseApp]) s (acked ++ [.send 0x01]) = false ∧
      dutiful (view [.nop, .nop, .nop, .nop, .eraseApp, .readVersion]) s (acked ++ [.recv, .send 0x01, .send 0x07]) = false := by
  decide +kernel

/-- R262(a): the acknowledgement of a no-op byte is no reply to a command frame that the boot window dropped (R324, P2). A
reset ends what was due, and step 1 may begin again (R321, R264); a command frame may not. -/
theorem test_duty_a_dropped :
    let view (fs : List Instr) : HostView := { plan := fs.map .f0 }
    let s := { fresh legacyB with seq := .arbPoll, todo := [.poll], trun := true }
    let acked : List Move := [.send 0x01, .send 0x00] ++ List.replicate 4 .seq ++ [.utx, .recv]
    let again : List Move := [.reset .external] ++ List.replicate 2 .seq
    dutiful (view [.eraseApp, .nop, .readVersion]) s acked = true ∧
      dutiful (view [.eraseApp, .nop, .readVersion]) s (acked ++ [.send 0x07]) = false ∧
      dutiful (view [.eraseApp, .nop, .readVersion]) s
        ([.send 0x01] ++ again ++ [.send 0x00] ++ List.replicate 4 .seq ++ [.utx, .recv, .send 0x07]) = true ∧
      dutiful (view [.eraseApp, .readVersion]) s ([.send 0x01] ++ again ++ [.send 0x07]) = false := by decide +kernel

/-- The same where the dropped frame holds the no-op byte, which the block then acknowledges: WRITE_PAGE 0 in the boot
window, and WRITE_PAGE 0 cut after its opcode by a reset. -/
theorem test_duty_a_frame_with_nop :
    let view : HostView := { plan := [.fip .writePage 0 [0xAA, 0xAA, 0xAA, 0xAA], .f0 .readVersion] }
    let s := { fresh legacyB with seq := .arbPoll, todo := [.poll], trun := true }
    let frame : List Move := [.send 0x00, .send 0x00] ++ List.replicate 4 (.send 0xAA)
    let acked : List Move := List.replicate 5 .seq ++ [.utx, .recv]
    let again : List Move := [.reset .external] ++ List.replicate 2 .seq
    dutiful view s ([.send 0x02] ++ frame ++ acked) = true ∧
      dutiful view s ([.send 0x02] ++ frame ++ acked ++ [.send 0x07]) = false ∧
      dutiful view s ([.send 0x02] ++ again ++ frame ++ acked) = true ∧
      dutiful view s ([.send 0x02] ++ again ++ frame ++ acked ++ [.send 0x07]) = false := by decide +kernel

/-- R262(a): READ_VERSION, its two bytes received, then ERASE_APP; with the last `Recv` left out the duty is broken, but not by a
no-op byte, with which an update is run again from step 1 (R264). -/
theorem test_duty_a :
    let view : HostView := { plan := [.f0 .readVersion, .f0 .eraseApp] }
    let run : List Move := [.send 0x07] ++ List.replicate 5 .seq ++ [.utx, .utx, .recv]
    dutiful view (atLoop tinyLegacy []) (run ++ [.recv, .send 0x01]) = true ∧
      dutiful view (atLoop tinyLegacy []) (run ++ [.send 0x01]) = false ∧
      dutiful { plan := [.f0 .readVersion, .f0 .nop] } (atLoop tinyLegacy []) (run ++ [.send 0x00]) = true := by decide +kernel

/-- R250, R262(a): READ_VERSION begun inside the acknowledgement's bracket, its byte kept: (b) is broken, (a) is not, and its
two bytes are the reply to be received before the next command frame. The byte lost, no reply is to come. -/
theorem test_duty_a_busy_bus :
    let view : HostView := { plan := [.f0 .nop, .f0 .nop, .f0 .readVersion, .f0 .eraseApp] }
    let s (fate : Byte) := { fresh { Config.tiny with echoDiscardReads := 1 } with
      seq := .arbPoll, todo := [.poll], trun := true, tape := [fate, 0xFF, 0xEC, 0, 0xEC, 0] }
    let sent : List Move := [.send 0x00, .send 0x00] ++ List.replicate 5 .seq ++ [.utx, .recv, .send 0x07]
    let acked := sent ++ List.replicate 4 .seq ++ List.replicate 2 .xcvr ++ List.replicate 12 .seq
    let answered := acked ++ [.utx, .utx, .recv]
    keepsA view (s 1) sent = true ∧ keepsB view (s 1) sent = false ∧
      keepsA view (s 1) (answered ++ [.recv, .send 0x01]) = true ∧ keepsA view (s 1) (answered ++ [.send 0x01]) = false ∧
      keepsA view (s 0) (answered ++ [.recv, .send 0x01]) = false := by decide +kernel

/-- R262(b): inside a reply's bracket the host does not transmit. R262(c): a frame begun is sent whole, byte by byte.
R262(d): no payload after an index out of range. -/
theorem test_duties_bcd :
    dutyB { atLoop Config.tiny [] with de := true, rxdis := true } { plan := [.f0 .nop] } (.send 0x00) = false ∧
      dutiful { plan := [.fi .readPage 1] } (atLoop Config.tiny []) [.send 0x03, .send 0x00] = false ∧
      dutiful { plan := [.fi .readPage 1] } (atLoop Config.tiny []) [.send 0x03, .send 0x00, .send 0x01] = true ∧
      dutyD Config.tiny { plan := [.fip .writePage 4 [1, 2, 3, 4]] } = false := by decide +kernel

/-! ### Witnesses: for every statement with hypotheses, a state and operands that meet them, at the ends of a range -/

/-- The states of the vectors are ready for a write or an erase. -/
theorem ready (c : Config) (rx : List Byte) (hc : c.wf = true) (hm : vectorMem.wf c = true) :
    StorageReady (atLoop c rx) :=
  ⟨hc, hm, by simp [atLoop, State.resetOf], rfl⟩

theorem ready_tiny (rx : List Byte) : StorageReady (atLoop Config.tiny rx) :=
  ready _ _ (by decide +kernel) (by decide +kernel)

theorem ready_legacy (rx : List Byte) : StorageReady (atLoop tinyLegacy rx) :=
  ready _ _ (by decide +kernel) (by decide +kernel)

theorem ready_early (rx : List Byte) : StorageReady (atLoop tinyEarly rx) :=
  ready _ _ (by decide +kernel) (by decide +kernel)

theorem witness_DecodeInvertsEncode :
    Config.tiny.wf = true ∧ Instr.readGeometry.wf Config.tiny = true ∧ (Instr.unknown 0x10).wf Config.tiny = true ∧
      (Instr.unknown 0xFF).wf Config.tiny = true ∧
      opcodeOf Config.tiny .readGeometry = opcodeOf Config.tiny .readGeometry := by decide +kernel

/-- Each clause: a byte that is no opcode (the no-op byte, another), and the last opcode. -/
theorem witness_OtherBytesAreUnknown :
    Config.tiny.wf = true ∧ (0x00 : Byte) ∉ Config.tiny.ops.toList ∧ (0x10 : Byte) ∉ Config.tiny.ops.toList ∧
      (0x0F : Byte) ∈ Config.tiny.ops.toList := by decide +kernel

/-- The last valid index and the first invalid one, the largest index, a plain and a row frame. -/
theorem witness_FrameRoundTrip :
    Config.tiny.wf = true ∧ (Frame.fip .writePage 3 [1, 2, 3, 4]).wf Config.tiny = true ∧
      (Frame.fip .writePage 4 []).wf Config.tiny = true ∧ (Frame.fi .readEeprom 0xFFFF).wf Config.tiny = true ∧
      (Frame.f0 .reset).wf Config.tiny = true ∧ (Frame.fp .writeUsersig [1, 2, 3, 4]).wf Config.tiny = true := by
  decide +kernel

theorem witness_FrameDecodeIsExact :
    Config.tiny.wf = true ∧ decodeFrame Config.tiny [0x0B, 0x00, 0x03, 0x12, 0x34, 0x07]
      = .ok (.fip .writeEeprom 3 [0x12, 0x34], [0x07]) := ⟨by decide +kernel, rfl⟩

/-- The largest count, the empty field, a four-byte field. -/
theorem witness_ByteOrders : (65535 < 65536) ∧ (0 < 256 ^ 0) ∧ (2048 < 256 ^ 4) := by decide

theorem witness_ConfigurationChecks :
    (State.resetOf { Config.tiny with bufSize := 5 }).cfg.wf = false := by decide +kernel

/-- Both control points, with bytes after the opcode. -/
theorem witness_StepRunsDecodedInstruction :
    let s := atLoop Config.tiny [0x03, 0x00, 0x03]
    s.cfg.wf = true ∧ s.sched = [] ∧ decode s.cfg s.rxq = .ok (.readPage, [0x00, 0x03]) ∧ s.todo = loopTop ∧
      ({ s with todo := [.rxOp] } : State).todo = [.rxOp] := ⟨by decide +kernel, rfl, rfl, rfl, rfl⟩

theorem witness_EraseAppErases : StorageReady (atLoop Config.tiny []) := ready_tiny []

theorem witness_EraseUsersigErases : StorageReady (atLoop tinyLegacy []) := ready_legacy []

theorem witness_EraseThenChecksum : StorageReady (atLoop Config.tiny [0x04]) := ready_tiny _

/-- The last valid page. -/
theorem witness_WritePageCommits :
    let s := atLoop Config.tiny ([0x00, 0x03, 1, 2, 3, 4, 0x07])
    StorageReady s ∧ s.cfg.ackMode = .single ∧ s.rxq = be16 3 ++ [1, 2, 3, 4] ++ [0x07] ∧
      (3 : Half).toNat < s.cfg.pageCount .app ∧ [1, 2, 3, 4].length = s.cfg.page .app ∧
      s.cfg.flashWriteRequiresErased = false :=
  ⟨ready_tiny _, by decide +kernel⟩

/-- The clause of a controller that requires erased pages, on an erased byte. -/
theorem witness_WritePageCommits_erased :
    let s := { atLoop { Config.tiny with flashWriteRequiresErased := true } [0x00, 0x00, 1, 2, 3, 4] with
      mem := ⟨[], [], [], []⟩ }
    StorageReady s ∧ s.cfg.flashWriteRequiresErased = true ∧
      s.mem.read .app (pageOffset s.cfg .app (0 : Half).toNat + 3) = s.cfg.erasedByte :=
  ⟨⟨by decide +kernel, by decide +kernel, by decide +kernel, rfl⟩, by decide +kernel⟩

theorem witness_WritePageAcknowledgesTwice_halfDuplex :
    let s := atLoop tinyEarly [0x00, 0x03]
    StorageReady s ∧ s.cfg.ackMode = .earlyAndFinal ∧ (3 : Half).toNat < s.cfg.pageCount .app ∧
      [9, 9, 9, 9].length = s.cfg.page .app ∧ s.cfg.flashWriteRequiresErased = false ∧
      s.cfg.protocol = .halfDuplex ∧ s.cfg.echoMax ≤ s.cfg.echoDiscardReads ∧ s.sched = [] ∧ s.rxq = be16 3 :=
  ⟨ready_early _, by decide +kernel⟩

/-- The same where the controller requires erased pages: one byte of the page is erased, one is not. -/
theorem witness_WritePageAcknowledgesTwice_erased :
    let s := { atLoop tinyEarly [0x00, 0x03] with
      cfg := { tinyEarly with flashWriteRequiresErased := true }
      mem := { vectorMem with app := vectorMem.app.filter fun x => decide (x.1 ≠ 12) } }
    StorageReady s ∧ s.cfg.ackMode = .earlyAndFinal ∧ s.cfg.protocol = .halfDuplex ∧ s.rxq = be16 3 ∧
      s.mem.read .app (pageOffset s.cfg .app 3) = s.cfg.erasedByte ∧
      s.mem.read .app (pageOffset s.cfg .app 3 + 1) ≠ s.cfg.erasedByte :=
  ⟨⟨by decide +kernel, by decide +kernel, by decide +kernel, rfl⟩, by decide +kernel⟩

theorem witness_WritePageAcknowledgesTwice_legacy :
    let s := { atLoop tinyLegacy [0x00, 0x00, 9, 9, 9, 9, 7] with
      cfg := { tinyLegacy with ackMode := .earlyAndFinal } }
    StorageReady s ∧ s.cfg.ackMode = .earlyAndFinal ∧ s.cfg.protocol = .legacy ∧
      s.rxq = be16 0 ++ [9, 9, 9, 9] ++ [7] ∧ (0 : Half).toNat < s.cfg.pageCount .app ∧
      s.cfg.flashWriteRequiresErased = false :=
  ⟨⟨by decide +kernel, by decide +kernel, by decide +kernel, rfl⟩, by decide +kernel⟩

theorem witness_WriteEepromCommits :
    let s := atLoop Config.tiny [0x00, 0x03, 0x12, 0x34]
    StorageReady s ∧ s.rxq = be16 3 ++ [0x12, 0x34] ++ [] ∧ (3 : Half).toNat < s.cfg.pageCount .ee ∧
      [0x12, 0x34].length = s.cfg.page .ee := ⟨ready_tiny _, by decide +kernel⟩

theorem witness_WriteUsersigCommits :
    let s := atLoop Config.tiny [1, 2, 3, 4, 5]
    StorageReady s ∧ s.rxq = [1, 2, 3, 4] ++ [5] ∧ [1, 2, 3, 4].length = s.cfg.page .us ∧
      s.cfg.flashWriteRequiresErased = false := ⟨ready_tiny _, by decide +kernel⟩

/-- WRITE_EEPROM: one byte of two received; and none of them. -/
theorem witness_ShortPayloadWaits :
    let s := atLoop Config.tiny [0x00, 0x03, 0x12]
    StorageReady s ∧ s.sched = [] ∧ 3 < s.cfg.pageCount .ee ∧ (3 : Half).toNat = 3 ∧ s.rxq = be16 3 ++ [0x12] ∧
      [0x12].length < s.cfg.page .ee ∧ [0x12].length + [0x34].length = s.cfg.page .ee ∧
      ([] : List Byte).length < s.cfg.page .ee := ⟨ready_tiny _, by decide +kernel⟩

/-- WRITE_PAGE with one acknowledgement in HALFDUPLEX, and WRITE_USERSIG: all but one byte received. -/
theorem witness_ShortPayloadWaits_flash :
    let s := atLoop Config.tiny [0x00, 0x03, 1, 2, 3]
    let r := atLoop Config.tiny [1, 2, 3]
    (StorageReady s ∧ StorageReady r) ∧ s.sched = [] ∧ 3 < s.cfg.pageCount .app ∧ s.rxq = be16 3 ++ [1, 2, 3] ∧
      s.cfg.ackMode ≠ .earlyAndFinal ∧ [1, 2, 3].length + [4].length = s.cfg.page .app ∧ 0 < r.cfg.pageCount .us ∧
      r.rxq = [] ++ [1, 2, 3] ∧ [1, 2, 3].length + [4].length = r.cfg.page .us ∧
      s.cfg.flashWriteRequiresErased = false := ⟨⟨ready_tiny _, ready_tiny _⟩, by decide +kernel⟩

/-- WRITE_PAGE with two acknowledgements in LEGACY. -/
theorem witness_ShortPayloadWaits_early :
    let s := { atLoop tinyLegacy [0x00, 0x00, 9] with cfg := { tinyLegacy with ackMode := .earlyAndFinal } }
    StorageReady s ∧ s.sched = [] ∧ 0 < s.cfg.pageCount .app ∧ s.cfg.ackMode = .earlyAndFinal ∧
      s.cfg.protocol = .legacy ∧ s.rxq = be16 0 ++ [9] ∧ [9].length + [8, 7, 6].length = s.cfg.page .app :=
  ⟨⟨by decide +kernel, by decide +kernel, by decide +kernel, rfl⟩, by decide +kernel⟩

/-- The last valid index of each region. -/
theorem witness_ReadPageReplies :
    let s := atLoop Config.tiny [0x00, 0x03]
    s.rxq = be16 3 ++ [] ∧ (3 : Half).toNat < s.cfg.pageCount .app := by decide +kernel

theorem witness_ReadEepromReplies :
    let s := atLoop Config.tiny [0x00, 0x03, 0x07]
    s.rxq = be16 3 ++ [0x07] ∧ (3 : Half).toNat < s.cfg.pageCount .ee := by decide +kernel

/-- The spec's list of geometry fields, and both protocols. -/
theorem witness_ReadGeometryReplies :
    (atLoop Config.tiny []).cfg.geomFields = Config.referenceFields ∧
      (atLoop Config.tiny []).cfg.protocol = .halfDuplex ∧ (atLoop tinyLegacy []).cfg.protocol = .legacy := by
  decide +kernel

theorem witness_ReadFusesReplies :
    (atLoop Config.tiny []).cfg.protocol = .halfDuplex ∧ (atLoop tinyLegacy []).cfg.protocol = .legacy := by
  decide +kernel

theorem witness_ResetAcknowledges :
    (atLoop Config.tiny []).gie = false ∧ (atLoop Config.tiny []).cfg.halfDuplex = true ∧
      (atLoop tinyLegacy []).cfg.halfDuplex = false ∧ (atLoop tinyLegacy []).cfg.resetDelayCoversTx = true := by
  decide +kernel

/-- At `RESETTING`, and elsewhere with and without a watchdog. -/
theorem witness_SoftwareResetIsTheOnlyStep :
    let s := { atLoop Config.tiny [] with seq := .resetting, todo := [] }
    s.cfg.wf = true ∧ s.seq = .resetting ∧ s.todo = [] ∧ s.sched = [] ∧ Move.utx ≠ .reset .software ∧
      (atLoop Config.tiny []).seq ≠ .resetting ∧ (atLoop Config.tiny []).cfg.wdtEnabled = false ∧
      (atLoop { Config.tiny with wdtEnabled := true } []).cfg.wdtEnabled = true := by decide +kernel

theorem witness_NopIsConsumed :
    let s := atLoop Config.tiny [0x00, 0x07]
    s.cfg.wf = true ∧ s.sched = [] ∧ AtLoop s ∧ s.rxq = s.cfg.nopByte :: [0x07] :=
  ⟨by decide +kernel, rfl, ⟨rfl, rfl⟩, rfl⟩

/-- A byte just above the opcodes, and the no-op byte. -/
theorem witness_UnknownIsIgnored :
    let s := atLoop Config.tiny [0x10]
    s.cfg.wf = true ∧ s.sched = [] ∧ AtLoop s ∧ s.rxq = 0x10 :: [] ∧ 0x10 ∉ s.cfg.ops.toList ∧
      0x00 ∉ s.cfg.ops.toList :=
  ⟨by decide +kernel, rfl, ⟨rfl, rfl⟩, rfl, by decide +kernel⟩

/-- Both protocols, a reply about to begin with data of its own, and the last command of the list. -/
theorem witness_BracketOrder :
    (atLoop Config.tiny []).cfg.halfDuplex = true ∧ (atLoop tinyLegacy []).cfg.halfDuplex = false ∧
      ({ atLoop Config.tiny [] with data := [1, 2], cnt := 0 } : State).cnt = 0 ∧
      Instr.readGeometry ∈
        [.readCrc, .readMcuId, .readSerial, .readVersion, .readFuses, .readUsersig, .readGeometry] := by decide +kernel

theorem witness_PageWriteOrder :
    let s := atLoop tinyLegacy [0x00, 0x00, 1, 2, 3, 4, 0x07]
    StorageReady s ∧ s.cfg.ackMode = .single ∧ s.cfg.protocol = .legacy ∧
      s.rxq = be16 0 ++ [1, 2, 3, 4] ++ [0x07] ∧ (0 : Half).toNat < s.cfg.pageCount .app ∧
      [1, 2, 3, 4].length = s.cfg.page .app := ⟨ready_legacy _, by decide +kernel⟩

/-- The first invalid index and the largest, of each region. -/
theorem witness_RangeErrorReplies :
    let s := atLoop Config.tiny [0x00, 0x04, 0x07]
    indexRegion .writePage = some .app ∧ indexRegion .readEeprom = some .ee ∧ s.rxq = be16 4 ++ [0x07] ∧
      s.cfg.pageCount .app ≤ (4 : Half).toNat ∧ s.cfg.pageCount .ee ≤ (4 : Half).toNat ∧
      s.cfg.pageCount .app ≤ (0xFFFF : Half).toNat := by decide +kernel

/-- A reply that begins with `ST_OK`, and one that is `ST_FAIL`. -/
theorem witness_FailMeansRangeError :
    let s := atLoop tinyLegacy [0x00, 0x04]
    s.cfg.wf = true ∧ (∃ t, exec .readVersion s = .next t ∧ sent t = sent s ++ s.cfg.stOk :: [0x02]) ∧
      ∃ t, exec .readPage s = .next t ∧ sent t = sent s ++ s.cfg.stFail :: [] :=
  ⟨by decide +kernel, ⟨_, rfl, by decide +kernel⟩, ⟨_, rfl, by decide +kernel⟩⟩

/-- The last page, its last position. -/
theorem witness_PartialEepromWrite :
    let s := atLoop Config.tiny []
    StorageReady s ∧ s.nvmStage = [] ∧ 3 < s.cfg.pageCount .ee ∧ Cells.rising [(1, 0xC0)] = true ∧
      (∀ x ∈ [((1, 0xC0) : Host.Cell)], x.1 < s.cfg.page .ee) := ⟨ready_tiny _, by decide +kernel⟩

theorem witness_FullEepromErase : StorageReady (atLoop Config.tiny []) := ready_tiny []

/-- A state with the command given in flight, two positions staged. -/
def inFlight (c : NvmCmd) : State :=
  { atLoop Config.tiny [] with
    nvmBusy := true, nvmPending := some c, nvmStage := [(0, 1), (1, 2)], sched := [], tape := List.replicate 16 7 }

/-- Every clause: a command of each kind in flight, the page commits on the last page. -/
theorem witness_CompletionWritesTarget (c : NvmCmd)
    (hc : c ∈ [NvmCmd.eraseAppSection, .eraseUsersigRow, .eepromEraseAll, .eepromAtomicWrite 3, .flashWritePage 3,
      .writeUsersigRow]) :
    (inFlight c).cfg.wf = true ∧ (inFlight c).mem.wf (inFlight c).cfg = true ∧ (inFlight c).seq ≠ .resetting ∧
      (inFlight c).nvmBusy = true ∧ (inFlight c).nvmPending = some c ∧ c.inRange (inFlight c).cfg = true ∧
      (∃ t, applyMove .nvmc (inFlight c) = .next t) ∧ Cells.get? (inFlight c).nvmStage 1 = some 2 ∧
      (inFlight c).cfg.flashWriteRequiresErased = false := by
  have h : c.inRange (inFlight c).cfg = true := by
    revert c
    decide +kernel
  have hm : vectorMem.wf Config.tiny = true := by decide +kernel
  have hc : Config.tiny.wf = true := by decide +kernel
  exact ⟨hc, hm, nofun, rfl, rfl, h, ⟨_, rfl⟩, rfl, rfl⟩

theorem witness_OnlyTheControllerWrites :
    (∃ t, applyMove .utx (atLoop Config.tiny []) = .next t) ∧ Move.utx ≠ .nvmc ∧
      (∀ cause, Move.utx ≠ .reset cause) ∧ (atLoop Config.tiny []).nvmPending = none :=
  ⟨⟨_, rfl⟩, by decide, nofun, rfl⟩

/-- A state at each of the four violations. -/
theorem witness_ViolationsFault :
    let a := { inFlight .eraseAppSection with todo := [.issue .eraseUsersigRow] }
    let b := { inFlight .eraseAppSection with todo := [.issuePage .flash] }
    let c := { atLoop Config.tiny [] with todo := [.protectedWrite .resetTrigger 1], gie := true }
    let d := { atLoop Config.tiny [] with todo := [.stage 3] }
    (a.seq ≠ .resetting ∧ a.nvmBusy = true) ∧ (b.seq ≠ .resetting ∧ b.nvmBusy = true) ∧
      (c.seq ≠ .resetting ∧ c.gie = true) ∧ (d.seq ≠ .resetting ∧ d.buf[3]? = some none) := by decide +kernel

theorem witness_ResetClearsState : (atLoop Config.tiny [0x07]).nvmPending = none := rfl

/-- The commit of the last page cut, with a tape of exactly its length. -/
theorem witness_CutCommandDraws :
    let s := { inFlight (.flashWritePage 3) with tape := [1, 2, 3, 4] }
    s.cfg.wf = true ∧ s.mem.wf s.cfg = true ∧ s.nvmPending = some (.flashWritePage 3) ∧
      (NvmCmd.flashWritePage 3).inRange s.cfg = true ∧ s.tape = [1, 2, 3, 4] ++ [] ∧
      [1, 2, 3, 4].length = ((NvmCmd.flashWritePage 3).target s.cfg).2.2 := by decide +kernel

/-- The line asserted and released. -/
theorem witness_VariantADecides :
    let s := { State.resetOf tinyLegacy with entryLine := true }
    s.cfg.wf = true ∧ s.sched = [] ∧ s.cfg.entryVariant = .a ∧ s.seq = .rst ∧ s.todo = [.arbitrate] ∧
      s.entryLine = true ∧ (State.resetOf tinyLegacy).entryLine = false := by decide +kernel

/-- The boot window open, the timer at the count given, the bytes given received. -/
def inWindow (ticks : Nat) (rx : List Byte) : State :=
  { atLoop Config.tiny rx with
    seq := .arbPoll, todo := [.poll], entry := .undecided, trun := true, tcnt := ticks, tape := [] }

/-- Every clause, the timer one tick before its expiry and at it. -/
theorem witness_VariantBPolls :
    State.reset.cfg.entryVariant = .b ∧ State.reset.seq = .rst ∧ State.reset.todo = [.arbitrate] ∧
      (inWindow 2 []).cfg.entryVariant = .b ∧ (inWindow 2 []).seq = .arbPoll ∧ (inWindow 2 []).todo = [.poll] ∧
      (inWindow 2 []).trun = true ∧ (inWindow 2 []).tcnt < (inWindow 2 []).cfg.bootTimeoutTicks ∧
      (inWindow 2 [0x07]).rxq = 0x07 :: [] ∧ (0x07 : Byte) ≠ (inWindow 2 []).cfg.nopByte ∧
      (inWindow 2 [0x00]).rxq = (inWindow 2 [0x00]).cfg.nopByte :: [] ∧
      (inWindow 3 []).cfg.bootTimeoutTicks ≤ (inWindow 3 []).tcnt := by decide +kernel

theorem witness_VariantBAcknowledges :
    let s := inWindow 2 [0x00, 0x07]
    s.cfg.wf = true ∧ s.sched = [] ∧ s.seq = .arbPoll ∧ s.todo = [.poll] ∧ s.rxq = s.cfg.nopByte :: [0x07] ∧
      s.tcnt < s.cfg.bootTimeoutTicks := by decide +kernel

/-- The no-op byte and another, the timer at its threshold. -/
theorem witness_RaceAdmitsBoth :
    let s := inWindow 3 [0x00]
    let r := inWindow 3 [0x07]
    s.seq = .arbPoll ∧ s.todo = [.poll] ∧ s.trun = true ∧ s.rxq = s.cfg.nopByte :: [] ∧
      s.cfg.bootTimeoutTicks ≤ s.tcnt ∧ r.seq = .arbPoll ∧ r.todo = [.poll] ∧ r.trun = true ∧ r.rxq = 0x07 :: [] ∧
      (0x07 : Byte) ≠ r.cfg.nopByte ∧ r.cfg.bootTimeoutTicks ≤ r.tcnt := by decide +kernel

/-- The window just opened, and already expired. -/
theorem witness_BootWindowEnds (n : Nat) (hn : n = 0 ∨ n = 3) :
    let s := inWindow n []
    s.cfg.wf = true ∧ s.sched = [] ∧ s.seq = .arbPoll ∧ s.todo = [.poll] ∧ s.trun = true ∧ s.rxq = [] ∧ s.txq = [] ∧
      s.nvmBusy = false := by
  obtain rfl | rfl := hn <;> decide +kernel

theorem witness_JumpSequence :
    let s := { inWindow 3 [] with
      seq := .jump, todo := [.clearGie, .selectAppTable, .cleanExtAddr, .jumpToApp], entry := .application }
    s.seq = .jump ∧ s.todo = [.clearGie, .selectAppTable, .cleanExtAddr, .jumpToApp] := ⟨rfl, rfl⟩

/-- The device after its jump. -/
def afterJump : State := { inWindow 3 [] with seq := .app, todo := [], entry := .application }

/-- The states of the tests with nothing in flight meet the invariant, whatever their control path needs being met. -/
theorem inv_of (s : State) (h1 : s.cfg.wf = true) (h2 : s.mem.wf s.cfg = true) (h3 : Cells.rising s.nvmStage = true)
    (h4 : s.buf.length = s.cfg.bufSize) (h5 : s.gie = false) (h6 : s.unlockArmed = false) (h7 : s.nvmBusy = false)
    (h8 : s.nvmPending = none) (h9 : s.txq = []) (h10 : s.cfg.halfDuplex = true)
    (h11 : pathSafe s.cfg (knownOf s) s.todo = true) (h12 : endsAt s.seq s.todo = true) (h13 : s.cnt < 65536)
    (h14 : s.data.length < 65536) : Inv s :=
  ⟨⟨h1, h2, h3, h4, h5, h6, by rw [h7, h8]; rfl, by simp [h8], fun _ h => absurd h9 h, by simp [h10],
    h13, h14⟩, h11, h12⟩

theorem inv_atLoop : Inv (atLoop Config.tiny [0x07]) := by
  apply inv_of <;> decide +kernel

theorem witness_AppIsTerminal :
    Inv afterJump ∧ afterJump.seq = .app ∧ afterJump.todo = [] ∧ (∀ cause, Move.tmr ≠ .reset cause) ∧
      ∃ t, applyMove .tmr afterJump = .next t :=
  ⟨by apply inv_of <;> decide +kernel, rfl, rfl, nofun, _, rfl⟩

/-- A configuration the block can have, other than that of `State.reset`. -/
theorem witness_InvAtReset : tinyLegacy.wf = true := by decide +kernel

/-- A step that decides, from a state that meets the invariant. -/
theorem witness_EntryIsDecidedOnce :
    Inv (inWindow 3 []) ∧ after (fun t => t.entry) (step (inWindow 3 [])) = some .application :=
  ⟨by apply inv_of <;> decide +kernel, by decide +kernel⟩

/-- A step from a state that meets the invariant. -/
theorem witness_StepKeepsInv :
    Inv (atLoop Config.tiny [0x07]) ∧ ∃ t, step (atLoop Config.tiny [0x07]) = .next t := ⟨inv_atLoop, _, rfl⟩

theorem witness_InvNeverStops : Inv (atLoop Config.tiny [0x07]) := inv_atLoop

/-- A step that answers a next state; it serves BootFlashIsConstant, ConfigurationIsConstant and HistoryOnlyGrows. -/
theorem witness_BootFlashIsConstant : ∃ t, step (atLoop Config.tiny [0x01]) = .next t := ⟨_, rfl⟩

theorem witness_ConfigurationIsConstant : ∃ t, step (inFlight .eraseAppSection) = .next t := ⟨_, rfl⟩

theorem witness_HistoryOnlyGrows :
    ∃ t, step { atLoop Config.tiny [] with sched := [.reset .external] } = .next t := ⟨_, rfl⟩

/-- A state inside a reply's bracket: drive mode, a byte about to be handed over. -/
def inBracket : State :=
  { atLoop Config.tiny [] with
    seq := .reply, de := true, rxdis := true, todo := .txByte 0x4F :: txEnd Config.tiny }

/-- Each clause: a byte handed over, a wait for a byte, the top of the loop. -/
theorem witness_BusAndBarriers :
    Inv inBracket ∧ inBracket.todo = .txByte 0x4F :: txEnd Config.tiny ∧ inBracket.cfg.halfDuplex = true ∧
      Inv { atLoop Config.tiny [] with todo := [.rxOp] } ∧ Inv (atLoop Config.tiny [0x07]) ∧
      AtLoop (atLoop Config.tiny [0x07]) := by
  refine ⟨?_, rfl, rfl, ?_, inv_atLoop, rfl, rfl⟩
  · apply inv_of <;> decide +kernel
  · apply inv_of <;> decide +kernel

theorem witness_CommandIsARunOfMoves :
    let s := atLoop Config.tiny [0x07]
    Inv s ∧ s.sched = [] ∧ ∃ t, step s = .next t := ⟨inv_atLoop, rfl, _, rfl⟩

/-- The bus free and busy, and a host that keeps its duty (b). -/
theorem witness_HostByteFate :
    (atLoop Config.tiny []).seq ≠ .resetting ∧ busBusy (atLoop Config.tiny []) = false ∧
      dutyB (atLoop Config.tiny []) { plan := [.f0 .nop] } (.send 0x00) = true ∧
      inBracket.seq ≠ .resetting ∧ busBusy inBracket = true := by decide +kernel

/-- Both pairs of commands, each at its last page; for the EEPROM with two acknowledgements to a page write. -/
theorem witness_WriteThenRead :
    let s := atLoop Config.tiny []
    let r := atLoop tinyEarly []
    (StorageReady s ∧ AtLoop s ∧ StorageReady r ∧ AtLoop r) ∧ s.sched = [] ∧ s.cfg.ackMode = .single ∧
      s.cfg.flashWriteRequiresErased = false ∧ (3 : Half).toNat < s.cfg.pageCount .app ∧
      [1, 2, 3, 4].length = s.cfg.page .app ∧ r.sched = [] ∧ (3 : Half).toNat < r.cfg.pageCount .ee ∧
      [1, 2].length = r.cfg.page .ee :=
  ⟨⟨ready_tiny _, ⟨rfl, rfl⟩, ready_early _, ⟨rfl, rfl⟩⟩, by decide +kernel⟩

/-- A flash page that is erased, on a controller that requires it. -/
theorem witness_WriteThenRead_erased :
    let s := { atLoop { Config.tiny with flashWriteRequiresErased := true } [] with mem := ⟨[], [], [], []⟩ }
    StorageReady s ∧ AtLoop s ∧ s.cfg.ackMode = .single ∧ s.cfg.flashWriteRequiresErased = true ∧
      ∀ k, k < s.cfg.page .app → s.mem.read .app (pageOffset s.cfg .app (3 : Half).toNat + k) = s.cfg.erasedByte :=
  ⟨⟨by decide +kernel, by decide +kernel, by decide +kernel, rfl⟩, ⟨rfl, rfl⟩, by decide +kernel, by decide +kernel,
    fun _ _ => rfl⟩

/-- A frame of the reset command, and a frame with an index out of range. -/
theorem witness_FrameIsConsumedWhole :
    let s := atLoop tinyLegacy []
    StorageReady s ∧ AtLoop s ∧ s.sched = [] ∧ s.gie = false ∧ s.cfg.protocol = .legacy ∧
      (Frame.f0 .reset).wf s.cfg = true ∧ (Frame.fip .writePage 4 []).wf s.cfg = true :=
  ⟨ready_legacy _, ⟨rfl, rfl⟩, by decide +kernel⟩

/-- A device that waits for a command, nothing unread or unseen. -/
theorem between (c : Config) (h : StorageReady (atLoop c [])) : Between (atLoop c []) :=
  ⟨h, .inl ⟨rfl, rfl⟩, rfl, rfl, rfl, rfl, rfl, rfl, rfl⟩

/-- An image of every page of the application, and the empty image. -/
theorem witness_UpdateInstallsImage :
    let s := atLoop Config.tiny []
    let image : List (List Byte) := List.replicate 4 [1, 2, 3, 4]
    (Between s ∧ Between (atLoop tinyLegacy [])) ∧ s.cfg.ackMode = .single ∧ s.cfg.protocol = .halfDuplex ∧
      s.cfg.echoMax ≤ s.cfg.echoDiscardReads ∧ image.length ≤ s.cfg.pageCount .app ∧
      (∀ p ∈ image, p.length = s.cfg.page .app) ∧ ([] : List (List Byte)).length ≤ s.cfg.pageCount .app :=
  ⟨⟨between _ (ready_tiny _), between _ (ready_legacy _)⟩, by decide +kernel⟩

/-- A device right after its reset. -/
theorem witness_WholeUpdate :
    let s := fresh Config.tiny
    let image : List (List Byte) := List.replicate 4 [1, 2, 3, 4]
    StorageReady s ∧ s.sched = [] ∧ s.gie = false ∧ s.seq = .rst ∧ s.todo = [.arbitrate] ∧ s.cfg.entryVariant = .b ∧
      0 < s.cfg.bootTimeoutTicks ∧ s.rxq = [] ∧ s.txq = [] ∧ s.hostRead = s.wireOut.length ∧ s.de = false ∧
      s.rxdis = false ∧ s.cfg.ackMode = .single ∧ s.cfg.protocol = .halfDuplex ∧
      s.cfg.echoMax ≤ s.cfg.echoDiscardReads ∧ image.length ≤ s.cfg.pageCount .app ∧
      ∀ p ∈ image, p.length = s.cfg.page .app :=
  ⟨⟨by decide +kernel, by decide +kernel, by decide +kernel, rfl⟩, by decide +kernel⟩

end Sys2Proof.Tests
end

section
/-! SUPPORT. What the check of a configuration says (00_scope.md R8), clause by clause where the check and the rule are not
written alike; that the step refuses a configuration that fails it. -/

namespace Sys2Proof

theorem Config.regionOk_iff (c : Config) (r : Region) :
    c.regionOk r = true ↔ 1 ≤ c.page r ∧ c.size r % c.page r = 0 := by
  simp [regionOk]

/-- R8(a) holds of every region. -/
theorem Config.pagesOk_iff (c : Config) : c.pagesOk = true ↔ ∀ r, 1 ≤ c.page r ∧ c.size r % c.page r = 0 := by
  simp only [pagesOk, Bool.and_eq_true, regionOk_iff]
  constructor
  · rintro ⟨happ, hboot, hee, hus⟩ (_ | _ | _ | _) <;> assumption
  · exact fun h => ⟨h .app, h .boot, h .ee, h .us⟩

/-- R8(d), the no-op byte said apart. -/
theorem Config.opcodesOk_iff (c : Config) : c.opcodesOk = true ↔ c.ops.toList.Nodup ∧ c.nopByte ∉ c.ops.toList := by
  rw [opcodesOk, decide_eq_true_eq, knownBytes, ← List.concat_eq_append, List.nodup_concat, and_comm]

theorem Machine.step_refuses {s : Machine.State} (h : s.cfg.wf = false) :
    Machine.step s = .refused .configurationRefused := by
  simp [Machine.step, h]

/-- Settles O7: the check opened conjunct by conjunct; the two reference configurations by evaluation. -/
theorem Machine.configurationChecks : Obligations.ConfigurationChecks := by
  refine ⟨fun _ => step_refuses, by decide, by decide, fun c => ?_⟩
  simp only [Config.wf, Bool.and_eq_true, Config.pagesOk_iff, Config.opcodesOk_iff, Config.bufferOk, Config.statusOk,
    Config.countsOk, Config.indicesOk, Config.rowOk, Config.widthOk, Config.fieldsOk, Config.echoOk, Config.constantsOk,
    List.all_eq_true, decide_eq_true_eq, and_assoc]

end Sys2Proof
end

section
/-! SUPPORT. The field `todo` (log 3): no primitive and no move that helps one reads it, none writes it, and the assignments
at the head of a path write it anew. So the run of a control path, which leaves it behind, and the run of moves, which keeps
it, can be compared. -/

namespace Sys2Proof.Machine

/-- The effect with the rest of the control path replaced. -/
def Effect.withTodo (x : List Prim) : Effect → Effect
  | .done s => .done { s with todo := x }
  | .again s => .again { s with todo := x }
  | .wait s => .wait { s with todo := x }
  | .turn path s => .turn path { s with todo := x }
  | .fault f => .fault f

theorem draw_withTodo (s : State) (x : List Prim) :
    draw { s with todo := x } = ((draw s).1, { (draw s).2 with todo := x }) := by
  cases h : s.tape <;> simp [draw, h]

theorem echoByte_withTodo (certain : Bool) (s : State) (x : List Prim) :
    echoByte certain { s with todo := x } = { echoByte certain s with todo := x } := by
  cases certain <;> simp [echoByte, draw_withTodo]

theorem pollByte_withTodo (b : Byte) (s : State) (x : List Prim) :
    pollByte b { s with todo := x } = (pollByte b s).withTodo x := by
  unfold pollByte
  split_ifs <;> rfl

theorem pollStep_withTodo (s : State) (x : List Prim) : pollStep { s with todo := x } = (pollStep s).withTodo x := by
  have hexp : timerExpired { s with todo := x } = timerExpired s := rfl
  unfold pollStep
  simp only [hexp, draw_withTodo, pollByte_withTodo]
  repeat' split
  all_goals rfl

theorem sourceInRange_withTodo (s : State) (x : List Prim) (src : Source) :
    sourceInRange { s with todo := x } src = sourceInRange s src := by
  cases src <;> rfl

theorem tryIssue_withTodo (c : NvmCmd) (s : State) (x : List Prim) :
    tryIssue c { s with todo := x } = (tryIssue c s).withTodo x := by
  unfold tryIssue
  split_ifs <;> rfl

/-- No primitive reads `todo`, and none writes it. -/
theorem perform_withTodo (p : Prim) (s : State) (x : List Prim) :
    perform p { s with todo := x } = (perform p s).withTodo x := by
  cases p
  case poll => exact pollStep_withTodo s x
  case echo certain => exact congrArg Effect.done (echoByte_withTodo certain s x)
  case issue c => exact tryIssue_withTodo c s x
  case issuePage k => exact tryIssue_withTodo (k.command s.idx) s x
  case waitReady => cases h : s.nvmBusy <;> simp [perform, nvmReady, h, Effect.withTodo]
  case txWaitComplete => cases h : s.txq <;> simp [perform, txComplete, h, Effect.withTodo]
  all_goals
    simp only [perform, arbitrate, payloadStep, dataStep, bufAt, sourceInRange_withTodo]
    repeat' split
    all_goals rfl

theorem fillDraws_withTodo (bs : List (Option Byte)) (s : State) (x : List Prim) :
    fillDraws bs { s with todo := x } = ((fillDraws bs s).1, { (fillDraws bs s).2 with todo := x }) := by
  induction bs generalizing s with
  | nil => rfl
  | cons b bs ih => cases b <;> simp [fillDraws, draw_withTodo, ih]

theorem wanted_withTodo (c : NvmCmd) (s : State) (x : List Prim) : c.wanted { s with todo := x } = c.wanted s := by
  cases c <;> rfl

theorem nvmComplete_withTodo (s : State) (x : List Prim) :
    nvmComplete { s with todo := x } = { nvmComplete s with todo := x } := by
  obtain h | ⟨c, h⟩ := Option.eq_none_or_eq_some s.nvmPending
  · simp [nvmComplete, h]
  · have hx := nvmComplete_pending { s with todo := x } c h
    rw [wanted_withTodo, fillDraws_withTodo] at hx
    rw [nvmComplete_pending s c h]
    exact hx

theorem help_withTodo (p : Prim) (s : State) (x : List Prim) :
    help p { s with todo := x } = { help p s with todo := x } := by
  cases p
  case waitReady =>
    simp only [help]
    by_cases h : s.nvmBusy = true
    · rw [if_pos h, if_pos h]; exact nvmComplete_withTodo s x
    · rw [if_neg h, if_neg h]
  case delay d => cases d <;> cases h : s.cfg.resetDelayCoversTx <;> simp [help, h, drain]
  all_goals rfl

theorem takeOpcode_withTodo (s : State) (x : List Prim) :
    takeOpcode { s with todo := x } = { takeOpcode s with todo := x } := by
  cases h : s.rxq <;> simp [takeOpcode, h, log]

theorem settle_withTodo (ps : List Prim) (s : State) (x : List Prim) : settle ps { s with todo := x } = settle ps s := by
  induction ps generalizing s with
  | nil => rfl
  | cons p ps ih =>
    cases p
    case goto l => exact ih { s with seq := l }
    case fresh => exact ih { s with cnt := 0, data := [] }
    all_goals rfl

end Sys2Proof.Machine
end

section
/-! SUPPORT. A step with nothing scheduled as a run of moves (00_scope.md R7, R10). Where the run of a control path is at the
path `ps` in the state `s`, the run of moves is in the state `settle ps s`. A path comes to `RESETTING` only at its end
(`endsAt`), so the moves of the path are all enabled. -/

namespace Sys2Proof.Machine

/-! ### What some moves reach -/

/-- Some moves lead from `s` to `t`. -/
def Reaches (s t : State) : Prop := ∃ moves, runMoves moves s = .next t

theorem Reaches.refl (s : State) : Reaches s s := ⟨[], rfl⟩

theorem Reaches.head {s t u : State} (m : Move) (hm : applyMove m s = .next t) (h : Reaches t u) : Reaches s u := by
  obtain ⟨ms, hms⟩ := h
  exact ⟨m :: ms, by rw [runMoves, hm]; exact hms⟩

theorem Reaches.move {s t : State} (m : Move) (hm : applyMove m s = .next t) : Reaches s t := .head m hm (.refl t)

theorem Reaches.trans {s t u : State} (h : Reaches s t) (h' : Reaches t u) : Reaches s u := by
  obtain ⟨ms, hms⟩ := h
  induction ms generalizing s with
  | nil => cases hms; exact h'
  | cons m ms ih =>
    rw [runMoves] at hms
    split at hms
    · next v hv => exact .head m hv (ih hms)
    · cases hms
    · cases hms

/-! ### The move of `SEQ`, and the moves it waits for -/

/-- Where the block stands when a primitive has come to `e`, the path `ps` being what follows it. -/
def Effect.standing (p : Prim) (ps : List Prim) : Effect → Result
  | .done s => .next (settle ps s)
  | .again s => .next { s with todo := p :: ps }
  | .wait s => .next { s with todo := p :: ps }
  | .turn path s => .next (settle path s)
  | .fault f => .fault f

/-- The primitives that `SEQ` performs by its own move in every state: not the echo, which is the move of `XCVR` (R245), nor
the opcode byte, which is taken with the branch on it (R120). -/
def Prim.ofSeq : Prim → Bool
  | .echo _ => false
  | .rxOp => false
  | _ => true

theorem seqMove_standing {p : Prim} (h : p.ofSeq = true) (ps : List Prim) (s : State) :
    seqMove { s with todo := p :: ps } = (perform p s).standing p ps := by
  have hmove : seqMove { s with todo := p :: ps } = match perform p { s with todo := p :: ps } with
      | .done s' => .next (settle ps s')
      | .again s' => .next s'
      | .wait s' => .next s'
      | .turn path s' => .next (settle path s')
      | .fault f => .fault f := by
    cases p
    case echo => cases h
    case rxOp => cases h
    all_goals rfl
  rw [hmove, perform_withTodo]
  cases perform p s <;> simp [Effect.withTodo, Effect.standing, settle_withTodo]

theorem applyMove_seq {s : State} (h : s.seq ≠ .resetting) : applyMove .seq s = seqMove s := by simp [applyMove, h]

/-- One primitive is performed by one move. -/
theorem reaches_perform {p : Prim} {ps : List Prim} {s t : State} (hl : s.seq ≠ .resetting)
    (h : (perform p s).standing p ps = .next t) : Reaches { s with todo := p :: ps } t := by
  by_cases hp : p.ofSeq = true
  · exact .move .seq ((applyMove_seq (by exact hl)).trans ((seqMove_standing hp ps s).trans h))
  · cases p
    case echo certain =>
      cases h
      refine .move .xcvr ?_
      simp [applyMove, hl, xcvrMove, echoByte_withTodo, settle_withTodo]
    case rxOp => cases h; exact .refl _
    all_goals exact absurd rfl hp

/-- A loop is a move for each time round. -/
theorem reaches_iterate (n : Nat) {p : Prim} {ps : List Prim} {s t : State} (hl : endsAt s.seq (p :: ps) = true)
    (h : (iterate n p s).standing p ps = .next t) : Reaches { s with todo := p :: ps } t := by
  induction n generalizing s with
  | zero => cases h; exact .refl _
  | succ n ih =>
    have hends := ends_perform p ps s hl
    rw [iterate] at h
    cases he : perform p s with
    | again s' =>
      rw [he] at h hends
      exact (reaches_perform (endsAt_cons hl) (by rw [he]; rfl)).trans (ih hends h)
    | _ => rw [he] at h; exact reaches_perform (endsAt_cons hl) (by rw [he]; exact h)

theorem ends_iterate (n : Nat) {p : Prim} {ps : List Prim} {s : State} (hl : endsAt s.seq (p :: ps) = true) :
    Ends p ps (iterate n p s) := by
  induction n generalizing s with
  | zero => exact hl
  | succ n ih =>
    have hends := ends_perform p ps s hl
    rw [iterate]
    cases he : perform p s with
    | again s' => rw [he] at hends; exact ih hends
    | _ => rw [he] at hends; exact hends

theorem drain_of_empty {s : State} (h : s.txq = []) : drain s = s := by
  cases s
  simp_all [drain]

theorem drain_utxMove (s : State) : drain (utxMove s) = drain s := by
  cases h : s.txq <;> simp [utxMove, drain, log, h]

/-- `UTX` empties its queue by a move for each byte (R249). -/
theorem reaches_drain {s : State} (hl : s.seq ≠ .resetting) : Reaches s (drain s) := by
  generalize hq : s.txq = q
  induction q generalizing s with
  | nil => rw [drain_of_empty hq]; exact .refl s
  | cons b bs ih =>
    have hmove : applyMove .utx s = .next (utxMove s) := by simp [applyMove, hl]
    have hrest : Reaches (utxMove s) (drain (utxMove s)) := ih (by simp [utxMove, hq, log, hl]) (by simp [utxMove, hq, log])
    rw [drain_utxMove] at hrest
    exact .head .utx hmove hrest

@[simp] theorem help_seq (p : Prim) (s : State) : (help p s).seq = s.seq := by
  cases p
  case waitReady =>
    obtain ⟨m, st, t, n, tr, h⟩ := nvmComplete_frame s
    simp only [help, h]
    split_ifs <;> rfl
  case delay d =>
    cases d
    case resetDelay =>
      simp only [help]
      split_ifs <;> rfl
    all_goals rfl
  all_goals rfl

/-- The agent a primitive waits for moves. -/
theorem reaches_help (p : Prim) {s : State} (hl : s.seq ≠ .resetting) : Reaches s (help p s) := by
  cases p
  case waitReady =>
    refine .move .nvmc ?_
    simp [applyMove, hl, help]
  case txWaitComplete => exact reaches_drain hl
  case delay d =>
    cases d
    case resetDelay =>
      simp only [help]
      split_ifs
      · exact reaches_drain hl
      · exact .refl s
    all_goals exact .refl s
  all_goals exact .refl s

/-- A primitive with its whole loop, after the moves it waits for. -/
theorem reaches_drive {p : Prim} {ps : List Prim} {s t : State} (hl : endsAt s.seq (p :: ps) = true)
    (h : (drive p s).standing p ps = .next t) : Reaches (settle (p :: ps) s) t := by
  have hloop : Reaches { s with todo := p :: ps } t := by
    have hhelp := reaches_help p (s := { s with todo := p :: ps }) (by exact endsAt_cons hl)
    rw [help_withTodo] at hhelp
    exact hhelp.trans (reaches_iterate _ (by rw [help_seq]; exact hl) h)
  cases p
  case goto l => cases h; exact .refl _
  case fresh => cases h; exact .refl _
  all_goals exact hloop

theorem ends_drive {p : Prim} {ps : List Prim} {s : State} (hl : endsAt s.seq (p :: ps) = true) :
    Ends p ps (drive p s) :=
  ends_iterate _ (by rw [help_seq]; exact hl)

/-! ### The run of a control path -/

/-- The run of a control path, `turned` being what is done at a branch: `runPath` stops there, `runCommand` goes on along the
path turned to. -/
def runWith (turned : List Prim → State → Result) : List Prim → State → Result
  | [], s => .next (home s)
  | p :: ps, s =>
    match drive p s with
    | .done s' => runWith turned ps s'
    | .turn path s' => turned path s'
    | e => e.standing p ps

theorem runPath_eq_runWith (ps : List Prim) (s : State) :
    runPath ps s = runWith (fun path s' => .next (settle path s')) ps s := by
  induction ps generalizing s with
  | nil => rfl
  | cons p ps ih =>
    rw [runPath, runWith]
    cases drive p s
    case done s' => exact ih s'
    all_goals rfl

theorem runCommand_eq_runWith (ps : List Prim) (s : State) : runCommand ps s = runWith runPath ps s := by
  induction ps generalizing s with
  | nil => rfl
  | cons p ps ih =>
    rw [runCommand, runWith]
    cases drive p s
    case done s' => exact ih s'
    all_goals rfl

/-- What the run along a path answers, moves reach from where the block stands at the start of the path. -/
def ReachedByMoves (run : List Prim → State → Result) : Prop :=
  ∀ ps s t, endsAt s.seq ps = true → run ps s = .next t → Reaches (settle ps s) t

theorem reachedByMoves_runWith {turned : List Prim → State → Result} (hturned : ReachedByMoves turned) :
    ReachedByMoves (runWith turned) := by
  intro ps
  induction ps with
  | nil => intro s t _ h; cases h; exact .refl _
  | cons p ps ih =>
    intro s t hl h
    have hends := ends_drive hl
    have hdrive := fun u => reaches_drive (t := u) hl
    rw [runWith] at h
    cases he : drive p s <;> rw [he] at h hends hdrive
    case done s' => exact (hdrive _ rfl).trans (ih s' t hends h)
    case turn path s' => exact (hdrive _ rfl).trans (hturned path s' t hends h)
    all_goals exact hdrive t h

theorem reachedByMoves_runPath : ReachedByMoves runPath := by
  have h := reachedByMoves_runWith (turned := fun path s => .next (settle path s)) fun ps s t _ h => by
    cases h
    exact .refl _
  intro ps s t hl hr
  exact h ps s t hl (by rw [← runPath_eq_runWith]; exact hr)

theorem reachedByMoves_runCommand : ReachedByMoves runCommand := fun ps s t hl hr =>
  reachedByMoves_runWith reachedByMoves_runPath ps s t hl (by rw [← runCommand_eq_runWith]; exact hr)

/-! ### The step with nothing scheduled -/

/-- The assignments at the head of the path in hand are one move; with none the state is as `settle` has it. -/
theorem reaches_settle {p : Prim} {ps : List Prim} {s : State} (ht : s.todo = p :: ps) (hl : s.seq ≠ .resetting) :
    Reaches s (settle s.todo s) := by
  cases p
  case goto l => exact .move .seq (by simp [applyMove, hl, seqMove, ht, perform, settle])
  case fresh => exact .move .seq (by simp [applyMove, hl, seqMove, ht, perform, settle])
  all_goals
    cases s
    cases ht
    exact .refl _

/-- Each instruction is the run of its control path. -/
theorem exec_eq_runCommand (i : Instr) (s : State) : exec i s = runCommand (pathOf s.cfg i) s := by
  cases i <;> rfl

@[simp] theorem takeOpcode_seq (s : State) : (takeOpcode s).seq = s.seq := by
  cases h : s.rxq <;> simp [takeOpcode, h, log]

@[simp] theorem takeOpcode_cfg (s : State) : (takeOpcode s).cfg = s.cfg := by
  cases h : s.rxq <;> simp [takeOpcode, h, log]

@[simp] theorem fetchOp_seq (s : State) : (fetchOp s).seq = s.seq := by
  unfold fetchOp
  split <;> exact takeOpcode_seq _

@[simp] theorem fetchOp_cfg (s : State) : (fetchOp s).cfg = s.cfg := by
  unfold fetchOp
  split <;> exact takeOpcode_cfg _

/-- Where the loop takes an opcode byte: the watchdog still to be petted, or not (R120). -/
theorem fetchByte_cases {s : State} {b : Byte} (h : fetchByte s = some b) :
    s.rxq.head? = some b ∧ ((∃ ps, s.todo = .wdtPet :: .rxOp :: ps) ∨ ∃ ps, s.todo = .rxOp :: ps) := by
  unfold fetchByte at h
  split at h
  · next ps ht => exact ⟨h, .inl ⟨ps, ht⟩⟩
  · next ps ht => exact ⟨h, .inr ⟨ps, ht⟩⟩
  · cases h

/-- The opcode byte and the branch on it are one move. -/
theorem reaches_takeOpcode {s : State} {b : Byte} {ps : List Prim} (hl : s.seq ≠ .resetting) (hq : s.rxq.head? = some b)
    (ht : s.todo = .rxOp :: ps) : Reaches s (settle (pathOf s.cfg (decodeOp s.cfg b)) (takeOpcode s)) := by
  obtain ⟨rest, hq⟩ := List.head?_eq_some_iff.1 hq
  exact .move .seq (by simp [applyMove, hl, seqMove, ht, hq])

/-- The head of an iteration of the loop is a move for the watchdog, if it is still to be petted, and one for the opcode. -/
theorem reaches_fetch {s : State} {b : Byte} (hl : s.seq ≠ .resetting) (h : fetchByte s = some b) :
    Reaches s (settle (pathOf s.cfg (decodeOp s.cfg b)) (fetchOp s)) := by
  obtain ⟨hq, ⟨ps, ht⟩ | ⟨ps, ht⟩⟩ := fetchByte_cases h
  · have hpet : applyMove .seq s = .next { log .wdtPet s with todo := .rxOp :: ps } := by
      simp [applyMove, hl, seqMove, ht, perform, settle]
    have htake := reaches_takeOpcode (s := { log .wdtPet s with todo := .rxOp :: ps }) hl hq rfl
    rw [takeOpcode_withTodo, settle_withTodo] at htake
    rw [show fetchOp s = takeOpcode (log .wdtPet s) by simp [fetchOp, ht]]
    exact .head .seq hpet htake
  · rw [show fetchOp s = takeOpcode s by simp [fetchOp, ht]]
    exact reaches_takeOpcode hl hq ht

theorem reaches_othersMove {s : State} (hl : s.seq ≠ .resetting) : Reaches s (othersMove s) := by
  unfold othersMove
  split_ifs with hb hq
  · exact .move .nvmc (by simp [applyMove, hl, hb])
  · exact .move .tmr (by simp [applyMove, hl])
  · exact .move .utx (by simp [applyMove, hl])

theorem reaches_advance {s t : State} (hl : endsAt s.seq s.todo = true) (h : advance s = .next t) : Reaches s t := by
  unfold advance at h
  split at h
  · cases h
    split_ifs with hr
    · exact .move (.reset .software) (by simp [applyMove, hr])
    · exact .refl s
  · next hne =>
    obtain ⟨p, ps, ht⟩ := List.exists_cons_of_ne_nil (l := s.todo) hne
    have hseq : s.seq ≠ .resetting := endsAt_cons (ht ▸ hl)
    split_ifs at h
    · cases h; exact reaches_othersMove hseq
    · exact (reaches_settle ht hseq).trans (reachedByMoves_runCommand _ _ _ hl h)

/-- Settles O55: a fetch and the run after it, or the rest of the path in hand, move by move. -/
theorem commandIsARunOfMoves : Obligations.CommandIsARunOfMoves := by
  intro s t hinv hs h
  rw [step, if_pos hinv.config] at h
  simp only [hs] at h
  split at h
  · next b hb =>
    have hl : s.seq ≠ .resetting := by
      obtain ⟨-, ⟨ps, ht⟩ | ⟨ps, ht⟩⟩ := fetchByte_cases hb <;> exact endsAt_cons (ht ▸ hinv.ending)
    rw [exec_eq_runCommand, fetchOp_cfg] at h
    exact (reaches_fetch hl hb).trans
      (reachedByMoves_runCommand _ _ _ (endsAt_pathOf _ _ (by simpa using hl)) h)
  · exact reaches_advance hinv.ending h

end Sys2Proof.Machine
end

section
/-! SUPPORT. A property of a control path and a state, carried along every run: with the primitives, the fetch, the end of a
path and the moves of the other agents keeping it, every move and every step keeps it, short of a reset. -/

namespace Sys2Proof.Machine

/-! ### What has to be kept -/

/-- The property after a primitive that has come to `e`, of the path that is then to be performed. -/
def Effect.Leaves (J : List Prim → State → Prop) (p : Prim) (ps : List Prim) : Effect → Prop
  | .done s => J ps s
  | .again s => J (p :: ps) s
  | .wait s => J (p :: ps) s
  | .turn path s => J path s
  | .fault _ => True

theorem Effect.Leaves.mono {J J' : List Prim → State → Prop} (hJ : ∀ qs s, J qs s → J' qs s) {p : Prim} {ps : List Prim}
    {e : Effect} (h : e.Leaves J p ps) : e.Leaves J' p ps := by
  cases e
  case fault => trivial
  all_goals exact hJ _ _ h

theorem Effect.Leaves.and {J J' : List Prim → State → Prop} {p : Prim} {ps : List Prim} {e : Effect}
    (h : e.Leaves J p ps) (h' : e.Leaves J' p ps) : e.Leaves (fun qs s => J qs s ∧ J' qs s) p ps := by
  cases e
  case fault => trivial
  all_goals exact ⟨h, h'⟩

/-- The state with another list in `todo` and other inputs: the schedule, the entry line, what the host has seen, the receive
path, the ticks and the draws. -/
def State.withSurroundings (s : State) (todo : List Prim) (sched : List Move) (line : Bool) (seen : Nat) (rxq : List Byte)
    (tcnt : Nat) (tape : List Byte) (draws : Nat) : State :=
  { s with
    todo := todo, sched := sched, entryLine := line, hostRead := seen, rxq := rxq, tcnt := tcnt, tape := tape
    draws := draws }

/-- `J` speaks of a path and the state in which it is to be performed, whatever the state has in `todo`; the sequencer, the
transmitter and the environment keep it. -/
structure PathInvariant (J : List Prim → State → Prop) : Prop where
  surroundings : ∀ {ps s}, J ps s → ∀ x sc line seen rx tc tp n, J ps (s.withSurroundings x sc line seen rx tc tp n)
  perform : ∀ {p ps s}, J (p :: ps) s → (perform p s).Leaves J p ps
  home : ∀ {s}, J [] s → J (home s).todo (home s)
  fetch : ∀ {ps s}, J (.rxOp :: ps) s → ∀ b, J (pathOf s.cfg (decodeOp s.cfg b)) (takeOpcode s)
  utx : ∀ {ps s}, J ps s → J ps (utxMove s)

/-- The controller keeps it too. -/
structure RunInvariant (J : List Prim → State → Prop) : Prop extends PathInvariant J where
  nvmc : ∀ {ps s}, s.nvmBusy = true → J ps s → J ps (nvmComplete s)

/-! ### The other agents, and the rest of the path -/

/-- A byte sent changes the receive path and the draws only. -/
theorem hostSend_frame (b : Byte) (s : State) : ∃ rx tp n, hostSend b s = { s.withDraws tp n with rxq := rx } := by
  unfold hostSend
  split_ifs
  · have hdraws := (draw_frame (draw s).2).trans (congrArg (fun u => State.withDraws u _ _) (draw_frame s))
    exact ⟨_, _, _, congrArg (fun u : State => { u with rxq := s.rxq ++ if (draw s).1.toNat % 3 = 0 then [] else
      if (draw s).1.toNat % 3 = 1 then [b] else [(draw (draw s).2).1] }) hdraws⟩
  · exact ⟨_, s.tape, s.draws, rfl⟩

@[simp] theorem utxMove_todo (s : State) : (utxMove s).todo = s.todo := by
  cases h : s.txq <;> simp [utxMove, h]

@[simp] theorem timerTick_todo (s : State) : (timerTick s).todo = s.todo := by
  unfold timerTick
  split_ifs <;> rfl

@[simp] theorem nvmComplete_todo (s : State) : (nvmComplete s).todo = s.todo := by
  obtain ⟨m, st, t, n, tr, h⟩ := nvmComplete_frame s
  rw [h]
  rfl

namespace PathInvariant

variable {J : List Prim → State → Prop} (h : PathInvariant J)
include h

theorem kept_withTodo {ps : List Prim} {s : State} (hs : J ps s) (x : List Prim) : J ps { s with todo := x } :=
  h.surroundings hs x _ _ _ _ _ _ _

theorem kept_timerTick {ps : List Prim} {s : State} (hs : J ps s) : J ps (timerTick s) := by
  unfold timerTick
  split_ifs
  · exact h.surroundings hs _ _ _ _ _ _ _ _
  · exact hs

theorem kept_drain {ps : List Prim} {s : State} (hs : J ps s) : J ps (drain s) := by
  generalize hq : s.txq = q
  induction q generalizing s with
  | nil => rw [drain_of_empty hq]; exact hs
  | cons b bs ih =>
    rw [← drain_utxMove]
    exact ih (h.utx hs) (by simp [utxMove, hq])

theorem kept_settle {ps : List Prim} {s : State} (hs : J ps s) : J (settle ps s).todo (settle ps s) := by
  induction ps generalizing s with
  | nil => exact h.home hs
  | cons p ps ih =>
    cases p
    case goto l => exact ih (h.perform hs)
    case fresh => exact ih (h.perform hs)
    all_goals exact h.kept_withTodo hs _

/-- Where the block stands after a primitive. -/
theorem kept_standing {p : Prim} {ps : List Prim} {e : Effect} {t : State} (he : e.Leaves J p ps)
    (ht : e.standing p ps = .next t) : J t.todo t := by
  cases e <;> cases ht
  case done s => exact h.kept_settle he
  case again s => exact h.kept_withTodo he _
  case wait s => exact h.kept_withTodo he _
  case turn path s => exact h.kept_settle he

/-! ### Moves -/

theorem kept_seqMove {s t : State} (hs : J s.todo s) (ht : seqMove s = .next t) : J t.todo t := by
  cases htodo : s.todo with
  | nil =>
    simp only [seqMove, htodo] at ht
    cases ht
    exact hs
  | cons p ps =>
    have hJ : J (p :: ps) s := htodo ▸ hs
    by_cases hp : p.ofSeq = true
    · have hmove := seqMove_standing hp ps s
      rw [← htodo, ht] at hmove
      exact h.kept_standing (h.perform hJ) hmove.symm
    · cases p
      case echo certain =>
        simp only [seqMove, htodo] at ht
        cases ht
        exact hs
      case rxOp =>
        simp only [seqMove, htodo] at ht
        split at ht <;> cases ht
        · exact hs
        · exact h.kept_settle (h.fetch hJ _)
      all_goals exact absurd rfl hp

theorem kept_xcvrMove {s : State} (hs : J s.todo s) : J (xcvrMove s).todo (xcvrMove s) := by
  unfold xcvrMove
  split
  · next certain ps htodo =>
    have hJ : J (.echo certain :: ps) s := htodo ▸ hs
    exact h.kept_settle (h.perform hJ)
  · exact hs

theorem kept_hostSend {s : State} (hs : J s.todo s) (b : Byte) : J (hostSend b s).todo (hostSend b s) := by
  obtain ⟨rx, tp, n, heq⟩ := hostSend_frame b s
  rw [heq]
  exact h.surroundings hs _ _ _ _ _ _ _ _

/-- A move keeps the invariant or is a reset, if the completion of a command in flight keeps it. -/
theorem kept_applyMove {m : Move} {s t : State} (hs : J s.todo s)
    (hnvmc : m = .nvmc → s.nvmBusy = true → J s.todo (nvmComplete s)) (ht : applyMove m s = .next t) :
    J t.todo t ∨ ∃ cause, m = .reset cause ∧ t = applyReset cause s := by
  unfold applyMove at ht
  by_cases hr : s.seq = .resetting
  · rw [if_pos hr] at ht
    cases m
    case reset cause =>
      cases cause <;> cases ht
      case software => exact .inr ⟨_, rfl, rfl⟩
      all_goals exact .inl hs
    all_goals (cases ht; exact .inl hs)
  · rw [if_neg hr] at ht
    cases m
    case seq => exact .inl (h.kept_seqMove hs ht)
    all_goals obtain rfl := Host.Outcome.next.inj ht
    case nvmc =>
      refine .inl ?_
      split_ifs with hb
      · rw [nvmComplete_todo]; exact hnvmc rfl hb
      · exact hs
    case utx => rw [utxMove_todo]; exact .inl (h.utx hs)
    case tmr => rw [timerTick_todo]; exact .inl (h.kept_timerTick hs)
    case xcvr => exact .inl (h.kept_xcvrMove hs)
    case send b => exact .inl (h.kept_hostSend hs b)
    case recv => exact .inl (h.surroundings hs _ _ _ _ _ _ _ _)
    case reset cause =>
      split_ifs
      · exact .inr ⟨cause, rfl, rfl⟩
      · exact .inl hs
    case line asserted => exact .inl (h.surroundings hs _ _ _ _ _ _ _ _)

/-- The head of an iteration of the loop. -/
theorem kept_fetchOp {s : State} {b : Byte} (hs : J s.todo s) (hb : fetchByte s = some b) :
    J (pathOf s.cfg (decodeOp s.cfg b)) (fetchOp s) := by
  obtain ⟨-, ⟨ps, htodo⟩ | ⟨ps, htodo⟩⟩ := fetchByte_cases hb <;> rw [htodo] at hs
  · have hpet : J (.rxOp :: ps) (log .wdtPet s) := h.perform hs
    simpa [fetchOp, htodo] using h.fetch hpet b
  · simpa [fetchOp, htodo] using h.fetch hs b

end PathInvariant

/-! ### Runs and steps -/

namespace RunInvariant

variable {J : List Prim → State → Prop} (h : RunInvariant J)
include h

theorem kept_help (p : Prim) {ps : List Prim} {s : State} (hs : J ps s) : J ps (help p s) := by
  cases p
  case waitReady =>
    simp only [help]
    split_ifs with hb
    · exact h.nvmc hb hs
    · exact hs
  case txWaitComplete => exact h.kept_drain hs
  case delay d =>
    cases d
    case resetDelay =>
      simp only [help]
      split_ifs
      · exact h.kept_drain hs
      · exact hs
    all_goals exact hs
  all_goals exact hs

theorem kept_iterate (n : Nat) {p : Prim} {ps : List Prim} {s : State} (hs : J (p :: ps) s) :
    (iterate n p s).Leaves J p ps := by
  induction n generalizing s with
  | zero => exact hs
  | succ n ih =>
    have hp := h.perform hs
    rw [iterate]
    cases he : perform p s with
    | again s' => rw [he] at hp; exact ih hp
    | _ => rw [he] at hp; exact hp

theorem kept_drive {p : Prim} {ps : List Prim} {s : State} (hs : J (p :: ps) s) : (drive p s).Leaves J p ps :=
  h.kept_iterate _ (h.kept_help p hs)

theorem kept_runWith {turned : List Prim → State → Result}
    (hturned : ∀ path s t, J path s → turned path s = .next t → J t.todo t) (ps : List Prim) (s t : State) (hs : J ps s)
    (ht : runWith turned ps s = .next t) : J t.todo t := by
  induction ps generalizing s with
  | nil => cases ht; exact h.home hs
  | cons p ps ih =>
    have hdrive := h.kept_drive hs
    rw [runWith] at ht
    cases he : drive p s <;> rw [he] at ht hdrive
    case done s' => exact ih s' hdrive ht
    case turn path s' => exact hturned path s' t hdrive ht
    all_goals exact h.kept_standing hdrive ht

theorem kept_runCommand {ps : List Prim} {s t : State} (hs : J ps s) (ht : runCommand ps s = .next t) : J t.todo t := by
  rw [runCommand_eq_runWith] at ht
  refine h.kept_runWith (fun path s t hs ht => ?_) ps s t hs ht
  rw [runPath_eq_runWith] at ht
  exact h.kept_runWith (fun path s t hs ht => by cases ht; exact h.kept_settle hs) path s t hs ht

theorem kept_othersMove {s : State} (hs : J s.todo s) : J (othersMove s).todo (othersMove s) := by
  unfold othersMove
  split_ifs with hb
  · rw [nvmComplete_todo]; exact h.nvmc hb hs
  · rw [timerTick_todo]; exact h.kept_timerTick hs
  · rw [utxMove_todo]; exact h.utx hs

theorem kept_advance {s t : State} (hs : J s.todo s) (ht : advance s = .next t) :
    J t.todo t ∨ t = applyReset .software s := by
  unfold advance at ht
  split at ht
  · cases ht
    split_ifs
    · exact .inr rfl
    · exact .inl hs
  · split_ifs at ht
    · cases ht; exact .inl (h.kept_othersMove hs)
    · exact .inl (h.kept_runCommand hs ht)

/-- A step keeps the invariant or is a reset. -/
theorem kept_step {s t : State} (hs : J s.todo s) (ht : step s = .next t) :
    J t.todo t ∨ ∃ cause sched, t = applyReset cause { s with sched := sched } := by
  unfold step at ht
  split_ifs at ht
  split at ht
  · next m rest _ =>
    have hrest : J s.todo { s with sched := rest } := h.surroundings hs _ rest _ _ _ _ _ _
    exact (h.kept_applyMove hrest (fun _ hb => h.nvmc hb hrest) ht).imp_right fun ⟨cause, _, heq⟩ => ⟨cause, rest, heq⟩
  · split at ht
    · next b hb =>
      rw [exec_eq_runCommand, fetchOp_cfg] at ht
      exact .inl (h.kept_runCommand (h.kept_fetchOp hs hb) ht)
    · exact (h.kept_advance hs ht).imp_right fun heq => ⟨.software, s.sched, heq⟩

end RunInvariant

end Sys2Proof.Machine
end

section
/-! SUPPORT. What performing a primitive leaves alone, said once for all primitives; what the other shared moves do to the
fields of the statements below. -/

namespace Sys2Proof.Machine

/-! ### What a primitive leaves alone -/

/-- The primitives that decide the Entry State (10_state.md R26). -/
def Prim.decides : Prim → Bool
  | .arbitrate => true
  | .poll => true
  | _ => false

/-- Between `s` and `t` the sequencer has performed `p`: the configuration is as it was (R41), no memory is written
(R28) and no byte put on the wire (R249), nothing is taken back from the trace (R38), and only the arbiter decides. -/
structure Performed (p : Prim) (s t : State) : Prop where
  cfg : t.cfg = s.cfg
  mem : t.mem = s.mem
  wireOut : t.wireOut = s.wireOut
  trace : s.trace <+: t.trace
  entry : p.decides = false → t.entry = s.entry

theorem performed_draw (s : State) : Performed .poll s (draw s).2 := by
  rw [draw_frame]
  exact ⟨rfl, rfl, rfl, List.prefix_rfl, fun _ => rfl⟩

theorem performed_pollByte (b : Byte) (ps : List Prim) (s : State) :
    (pollByte b s).Leaves (fun _ t => Performed .poll s t) .poll ps := by
  unfold pollByte
  split_ifs <;> exact ⟨rfl, rfl, rfl, List.prefix_append _ _, nofun⟩

theorem performed_pollStep (ps : List Prim) (s : State) :
    (pollStep s).Leaves (fun _ t => Performed .poll s t) .poll ps := by
  have hdraw := performed_draw s
  unfold pollStep
  split
  · split_ifs <;> exact ⟨rfl, rfl, rfl, List.prefix_rfl, nofun⟩
  · split_ifs
    · simp only
      split_ifs
      · refine (performed_pollByte _ ps (draw s).2).mono fun _ t ht => ?_
        exact ⟨ht.cfg.trans hdraw.cfg, ht.mem.trans hdraw.mem, ht.wireOut.trans hdraw.wireOut, hdraw.trace.trans ht.trace,
          nofun⟩
      · exact ⟨hdraw.cfg, hdraw.mem, hdraw.wireOut, hdraw.trace, nofun⟩
    · exact performed_pollByte _ ps s

/-- Every primitive, whatever it comes to. -/
theorem performed_perform (p : Prim) (ps : List Prim) (s : State) :
    (perform p s).Leaves (fun _ t => Performed p s t) p ps := by
  cases p
  case poll => exact performed_pollStep ps s
  case echo certain =>
    obtain ⟨e, t, n, -, -, h⟩ := echoByte_frame certain s
    simp only [perform, h]
    exact ⟨rfl, rfl, rfl, List.prefix_rfl, fun _ => rfl⟩
  case rxPoll => exact ⟨rfl, rfl, rfl, List.prefix_append _ _, fun _ => rfl⟩
  case arbitrate =>
    simp only [perform, arbitrate]
    repeat' split
    all_goals exact ⟨rfl, rfl, rfl, by simp [timerStart, log], nofun⟩
  all_goals
    simp only [perform, payloadStep, dataStep, tryIssue]
    repeat' split
    all_goals first | trivial | exact ⟨rfl, rfl, rfl, by simp [log], fun _ => rfl⟩

/-! ### What the other parts of a step change -/

/-- The end of a path writes the label and the rest of the path only. -/
theorem home_frame (s : State) : ∃ l x, home s = { s with seq := l, todo := x } := by
  unfold home
  split_ifs
  · exact ⟨s.seq, _, rfl⟩
  · exact ⟨_, _, rfl⟩

theorem takeOpcode_frame (s : State) :
    ∃ rx b es, takeOpcode s = { s with rxq := rx, op := b, trace := s.trace ++ es } := by
  unfold takeOpcode
  split
  · exact ⟨s.rxq, s.op, [], by simp⟩
  · exact ⟨_, _, _, rfl⟩

/-- The oldest bytes queued go to the wire: one, or none where none is queued (46_transceiver.md R249). -/
theorem utxMove_frame (s : State) :
    ∃ bs, utxMove s =
      { s with txq := s.txq.tail, wireOut := s.wireOut ++ bs, trace := s.trace ++ bs.map .tx } := by
  cases hq : s.txq with
  | nil => exact ⟨[], by cases s; simp_all [utxMove]⟩
  | cons b rest => exact ⟨[b], by simp [utxMove, hq, log]⟩

theorem nvmComplete_mem_of_none {s : State} (h : s.nvmPending = none) : (nvmComplete s).mem = s.mem := by
  simp [nvmComplete, h]

theorem nvmComplete_trace (s : State) : s.trace <+: (nvmComplete s).trace := by
  cases h : s.nvmPending with
  | none => simp [nvmComplete, h]
  | some c => simp [nvmComplete_pending s c h]

/-- A reset with no command in flight keeps the memory (R230). -/
theorem applyReset_mem_of_none {s : State} (cause : ResetCause) (h : s.nvmPending = none) :
    (applyReset cause s).mem = s.mem := by
  simp [applyReset, scramble, h]

/-- A reset that cuts a command writes draws into its target (R230). -/
theorem applyReset_mem_of_some {s : State} (cause : ResetCause) {c : NvmCmd} (h : s.nvmPending = some c) :
    ∃ bs : List Byte, bs.length = (c.target s.cfg).2.2 ∧
      (applyReset cause s).mem = s.mem.writeBytes (c.target s.cfg).1 (c.target s.cfg).2.1 bs := by
  refine ⟨(fillDraws (List.replicate (c.target s.cfg).2.2 none) s).1, by simp, ?_⟩
  simp [applyReset, scramble, h, writeTarget]

end Sys2Proof.Machine
end

section
/-! SUPPORT. R28: what the memory holds, carried along the moves of every agent but the controller. -/

namespace Sys2Proof.Machine

/-- No agent but the controller writes memory. -/
theorem pathInvariant_mem (m : NvMem) : PathInvariant fun _ u => u.mem = m where
  surroundings h _ _ _ _ _ _ _ _ := h
  perform {p ps s} h := (performed_perform p ps s).mono fun _ _ ht => ht.mem.trans h
  home {s} h := by
    obtain ⟨l, x, heq⟩ := home_frame s
    rw [heq]
    exact h
  fetch {_ s} h _ := by
    obtain ⟨rx, b, es, heq⟩ := takeOpcode_frame s
    rw [heq]
    exact h
  utx {_ s} h := by
    obtain ⟨bs, heq⟩ := utxMove_frame s
    rw [heq]
    exact h

/-- Settles O35: with the controller and the reset set apart by the premises, every other move keeps the memory; with nothing
pending neither of the two writes. -/
theorem onlyTheControllerWrites : Obligations.OnlyTheControllerWrites := by
  intro s t m ht
  refine ⟨fun hnvmc hreset => ?_, fun hnone => ?_⟩
  · obtain hmem | ⟨cause, hm, -⟩ := (pathInvariant_mem s.mem).kept_applyMove rfl (fun hm => absurd hm hnvmc) ht
    · exact hmem
    · exact absurd hm (hreset cause)
  · obtain hmem | ⟨cause, -, rfl⟩ :=
      (pathInvariant_mem s.mem).kept_applyMove rfl (fun _ _ => nvmComplete_mem_of_none hnone) ht
    · exact hmem
    · exact applyReset_mem_of_none cause hnone

end Sys2Proof.Machine
end

section
/-! SUPPORT. R38, R32: the trace and the wire, carried along every step. -/

namespace Sys2Proof.Machine

/-- Nothing of the trace and the wire of `s` is taken back in `t`. -/
structure HistoryKept (s t : State) : Prop where
  trace : s.trace <+: t.trace
  wireOut : s.wireOut <+: t.wireOut

theorem HistoryKept.trans {s t u : State} (h : HistoryKept s t) (h' : HistoryKept t u) : HistoryKept s u :=
  ⟨h.trace.trans h'.trace, h.wireOut.trans h'.wireOut⟩

theorem historyKept_utxMove (s : State) : HistoryKept s (utxMove s) := by
  obtain ⟨bs, heq⟩ := utxMove_frame s
  rw [heq]
  exact ⟨List.prefix_append _ _, List.prefix_append _ _⟩

theorem historyKept_nvmComplete (s : State) : HistoryKept s (nvmComplete s) := by
  refine ⟨nvmComplete_trace s, ?_⟩
  obtain ⟨m, st, t, n, tr, heq⟩ := nvmComplete_frame s
  rw [heq]
  exact List.prefix_rfl

theorem runInvariant_historyKept (s₀ : State) : RunInvariant fun _ u => HistoryKept s₀ u where
  surroundings h _ _ _ _ _ _ _ _ := ⟨h.trace, h.wireOut⟩
  perform {p ps s} h := (performed_perform p ps s).mono fun _ t ht => h.trans ⟨ht.trace, ht.wireOut ▸ List.prefix_rfl⟩
  home {s} h := by
    obtain ⟨l, x, heq⟩ := home_frame s
    rw [heq]
    exact ⟨h.trace, h.wireOut⟩
  fetch {_ s} h _ := by
    obtain ⟨rx, b, es, heq⟩ := takeOpcode_frame s
    rw [heq]
    exact h.trans ⟨List.prefix_append _ _, List.prefix_rfl⟩
  utx {_ s} h := h.trans (historyKept_utxMove s)
  nvmc {_ s} _ h := h.trans (historyKept_nvmComplete s)

/-- Settles O53: the history is kept along every step, and a reset writes its event after it. -/
theorem historyOnlyGrows : Obligations.HistoryOnlyGrows := by
  intro s t ht
  obtain h | ⟨cause, sched, rfl⟩ := (runInvariant_historyKept s).kept_step ⟨List.prefix_rfl, List.prefix_rfl⟩ ht
  · exact ⟨h.trace, h.wireOut⟩
  · exact ⟨List.prefix_append _ _, List.prefix_rfl⟩

end Sys2Proof.Machine
end

section
/-! SUPPORT. The invariant of Safety.lean: it holds after a reset, and every step keeps it; with it the Entry State that has
been decided. -/

namespace Sys2Proof.Machine

/-! ### After a reset -/

/-- The machine right after a reset meets the invariant, whatever the history and the inputs that a reset keeps. -/
theorem inv_resetOf {c : Config} {m : NvMem} (hc : c.wf = true) (hm : m.wf c = true) (w : List Byte) (n : Nat) (line : Bool)
    (tr : List Event) (sched : List Move) (tape : List Byte) (draws : Nat) :
    Inv { State.resetOf c with
      mem := m, wireOut := w, hostRead := n, entryLine := line, trace := tr, sched := sched, tape := tape
      draws := draws } where
  config := hc
  memory := hm
  staging := rfl
  buffer := List.length_replicate
  interrupts := rfl
  unlock := rfl
  busy := rfl
  pending := nofun
  driving _ h := absurd rfl h
  lines _ := ⟨rfl, rfl⟩
  count := (by decide : 0 < 65536)
  data := (by decide : 0 < 65536)
  path := rfl
  ending := rfl

/-- Settles O39: the fields of the one state, its buffer being a list of unwritten positions. -/
theorem resetStateValues : Obligations.ResetStateValues :=
  ⟨rfl, rfl, fun _ hx => List.eq_of_mem_replicate hx, List.length_replicate, rfl, rfl, rfl, rfl, rfl, rfl, rfl, rfl, rfl, rfl,
    rfl, by decide⟩

/-- Settles O48: both states are of the form of `inv_resetOf`. -/
theorem invAtReset : Obligations.InvAtReset :=
  ⟨fun c hc => inv_resetOf hc rfl [] 0 false [] [] [] 0,
    inv_resetOf (c := Config.tiny) (by decide) rfl [] 0 false [.reset .powerOn] [] [] 0⟩

theorem Steady.inv_applyReset {s : State} (h : Steady s) (cause : ResetCause) : Inv (applyReset cause s) := by
  have hmem : (applyReset cause s).mem.wf s.cfg = true := by
    cases hp : s.nvmPending with
    | none => rw [applyReset_mem_of_none cause hp]; exact h.memory
    | some c =>
      obtain ⟨bs, hlen, hmem⟩ := applyReset_mem_of_some cause hp
      rw [hmem]
      exact NvMem.wf_writeBytes _ _ _ _ _ h.memory (hlen ▸ NvmCmd.target_inside _ c h.config (h.pending c hp))
  exact inv_resetOf h.config hmem _ _ _ _ _ _ _

/-! ### What the other agents keep of the relations -/

theorem Steady.kept_utxMove {s : State} (h : Steady s) : Steady (utxMove s) := by
  obtain ⟨bs, heq⟩ := utxMove_frame s
  rw [heq]
  refine ⟨h.config, h.memory, h.staging, h.buffer, h.interrupts, h.unlock, h.busy, h.pending, fun hd hq => ?_, h.lines,
    h.count, h.data⟩
  exact h.driving hd fun hnil => hq (by simp [hnil])

theorem knownOf_le_utxMove (s : State) : (knownOf s).le (knownOf (utxMove s)) := by
  obtain ⟨bs, heq⟩ := utxMove_frame s
  rw [heq]
  exact ⟨id, id, id, le_rfl, rfl, rfl, fun hq => by simp_all [knownOf], id, id, id, le_rfl⟩

theorem Steady.kept_nvmComplete {s : State} (h : Steady s) (hb : s.nvmBusy = true) : Steady (nvmComplete s) := by
  obtain ⟨c, hc⟩ := Option.isSome_iff_exists.1 (h.busy ▸ hb)
  have hfits : (c.target s.cfg).2.1 + (fillDraws (c.wanted s) s).1.length ≤ s.cfg.size (c.target s.cfg).1 := by
    rw [length_fillDraws, NvmCmd.length_wanted s c h.config]
    exact NvmCmd.target_inside s.cfg c h.config (h.pending c hc)
  rw [nvmComplete_pending s c hc]
  exact ⟨h.config, NvMem.wf_writeBytes _ _ _ _ _ h.memory hfits, rfl, h.buffer, h.interrupts, h.unlock, rfl, nofun,
    h.driving, h.lines, h.count, h.data⟩

theorem Steady.knownOf_le_nvmComplete {s : State} (h : Steady s) (hb : s.nvmBusy = true) :
    (knownOf s).le (knownOf (nvmComplete s)) := by
  obtain ⟨c, hc⟩ := Option.isSome_iff_exists.1 (h.busy ▸ hb)
  rw [nvmComplete_pending s c hc]
  exact ⟨fun _ => rfl, id, id, le_rfl, rfl, rfl, id, id, fun _ => rfl, id, le_rfl⟩

/-! ### Every step keeps the invariant -/

/-- The invariant with the path `ps` to be performed, whatever stands in `todo`. -/
structure InvFor (ps : List Prim) (s : State) : Prop where
  steady : Steady s
  path : pathSafe s.cfg (knownOf s) ps = true
  ending : endsAt s.seq ps = true

theorem invFor_todo {s : State} : InvFor s.todo s ↔ Inv s :=
  ⟨fun h => ⟨h.steady, h.path, h.ending⟩, fun h => ⟨h.toSteady, h.path, h.ending⟩⟩

theorem InvFor.safe {p : Prim} {ps : List Prim} {s : State} (h : InvFor (p :: ps) s) :
    p.safe s.cfg (knownOf s) = true ∧ pathSafe s.cfg (p.after (knownOf s)) ps = true := by
  simpa [pathSafe] using h.path

/-- Knowing more, in a state with the same configuration and label. -/
theorem InvFor.of_le {ps : List Prim} {s t : State} (h : InvFor ps s) (ht : Steady t) (hc : t.cfg = s.cfg)
    (hl : t.seq = s.seq) (hle : (knownOf s).le (knownOf t)) : InvFor ps t :=
  ⟨ht, by rw [hc]; exact pathSafe_mono ps hle h.path, by rw [hl]; exact h.ending⟩

theorem InvFor.leaves_perform {p : Prim} {ps : List Prim} {s : State} (h : InvFor (p :: ps) s) :
    (perform p s).Leaves InvFor p ps := by
  obtain ⟨hsafe, hrest⟩ := h.safe
  have hkeeps := keeps_perform p s h.steady hsafe
  have hends := ends_perform p ps s h.ending
  cases he : perform p s <;> rw [he] at hkeeps hends
  case done s' =>
    obtain ⟨hsteady, hcfg, hle⟩ := hkeeps
    exact ⟨hsteady, by rw [hcfg]; exact pathSafe_mono ps hle hrest, hends⟩
  case again s' =>
    obtain ⟨hsteady, hcfg, -, hsafe', hle⟩ := hkeeps
    refine ⟨hsteady, ?_, hends⟩
    rw [hcfg, pathSafe, hsafe', pathSafe_mono ps hle hrest]
    rfl
  case wait s' =>
    obtain rfl : s' = s := hkeeps
    exact h
  case turn path s' =>
    obtain ⟨hsteady, hcfg, hsafe'⟩ := hkeeps
    exact ⟨hsteady, by rw [hcfg]; exact hsafe', hends⟩
  case fault f => trivial

theorem InvFor.kept_home {s : State} (h : InvFor [] s) : InvFor (home s).todo (home s) := by
  have hidle : (knownOf s).idle = true := h.path
  have hloop : pathSafe s.cfg (knownOf s) loopTop = true := by
    simp [loopTop, pathSafe, Prim.safe, Prim.after, hidle]
  unfold home
  split_ifs
  · exact ⟨h.steady.congr rfl rfl rfl rfl rfl rfl rfl rfl rfl rfl rfl rfl rfl, hidle, rfl⟩
  · exact ⟨h.steady.congr rfl rfl rfl rfl rfl rfl rfl rfl rfl rfl rfl rfl rfl, hloop, rfl⟩

theorem InvFor.kept_fetch {ps : List Prim} {s : State} (h : InvFor (.rxOp :: ps) s) (i : Instr) :
    InvFor (pathOf s.cfg i) (takeOpcode s) := by
  have hidle : (knownOf s).idle = true := h.safe.1
  obtain ⟨rx, b, es, heq⟩ := takeOpcode_frame s
  rw [heq]
  exact ⟨h.steady.congr rfl rfl rfl rfl rfl rfl rfl rfl rfl rfl rfl rfl rfl, pathOf_safe s.cfg h.steady.config i _ hidle,
    endsAt_pathOf s.cfg i (endsAt_cons h.ending)⟩

theorem runInvariant_invFor : RunInvariant InvFor where
  surroundings h _ _ _ _ _ _ _ _ :=
    h.of_le (h.steady.congr rfl rfl rfl rfl rfl rfl rfl rfl rfl rfl rfl rfl rfl) rfl rfl (Known.le.refl _)
  perform h := h.leaves_perform
  home h := h.kept_home
  fetch h _ := h.kept_fetch _
  utx {_ s} h := by
    have hle := knownOf_le_utxMove s
    have hsteady := h.steady.kept_utxMove
    obtain ⟨bs, heq⟩ := utxMove_frame s
    rw [heq] at hle hsteady ⊢
    exact h.of_le hsteady rfl rfl hle
  nvmc {_ s} hb h := by
    have hle := h.steady.knownOf_le_nvmComplete hb
    have hsteady := h.steady.kept_nvmComplete hb
    obtain ⟨m, st, t, n, tr, heq⟩ := nvmComplete_frame s
    rw [heq] at hle hsteady ⊢
    exact h.of_le hsteady rfl rfl hle

/-- Settles O49: the invariant is carried along the run of the step, and a reset makes it anew. -/
theorem stepKeepsInv : Obligations.StepKeepsInv := by
  intro s t hinv ht
  obtain h | ⟨cause, sched, rfl⟩ := runInvariant_invFor.kept_step (invFor_todo.2 hinv) ht
  · exact invFor_todo.1 h
  · have hsteady : Steady { s with sched := sched } :=
      hinv.toSteady.congr rfl rfl rfl rfl rfl rfl rfl rfl rfl rfl rfl rfl rfl
    exact hsteady.inv_applyReset cause

/-! ### The Entry State -/

/-- With the Entry State decided, no primitive that decides it has what it needs. -/
theorem InvFor.not_decides {p : Prim} {ps : List Prim} {s : State} (h : InvFor (p :: ps) s) (he : s.entry ≠ .undecided) :
    p.decides = false := by
  have hsafe := h.safe.1
  have hk : (knownOf s).undecided = false := by simpa [knownOf] using he
  cases p
  case arbitrate => simp [Prim.safe, hk] at hsafe
  case poll => simp [Prim.safe, hk] at hsafe
  all_goals rfl

theorem runInvariant_entry {e : Entry} (he : e ≠ .undecided) : RunInvariant fun ps u => InvFor ps u ∧ u.entry = e where
  surroundings := fun ⟨hinv, hentry⟩ x sc line seen rx tc tp n =>
    ⟨runInvariant_invFor.surroundings hinv x sc line seen rx tc tp n, hentry⟩
  perform {p ps s} := fun ⟨hinv, hentry⟩ =>
    hinv.leaves_perform.and ((performed_perform p ps s).mono fun _ _ ht =>
      (ht.entry (hinv.not_decides (hentry ▸ he))).trans hentry)
  home {s} := fun ⟨hinv, hentry⟩ => by
    refine ⟨hinv.kept_home, ?_⟩
    obtain ⟨l, x, heq⟩ := home_frame s
    rw [heq]
    exact hentry
  fetch {_ s} := fun ⟨hinv, hentry⟩ b => by
    refine ⟨hinv.kept_fetch _, ?_⟩
    obtain ⟨rx, b, es, heq⟩ := takeOpcode_frame s
    rw [heq]
    exact hentry
  utx {_ s} := fun ⟨hinv, hentry⟩ => by
    refine ⟨runInvariant_invFor.utx hinv, ?_⟩
    obtain ⟨bs, heq⟩ := utxMove_frame s
    rw [heq]
    exact hentry
  nvmc {_ s} hb := fun ⟨hinv, hentry⟩ => by
    refine ⟨runInvariant_invFor.nvmc hb hinv, ?_⟩
    obtain ⟨m, st, t, n, tr, heq⟩ := nvmComplete_frame s
    rw [heq]
    exact hentry

/-- Settles O47: a decided Entry State is carried along the run of the step, in which the arbiter does not come again; only a
reset ends it. -/
theorem entryIsDecidedOnce : Obligations.EntryIsDecidedOnce := by
  intro s t hinv ht
  by_cases he : s.entry = .undecided
  · exact .inr (.inl he)
  obtain ⟨-, hentry⟩ | ⟨cause, sched, rfl⟩ := (runInvariant_entry he).kept_step ⟨invFor_todo.2 hinv, rfl⟩ ht
  · exact .inl hentry
  · exact .inr (.inr ⟨rfl, rfl⟩)

end Sys2Proof.Machine
end

section
/-! SUPPORT. The byte orders (20_memory.md R66, 00_scope.md R9): the value of a field's bytes, and the two bytes of the
index. -/

namespace Sys2Proof.Machine

theorem littleEndian_leBytes (w n : Nat) (h : n < 256 ^ w) : littleEndian (leBytes w n) = n := by
  induction w generalizing n with
  | zero =>
    obtain rfl : n = 0 := by simpa using h
    rfl
  | succ w ih =>
    have hdiv : n / 256 < 256 ^ w := Nat.div_lt_of_lt_mul (by rwa [pow_succ'] at h)
    rw [leBytes, littleEndian, ih _ hdiv, BitVec.toNat_ofNat]
    omega

/-- The bitwise or of R117 is a sum: the two bytes do not overlap. -/
theorem toNat_indexOf (h l : Byte) : (indexOf h l).toNat = 256 * h.toNat + l.toNat := by
  have hfits : h.toNat * 2 ^ 8 < 2 ^ 16 := by omega
  rw [indexOf, BitVec.toNat_or, BitVec.toNat_shiftLeft, BitVec.toNat_setWidth_of_le (by omega),
    BitVec.toNat_setWidth_of_le (by omega), Nat.shiftLeft_eq, Nat.mod_eq_of_lt hfits, ← Nat.shiftLeft_eq,
    ← Nat.shiftLeft_add_eq_or_of_lt l.isLt, Nat.shiftLeft_eq, Nat.mul_comm]

theorem be16_eq_iff (v : Half) (h l : Byte) : be16 v = [h, l] ↔ v.toNat = 256 * h.toNat + l.toNat := by
  simp only [be16, List.cons.injEq, and_true, ← BitVec.toNat_inj, BitVec.extractLsb'_toNat, Nat.shiftRight_eq_div_pow]
  omega

theorem be16_indexOf (h l : Byte) : be16 (indexOf h l) = [h, l] := (be16_eq_iff _ h l).2 (toNat_indexOf h l)

/-- The two bytes a host sends for an index are read back as that index. -/
theorem indexOf_of_be16 {v : Half} {h l : Byte} (hb : be16 v = [h, l]) : indexOf h l = v :=
  BitVec.eq_of_toNat_eq ((toNat_indexOf h l).trans ((be16_eq_iff v h l).1 hb).symm)

/-- Settles O6: `le16` and `le32` are `leBytes` of two and of four bytes. -/
theorem byteOrders : Obligations.ByteOrders :=
  ⟨fun h l => ⟨be16_indexOf h l, toNat_indexOf h l⟩,
    fun n hn => ⟨rfl, littleEndian_leBytes 2 n hn⟩,
    fun v => ⟨length_leBytes 4 _, littleEndian_leBytes 4 _ v.isLt⟩,
    fun w n hn => ⟨length_leBytes w n, littleEndian_leBytes w n hn⟩⟩

end Sys2Proof.Machine
end

section
/-! SUPPORT. R61, R41, R65: the configuration and Boot Flash, which nothing in the block writes, carried along every step. -/

namespace Sys2Proof.Machine

/-- What is fixed at build time is the same in `t` as in `s`. -/
structure BuildKept (s t : State) : Prop where
  cfg : t.cfg = s.cfg
  boot : t.mem.boot = s.mem.boot

theorem runInvariant_buildKept (s₀ : State) : RunInvariant fun _ u => BuildKept s₀ u where
  surroundings h _ _ _ _ _ _ _ _ := ⟨h.cfg, h.boot⟩
  perform {p ps s} h :=
    (performed_perform p ps s).mono fun _ _ ht => ⟨ht.cfg.trans h.cfg, (congrArg NvMem.boot ht.mem).trans h.boot⟩
  home {s} h := by
    obtain ⟨l, x, heq⟩ := home_frame s
    rw [heq]
    exact ⟨h.cfg, h.boot⟩
  fetch {_ s} h _ := by
    obtain ⟨rx, b, es, heq⟩ := takeOpcode_frame s
    rw [heq]
    exact ⟨h.cfg, h.boot⟩
  utx {_ s} h := by
    obtain ⟨bs, heq⟩ := utxMove_frame s
    rw [heq]
    exact ⟨h.cfg, h.boot⟩
  nvmc {_ s} _ h := by
    refine ⟨?_, (nvmComplete_boot s).trans h.boot⟩
    obtain ⟨m, st, t, n, tr, heq⟩ := nvmComplete_frame s
    rw [heq]
    exact h.cfg

/-- No controller command names Boot Flash (R65). -/
theorem NvmCmd.target_ne_boot (c : Config) (x : NvmCmd) : (x.target c).1 ≠ .boot := by
  cases x <;> simp [NvmCmd.target]

/-- A reset draws bytes of the cut command's target only. -/
theorem applyReset_boot (cause : ResetCause) (s : State) : (applyReset cause s).mem.boot = s.mem.boot := by
  cases hp : s.nvmPending with
  | none => rw [applyReset_mem_of_none cause hp]
  | some c =>
    obtain ⟨bs, -, hmem⟩ := applyReset_mem_of_some cause hp
    rw [hmem]
    exact NvMem.region_writeBytes_of_ne s.mem _ bs (NvmCmd.target_ne_boot s.cfg c).symm

theorem buildKept_step {s t : State} (ht : step s = .next t) : BuildKept s t := by
  obtain h | ⟨cause, sched, rfl⟩ := (runInvariant_buildKept s).kept_step ⟨rfl, rfl⟩ ht
  · exact h
  · exact ⟨rfl, applyReset_boot cause { s with sched := sched }⟩

/-- Settles O51: Boot Flash is carried along the run of the step, and no command a reset can cut writes it. -/
theorem bootFlashIsConstant : Obligations.BootFlashIsConstant := fun _ _ ht => (buildKept_step ht).boot

/-- Settles O52: the configuration is carried along the run of the step, and a reset keeps it. -/
theorem configurationIsConstant : Obligations.ConfigurationIsConstant := fun _ _ ht => (buildKept_step ht).cfg

end Sys2Proof.Machine
end

section
/-! SUPPORT. The decoder on the byte of an instruction (30_encoding.md R108), and the parts of a frame (R102). -/

namespace Sys2Proof

/-! ### The opcode byte -/

/-- With no two rows for one byte, a row is what the lookup finds. -/
theorem lookup_eq_some_of_mem {rows : List (Byte × Instr)} {b : Byte} {i : Instr} (hn : (rows.map Prod.fst).Nodup)
    (hm : (b, i) ∈ rows) : rows.lookup b = some i := by
  obtain ⟨before, after, rfl⟩ := List.append_of_mem hm
  refine List.lookup_eq_some_iff.2 ⟨before, after, rfl, fun row hrow => ?_⟩
  simp only [List.map_append, List.map_cons, List.nodup_append] at hn
  simpa using (hn.2.2 row.1 (List.mem_map_of_mem hrow) b (by simp)).symm

theorem opcodeRows_keys (c : Config) : (opcodeRows c).map Prod.fst = c.knownBytes := rfl

theorem mem_opcodeRows (c : Config) {i : Instr} (hi : ∀ b, i ≠ .unknown b) : (opcodeOf c i, i) ∈ opcodeRows c := by
  cases i
  case unknown b => exact absurd rfl (hi b)
  all_goals simp [opcodeRows, opcodeOf]

theorem Config.knownBytes_nodup {c : Config} (hc : c.wf = true) : c.knownBytes.Nodup := by
  simp only [Config.wf, Bool.and_eq_true, Config.opcodesOk, decide_eq_true_eq] at hc
  obtain ⟨-, -, hnodup, -⟩ := hc
  exact hnodup

theorem decodeOp_opcodeOf {c : Config} {i : Instr} (hc : c.wf = true) (hi : i.wf c = true) :
    decodeOp c (opcodeOf c i) = i := by
  by_cases hrow : ∀ b, i ≠ .unknown b
  · rw [decodeOp, lookup_eq_some_of_mem (opcodeRows_keys c ▸ Config.knownBytes_nodup hc) (mem_opcodeRows c hrow)]
  · obtain ⟨b, rfl⟩ : ∃ b, i = .unknown b := by simpa using hrow
    have hb : b ∉ c.knownBytes := by simpa [Instr.wf] using hi
    have hnone : (opcodeRows c).lookup b = none := by
      refine List.lookup_eq_none_iff.2 fun row hrow => ?_
      simpa using fun heq : b = row.1 => hb (heq ▸ opcodeRows_keys c ▸ List.mem_map_of_mem hrow)
    rw [opcodeOf, decodeOp, hnone]

/-! ### The bytes of a frame after its opcode -/

/-- The index and the payload of a frame (R102). -/
def Frame.operands : Frame → List Byte
  | .f0 _ => []
  | .fi _ idx => be16 idx
  | .fip _ idx payload => be16 idx ++ payload
  | .fp _ payload => payload

theorem encodeFrame_eq (c : Config) (f : Frame) : encodeFrame c f = encode c f.instr ++ f.operands := by
  cases f <;> simp [encodeFrame, Frame.instr, Frame.operands]

/-- The payload of a well-formed frame is the one the device reads (R103, R111). -/
theorem Frame.wf_fip {c : Config} {i : Instr} {idx : Half} {p : List Byte} (h : (Frame.fip i idx p).wf c = true) :
    ∃ r, i.format = .fip r ∧ i.wf c = true ∧ p.length = payloadLength c r idx := by
  simp only [Frame.wf] at h
  split at h
  · next r hr => exact ⟨r, hr, by simpa using h⟩
  · cases h

theorem Frame.wf_fp {c : Config} {i : Instr} {p : List Byte} (h : (Frame.fp i p).wf c = true) :
    ∃ r, i.format = .fp r ∧ i.wf c = true ∧ p.length = c.page r := by
  simp only [Frame.wf] at h
  split at h
  · next r hr => exact ⟨r, hr, by simpa using h⟩
  · cases h

theorem Frame.wf_f0 {c : Config} {i : Instr} (h : (Frame.f0 i).wf c = true) : i.format = .f0 ∧ i.wf c = true := by
  simpa [Frame.wf, and_comm] using h

theorem Frame.wf_fi {c : Config} {i : Instr} {idx : Half} (h : (Frame.fi i idx).wf c = true) :
    i.format = .fi ∧ i.wf c = true := by
  simpa [Frame.wf, and_comm] using h

theorem Frame.instr_wf {c : Config} {f : Frame} (h : f.wf c = true) : f.instr.wf c = true := by
  cases f with
  | f0 i => exact (Frame.wf_f0 h).2
  | fi i idx => exact (Frame.wf_fi h).2
  | fip i idx p => obtain ⟨-, -, hi, -⟩ := Frame.wf_fip h; exact hi
  | fp i p => obtain ⟨-, -, hi, -⟩ := Frame.wf_fp h; exact hi

/-- RESET has an opcode and nothing else. -/
theorem Frame.eq_f0_reset {c : Config} {f : Frame} (h : f.wf c = true) (hi : f.instr = .reset) : f = .f0 .reset := by
  cases f with
  | f0 i => exact congrArg Frame.f0 hi
  | fi i idx => obtain rfl : i = .reset := hi; cases (Frame.wf_fi h).1
  | fip i idx p => obtain rfl : i = .reset := hi; obtain ⟨r, hr, -⟩ := Frame.wf_fip h; cases hr
  | fp i p => obtain rfl : i = .reset := hi; obtain ⟨r, hr, -⟩ := Frame.wf_fp h; cases hr

end Sys2Proof
end

section
/-! SUPPORT. The step that takes the opcode byte at the top of the command loop (30_encoding.md R120). -/

namespace Sys2Proof.Machine

/-- The state in which an instruction starts: the watchdog is petted, its opcode byte taken, and `rest` still to be read. -/
def fetched (i : Instr) (rest : List Byte) (s : State) : State :=
  { s with rxq := rest, op := opcodeOf s.cfg i, trace := s.trace ++ [.wdtPet, .rx (opcodeOf s.cfg i)] }

@[simp] theorem fetched_cfg (i : Instr) (rest : List Byte) (s : State) : (fetched i rest s).cfg = s.cfg := rfl
@[simp] theorem fetched_mem (i : Instr) (rest : List Byte) (s : State) : (fetched i rest s).mem = s.mem := rfl
@[simp] theorem sent_fetched (i : Instr) (rest : List Byte) (s : State) : sent (fetched i rest s) = sent s := rfl

theorem StorageReady.fetched {s : State} (hs : StorageReady s) (i : Instr) (rest : List Byte) :
    StorageReady (fetched i rest s) :=
  ⟨hs.config, hs.memory, hs.buffer, hs.idle⟩

/-- At the top of the loop a step is the instruction whose byte comes first. -/
theorem step_atLoop {s : State} {i : Instr} (hc : s.cfg.wf = true) (hs : s.sched = []) (hl : AtLoop s)
    (hi : i.wf s.cfg = true) (rest : List Byte) :
    step { s with rxq := encode s.cfg i ++ rest } = exec i (fetched i rest s) := by
  obtain ⟨-, ht⟩ := hl
  have hop := decodeOp_opcodeOf hc hi
  simp [step, hc, hs, fetchByte, fetchOp, ht, loopTop, encode, hop, takeOpcode, fetched, log]

end Sys2Proof.Machine
end

section
/-! SUPPORT. Control paths performed to their end, a part at a time: what a part that sends nothing leaves as it was, and the
replies with which commands end. -/

namespace Sys2Proof.Machine

/-! ### Paths to their end -/

/-- All of the path is performed and the block goes home, from `s` to `t`. -/
def Finishes (ps : List Prim) (s t : State) : Prop := ∃ u, Runs ps s u ∧ t = home u

theorem Finishes.runPath {ps : List Prim} {s t : State} (h : Finishes ps s t) : runPath ps s = .next t := by
  obtain ⟨u, hu, rfl⟩ := h
  exact runPath_of_runs hu

theorem Finishes.runCommand {ps : List Prim} {s t : State} (h : Finishes ps s t) : runCommand ps s = .next t := by
  obtain ⟨u, hu, rfl⟩ := h
  exact runCommand_of_runs hu

theorem Finishes.after {ps qs : List Prim} {s u t : State} (h : Finishes qs u t) (hu : Runs ps s u) :
    Finishes (ps ++ qs) s t := by
  obtain ⟨v, hv, rfl⟩ := h
  exact ⟨v, hu.append hv, rfl⟩

/-- An instruction whose path is performed to its end. -/
theorem Finishes.exec {i : Instr} {s t : State} (h : Finishes (pathOf s.cfg i) s t) : exec i s = .next t :=
  (exec_eq_runCommand i s).trans h.runCommand

/-! ### Parts that send nothing -/

/-- Between `s` and `u` nothing is sent and the lines stay: only the label, the operands, the receive path, the storage side,
the trace and the draws may differ. -/
def Silent (s u : State) : Prop :=
  ∃ l hi ix c d b bz pd st m rx tr t n, u =
    { s.withDraws t n with
      seq := l, idxHi := hi, idx := ix, cnt := c, data := d, buf := b, nvmBusy := bz, nvmPending := pd, nvmStage := st
      mem := m, rxq := rx, trace := tr }

/-- What is answered after such a part is what the whole answers. -/
theorem Silent.answered {rest bytes : List Byte} {s u t : State} (h : Silent s u) (ha : Answered rest bytes u t) :
    Answered rest bytes s t := by
  obtain ⟨_, _, _, _, _, _, _, _, _, _, _, _, _, _, rfl⟩ := h
  exact ha

/-! ### What stays -/

theorem SameControl.cfg {s t : State} (h : SameControl s t) : t.cfg = s.cfg := h.1

theorem Answered.cfg {rest bytes : List Byte} {s t : State} (h : Answered rest bytes s t) : t.cfg = s.cfg := by
  obtain ⟨-, -, hcontrol⟩ := h
  exact hcontrol.cfg

theorem SameControl.sched {s t : State} (h : SameControl s t) : t.sched = s.sched := by
  obtain ⟨-, -, -, -, -, -, -, -, -, -, -, hsched⟩ := h
  exact hsched

theorem SameControl.gie {s t : State} (h : SameControl s t) : t.gie = s.gie := by
  obtain ⟨-, -, -, -, -, hgie, -⟩ := h
  exact hgie

/-- In LEGACY a reply takes nothing from the receive path. -/
theorem Replied.rxq {rest bytes : List Byte} {s t : State} (h : Replied rest bytes s t) (hd : s.cfg.halfDuplex = false) :
    t.rxq = rest := by
  obtain ⟨-, -, hlegacy⟩ := h
  obtain ⟨-, -, -, hrxq⟩ := hlegacy hd
  exact hrxq

theorem SameOperands.trans {s u t : State} (h : SameOperands s u) (h' : SameOperands u t) : SameOperands s t := by
  obtain ⟨hi, hh, hc, hd⟩ := h
  obtain ⟨hi', hh', hc', hd'⟩ := h'
  exact ⟨hi'.trans hi, hh'.trans hh, hc'.trans hc, hd'.trans hd⟩

theorem SameStorage.storageReady {s t : State} (h : SameStorage s t) (hs : StorageReady s) (hc : t.cfg = s.cfg) :
    StorageReady t := by
  obtain ⟨hm, hb, hbusy, -, -⟩ := h
  exact ⟨hc ▸ hs.config, by rw [hc, hm]; exact hs.memory, by rw [hc, hb]; exact hs.buffer, hbusy.trans hs.idle⟩

theorem OnlyWire.storageReady {s u : State} (hw : OnlyWire s u) (hs : StorageReady s) : StorageReady u := by
  obtain ⟨_, _, _, _, _, _, _, _, _, _, rfl⟩ := hw
  exact ⟨hs.config, hs.memory, hs.buffer, hs.idle⟩

/-! ### Replies -/

theorem home_of_reply {u : State} (h : u.seq = .reply) : home u = { u with seq := .fetch, todo := loopTop } := by
  simp [home, h]

/-- `Reply([b])` as the end of a command. -/
theorem finishes_replyStatus (s : State) (b : Byte) :
    ∃ t, Finishes (replyStatus s.cfg b) s t ∧ Answered s.rxq [b] s t ∧ SameStorage s t ∧ SameOperands s t := by
  obtain ⟨u, hu, hreplied, -, hwire, hl, hcnt⟩ := runs_replyStatus s b
  obtain ⟨hstorage, hcontrol, hidx, hhi, hdata, -⟩ := hwire.same
  refine ⟨_, ⟨u, hu, rfl⟩, ?_⟩
  rw [home_of_reply hl]
  exact ⟨⟨⟨rfl, rfl⟩, hreplied, hcontrol⟩, hstorage, hidx, hhi, hcnt, hdata⟩

/-- `Reply(header ++ data)` as the end of a command. -/
theorem finishes_replyData (s : State) (header : List Byte) (hc : s.cnt = 0) :
    ∃ t, Finishes (replyData s.cfg header) s t ∧ Answered s.rxq (header ++ s.data) s t ∧
      SameStorage s t ∧ t.idx = s.idx ∧ t.idxHi = s.idxHi ∧ t.cnt = s.data.length := by
  obtain ⟨u, hu, hreplied, -, hwire, hl, hcnt⟩ := runs_replyData s header hc
  obtain ⟨hstorage, hcontrol, hidx, hhi, -, -⟩ := hwire.same
  refine ⟨_, ⟨u, hu, rfl⟩, ?_⟩
  rw [home_of_reply hl]
  exact ⟨⟨⟨rfl, rfl⟩, hreplied, hcontrol⟩, hstorage, hidx, hhi, hcnt⟩

/-- What a source gives, and whether it may be read, does not depend on the counter and the data already loaded. -/
@[simp] theorem sourceBytes_loading (s : State) (n : Nat) (d : List Byte) :
    sourceBytes { s with cnt := n, data := d } = sourceBytes s := by
  funext src
  cases src <;> rfl

@[simp] theorem sourceInRange_loading (s : State) (n : Nat) (d : List Byte) :
    sourceInRange { s with cnt := n, data := d } = sourceInRange s := by
  funext src
  cases src <;> rfl

theorem runs_fetches (srcs : List Source) (s : State) (hr : ∀ src ∈ srcs, sourceInRange s src = true) :
    Runs (srcs.map .fetch) s { s with data := s.data ++ srcs.flatMap (sourceBytes s) } := by
  induction srcs generalizing s with
  | nil => simp [Runs]
  | cons src srcs ih =>
    refine ⟨_, drive_fetch src s (hr src (by simp)), ?_⟩
    have h := ih { s with data := s.data ++ sourceBytes s src } fun x hx => by simpa using hr x (by simp [hx])
    simpa using h

/-- The sources are loaded, and sent after the header. -/
theorem finishes_replySources (s : State) (srcs : List Source) (header : List Byte)
    (hr : ∀ src ∈ srcs, sourceInRange s src = true) :
    ∃ t, Finishes (.fresh :: srcs.map .fetch ++ replyData s.cfg header) s t ∧
      Answered s.rxq (header ++ srcs.flatMap (sourceBytes s)) s t ∧ SameStorage s t ∧ t.idx = s.idx ∧
      t.idxHi = s.idxHi ∧ t.cnt = (srcs.flatMap (sourceBytes s)).length := by
  have hload : Runs (.fresh :: srcs.map .fetch) s { s with cnt := 0, data := srcs.flatMap (sourceBytes s) } :=
    ⟨_, drive_fresh s, by simpa using runs_fetches srcs { s with cnt := 0, data := [] } (by simpa using hr)⟩
  obtain ⟨t, ht, hanswered, hrest⟩ :=
    finishes_replyData { s with cnt := 0, data := srcs.flatMap (sourceBytes s) } header rfl
  exact ⟨t, ht.after hload, hanswered, hrest⟩

/-! ### The commands whose reply follows their opcode alone -/

/-- What such a command reads and sends: its label while it reads, the bytes before the data, and where the data come from. -/
structure Query where
  label : Seq
  header : List Byte
  sources : List Source

/-- READ_CRC (R143), READ_USERSIG (R171) and the query commands (R180 to R184). -/
def queryOf (c : Config) : Instr → Option Query
  | .readCrc => some ⟨.exec, [c.stOk], [.crc .app, .crc .boot]⟩
  | .readUsersig => some ⟨.exec, c.stOk :: le16 (c.size .us), [.userRow]⟩
  | .readMcuId => some ⟨.reply, c.stOk :: le16 4, [.mcuId]⟩
  | .readSerial => some ⟨.reply, c.stOk :: le16 c.serial.length, [.serial]⟩
  | .readVersion => some ⟨.reply, [c.stOk], [.version]⟩
  | .readFuses => some ⟨.reply, if c.protocol = .legacy then [] else [c.stOk], [.fuses]⟩
  | .readGeometry => some ⟨.reply, [c.stOk], [.geometry]⟩
  | _ => none

/-- The bytes it answers in `s`. -/
def Query.reply (q : Query) (s : State) : List Byte := q.header ++ q.sources.flatMap (sourceBytes s)

theorem pathOf_query {c : Config} {i : Instr} {q : Query} (h : queryOf c i = some q) :
    pathOf c i = .goto q.label :: (.fresh :: q.sources.map .fetch ++ replyData c q.header) := by
  cases i <;> cases h <;> rfl

theorem queryOf_inRange {s : State} {i : Instr} {q : Query} (h : queryOf s.cfg i = some q) :
    ∀ src ∈ q.sources, sourceInRange s src = true := by
  cases i <;> cases h <;> simp [sourceInRange]

/-- Such a command completes in every state and answers its bytes; the storage is as it was. -/
theorem exec_query {s : State} {i : Instr} {q : Query} (h : queryOf s.cfg i = some q) :
    ∃ t, exec i s = .next t ∧ Answered s.rxq (q.reply s) s t ∧ SameStorage s t ∧ t.idx = s.idx ∧ t.idxHi = s.idxHi ∧
      t.cnt = (q.sources.flatMap (sourceBytes s)).length := by
  have hrange : ∀ src ∈ q.sources, sourceInRange { s with seq := q.label } src = true := fun src hsrc => by
    have := queryOf_inRange h src hsrc
    cases src <;> exact this
  obtain ⟨t, ht, hrest⟩ := finishes_replySources { s with seq := q.label } q.sources q.header hrange
  have hbytes : sourceBytes { s with seq := q.label } = sourceBytes s := funext fun src => by cases src <;> rfl
  rw [hbytes] at hrest
  refine ⟨t, Finishes.exec ?_, hrest⟩
  rw [pathOf_query h]
  exact ht.after (Runs.single (drive_goto q.label s))

end Sys2Proof.Machine
end

section
/-! SUPPORT. The four indexed commands (20_memory.md R62, 30_encoding.md R117): the index read and checked, the range error
(60_exceptions.md R281), and the two page reads (R142, R160). -/

namespace Sys2Proof.Machine

/-- The state with an index read and latched, at its check. -/
def State.withIndex (s : State) (idx : Half) (hi : Byte) (rest : List Byte) (tr : List Event) : State :=
  { s with seq := .check, rxq := rest, idxHi := hi, idx := idx, trace := tr }

@[simp] theorem withIndex_cfg (s : State) (idx : Half) (hi : Byte) (rest : List Byte) (tr : List Event) :
    (s.withIndex idx hi rest tr).cfg = s.cfg := rfl

/-- The check of the latched index. -/
@[simp] theorem validIndex_withIndex (s : State) (c : Config) (r : Region) (idx : Half) (hi : Byte) (rest : List Byte)
    (tr : List Event) : validIndex c r (s.withIndex idx hi rest tr).idx = decide (idx.toNat < c.pageCount r) := rfl

theorem silent_withIndex (s : State) (idx : Half) (hi : Byte) (rest : List Byte) (tr : List Event) :
    Silent s (s.withIndex idx hi rest tr) :=
  ⟨_, _, _, _, _, _, _, _, _, _, _, _, _, _, rfl⟩

/-- The index is read and the check is next. -/
theorem runs_index {s : State} {idx : Half} {rest : List Byte} (hq : s.rxq = be16 idx ++ rest) :
    ∃ hi tr, Runs (readIndex ++ [.goto .check]) s (s.withIndex idx hi rest tr) := by
  obtain ⟨hi, lo, hbytes⟩ : ∃ hi lo, be16 idx = [hi, lo] := ⟨_, _, rfl⟩
  obtain ⟨tr, hread⟩ := runs_readIndex s hi lo rest (by rw [hq, hbytes]; rfl)
  rw [indexOf_of_be16 hbytes] at hread
  exact ⟨hi, tr, hread.append (Runs.single (drive_goto .check _))⟩

/-- An index in range passes the check. -/
theorem runs_checkedIndex {s : State} {idx : Half} {rest : List Byte} {r : Region} (hq : s.rxq = be16 idx ++ rest)
    (hidx : idx.toNat < s.cfg.pageCount r) :
    ∃ hi tr, Runs (readIndex ++ checkIndex r) s (s.withIndex idx hi rest tr) := by
  obtain ⟨hi, tr, hread⟩ := runs_index hq
  refine ⟨hi, tr, hread.append (qs := [.check r]) (Runs.single ?_)⟩
  simp [drive_check, hidx]

/-- The control path of an indexed command. -/
theorem pathOf_indexed (c : Config) {i : Instr} {r : Region} (h : indexRegion i = some r) :
    ∃ ps, pathOf c i = readIndex ++ [.goto .check] ++ .check r :: ps := by
  cases i <;> cases h <;> exact ⟨_, rfl⟩

/-- An index out of range is answered `ST_FAIL` and nothing more is read (R289). -/
theorem exec_rangeError {s : State} {i : Instr} {r : Region} {idx : Half} {rest : List Byte} (h : indexRegion i = some r)
    (hq : s.rxq = be16 idx ++ rest) (hidx : s.cfg.pageCount r ≤ idx.toNat) :
    ∃ t, exec i s = .next t ∧ Answered rest [s.cfg.stFail] s t ∧ SameStorage s t ∧
      t.idx = idx ∧ t.cnt = s.cnt ∧ t.data = s.data := by
  obtain ⟨ps, hpath⟩ := pathOf_indexed s.cfg h
  obtain ⟨hi, tr, hread⟩ := runs_index hq
  obtain ⟨t, ht, hanswered, hstorage, hti, -, hcnt, hdata⟩ :=
    finishes_replyStatus (s.withIndex idx hi rest tr) s.cfg.stFail
  have hcheck : drive (.check r) (s.withIndex idx hi rest tr) = .turn (rangeError s.cfg) (s.withIndex idx hi rest tr) := by
    simp [drive_check, hidx]
  refine ⟨t, ?_, (silent_withIndex s idx hi rest tr).answered hanswered, hstorage, hti, hcnt, hdata⟩
  rw [exec_eq_runCommand, hpath, runCommand_append hread, runCommand, hcheck]
  exact ht.runPath

/-- A page read with an index in range answers the status, the count and the page (R142, R160). -/
theorem exec_readIndexed {s : State} {i : Instr} {r : Region} {idx : Half} {rest : List Byte}
    (h : i = .readPage ∧ r = .app ∨ i = .readEeprom ∧ r = .ee) (hq : s.rxq = be16 idx ++ rest)
    (hidx : idx.toNat < s.cfg.pageCount r) :
    ∃ t, exec i s = .next t ∧
      Answered rest (s.cfg.stOk :: le16 (s.cfg.page r) ++
        s.mem.readBytes r (pageOffset s.cfg r idx.toNat) (s.cfg.page r)) s t ∧
      SameStorage s t ∧ t.idx = idx ∧ t.cnt = s.cfg.page r := by
  obtain ⟨hi, tr, hread⟩ := runs_checkedIndex hq hidx
  obtain ⟨t, ht, hanswered, hstorage, hti, -, hcnt⟩ :=
    finishes_replySources (s.withIndex idx hi rest tr) [.page r] (s.cfg.stOk :: le16 (s.cfg.page r))
      (by simp [sourceInRange, hidx])
  have hpath : pathOf s.cfg i = readIndex ++ checkIndex r ++
      (.fresh :: [Source.page r].map .fetch ++ replyData s.cfg (s.cfg.stOk :: le16 (s.cfg.page r))) := by
    obtain ⟨rfl, rfl⟩ | ⟨rfl, rfl⟩ := h <;> rfl
  refine ⟨t, Finishes.exec (hpath ▸ ht.after hread), ?_, hstorage, hti, ?_⟩
  · simpa [sourceBytes, State.withIndex] using (silent_withIndex s idx hi rest tr).answered hanswered
  · simpa [sourceBytes, NvMem.length_readBytes] using hcnt

end Sys2Proof.Machine
end

section
/-! SUPPORT. The erases and the page writes (40_flash_commands.md R140, R141, 41_eeprom_commands.md R161,
42_usersig_commands.md R170, R172): what a controller command leaves in memory, and the commands around it. -/

namespace Sys2Proof.Machine

/-! ### A controller command completed -/

/-- From `s` to `t` the controller has performed `x`: each byte of `wanted` stands at its position of the target, a byte not
given there being free; no byte outside the target differs, and the controller is idle (R218). -/
structure NvmCmd.Written (x : NvmCmd) (wanted : List (Option Byte)) (s t : State) : Prop where
  idle : ControllerIdle t
  read : ∀ k v, wanted[k]? = some (some v) → t.mem.read (x.target s.cfg).1 ((x.target s.cfg).2.1 + k) = v
  outside : SameMemoryOutside (x.target s.cfg).1 (x.target s.cfg).2.1 (x.target s.cfg).2.2 s t
  memory : t.mem.wf s.cfg = true

/-- Of the first state only the configuration and the memory matter. -/
theorem NvmCmd.Written.of_eq {x : NvmCmd} {wanted : List (Option Byte)} {s s' t : State} (h : x.Written wanted s' t)
    (hc : s'.cfg = s.cfg) (hm : s'.mem = s.mem) : x.Written wanted s t := by
  obtain ⟨hidle, hread, houtside, hmemory⟩ := h
  rw [hc] at hread houtside hmemory
  rw [SameMemoryOutside, hm] at houtside
  exact ⟨hidle, hread, houtside, hmemory⟩

/-- Of the last one only the storage. -/
theorem NvmCmd.Written.of_sameStorage {x : NvmCmd} {wanted : List (Option Byte)} {s u t : State} (h : x.Written wanted s u)
    (hsame : SameStorage u t) : x.Written wanted s t := by
  obtain ⟨hm, -, hb, hp, hst⟩ := hsame
  constructor
  · rw [ControllerIdle, hb, hp, hst]; exact h.idle
  · rw [hm]; exact h.read
  · rw [SameMemoryOutside, hm]; exact h.outside
  · rw [hm]; exact h.memory

theorem NvmCmd.Written.storageReady {x : NvmCmd} {wanted : List (Option Byte)} {s t : State} (h : x.Written wanted s t)
    (hs : StorageReady s) (hc : t.cfg = s.cfg) (hb : t.buf.length = s.buf.length) : StorageReady t :=
  ⟨hc ▸ hs.config, hc ▸ h.memory, hc ▸ hb.trans hs.buffer, h.idle.1⟩

/-- What a completion leaves (R218). -/
theorem nvmComplete_written {s : State} {x : NvmCmd} (hc : s.cfg.wf = true) (hm : s.mem.wf s.cfg = true)
    (hp : s.nvmPending = some x) (hr : x.inRange s.cfg = true) : x.Written (x.wanted s) s (nvmComplete s) := by
  have hlen : (fillDraws (x.wanted s) s).1.length = (x.target s.cfg).2.2 := by
    rw [length_fillDraws, NvmCmd.length_wanted s x hc]
  rw [nvmComplete_pending s x hp]
  refine ⟨⟨rfl, rfl, rfl⟩, fun k v hk => ?_, fun r a ha => ?_,
    NvMem.wf_writeBytes _ _ _ _ _ hm (hlen ▸ NvmCmd.target_inside _ x hc hr)⟩
  · obtain ⟨hlt, hget⟩ := List.getElem?_eq_some_iff.1 (fillDraws_given _ s k v hk)
    exact (NvMem.read_writeBytes_same _ _ _ k _ (NvMem.canonical_of_wf hm) hlt).trans hget
  · rw [NvMem.read_writeBytes _ _ _ _ _ _ (NvMem.canonical_of_wf hm), hlen, if_neg ha]

/-- A command issued by an idle controller and completed: what it leaves, and that it sends nothing. -/
theorem nvmComplete_nvmIssue {s : State} {x : NvmCmd} (hc : s.cfg.wf = true) (hm : s.mem.wf s.cfg = true)
    (hr : x.inRange s.cfg = true) :
    ∃ t, nvmComplete (nvmIssue x s) = t ∧ x.Written (x.wanted s) s t ∧ Silent s t ∧ t.cfg = s.cfg ∧ t.rxq = s.rxq ∧
      t.buf = s.buf ∧ SameOperands s t := by
  have hwanted : x.wanted (nvmIssue x s) = x.wanted s := by cases x <;> rfl
  have hwritten := nvmComplete_written (s := nvmIssue x s) hc hm rfl hr
  rw [hwanted] at hwritten
  obtain ⟨m, st, t, n, tr, hframe⟩ := nvmComplete_frame (nvmIssue x s)
  refine ⟨_, rfl, hwritten.of_eq rfl rfl, ?_⟩
  rw [hframe]
  exact ⟨⟨_, _, _, _, _, _, _, _, _, _, _, _, _, _, rfl⟩, rfl, rfl, rfl, rfl, rfl, rfl, rfl⟩

/-- A commit between its barriers, and the status after it: the end of every erase and every write (R72, R73). -/
theorem finishes_commit {s : State} {x : NvmCmd} {commit : List Prim} (hs : StorageReady s)
    (hr : x.inRange s.cfg = true) (hrun : Runs commit s (nvmComplete (nvmIssue x s))) :
    ∃ t, Finishes (commit ++ replyStatus s.cfg s.cfg.stOk) s t ∧ Answered s.rxq [s.cfg.stOk] s t ∧
      x.Written (x.wanted s) s t ∧ t.buf = s.buf ∧ SameOperands s t := by
  obtain ⟨u, rfl, hwritten, hsilent, hcfg, hrxq, hbuf, hops⟩ := nvmComplete_nvmIssue hs.config hs.memory hr
  obtain ⟨t, ht, hanswered, hstorage, hops'⟩ := finishes_replyStatus (nvmComplete (nvmIssue x s)) s.cfg.stOk
  rw [hcfg] at ht
  rw [hrxq] at hanswered
  exact ⟨t, ht.after hrun, hsilent.answered hanswered, hwritten.of_sameStorage hstorage, hstorage.2.1.trans hbuf,
    hops.trans hops'⟩

/-! ### The erases -/

/-- An erase completes, writes the erased value to its whole target and answers `ST_OK` (R140, R170). -/
theorem exec_erase {s : State} {i : Instr} {x : NvmCmd} (hs : StorageReady s)
    (h : i = .eraseApp ∧ x = .eraseAppSection ∨ i = .eraseUsersig ∧ x = .eraseUsersigRow) :
    ∃ t, exec i s = .next t ∧ Answered s.rxq [s.cfg.stOk] s t ∧
      x.Written (List.replicate (x.target s.cfg).2.2 (some s.cfg.erasedByte)) s t ∧ t.buf = s.buf ∧ SameOperands s t := by
  have hr : x.inRange s.cfg = true := by obtain ⟨-, rfl⟩ | ⟨-, rfl⟩ := h <;> rfl
  have hwanted : x.wanted { s with seq := .exec } = List.replicate (x.target s.cfg).2.2 (some s.cfg.erasedByte) := by
    obtain ⟨-, rfl⟩ | ⟨-, rfl⟩ := h <;> rfl
  have hpath : pathOf s.cfg i =
      .goto .exec :: ([.waitReady, .issue x, .waitReady] ++ replyStatus s.cfg s.cfg.stOk) := by
    obtain ⟨rfl, rfl⟩ | ⟨rfl, rfl⟩ := h <;> rfl
  obtain ⟨t, ht, hanswered, hwritten, hrest⟩ := finishes_commit (s := { s with seq := .exec })
    ⟨hs.config, hs.memory, hs.buffer, hs.idle⟩ hr (runs_commit _ x hs.idle hr)
  rw [hwanted] at hwritten
  refine ⟨t, Finishes.exec ?_, hanswered, hwritten.of_eq rfl rfl, hrest⟩
  rw [hpath]
  exact ht.after (Runs.single (drive_goto .exec s))

/-! ### The page writes -/

/-- The commands that commit a staged page. -/
def NvmCmd.commits : NvmCmd → Bool
  | .flashWritePage _ => true
  | .eepromAtomicWrite _ => true
  | .writeUsersigRow => true
  | _ => false

/-- The commit leaves the staged byte at position `k` of its page: in EEPROM always, in flash and in the row, where the
controller requires erased pages, only over an erased byte (`W` of R218). -/
def NvmCmd.takes (x : NvmCmd) (s : State) (k : Nat) : Bool :=
  (x.target s.cfg).1 == .ee || (!s.cfg.flashWriteRequiresErased ||
    s.mem.read (x.target s.cfg).1 ((x.target s.cfg).2.1 + k) == s.cfg.erasedByte)

/-- What the commit of a page with the bytes `p` staged wants in its target. -/
def NvmCmd.page (x : NvmCmd) (p : List Byte) (s : State) : List (Option Byte) :=
  (List.range p.length).map fun k => if x.takes s k then p[k]? else none

theorem NvmCmd.page_getElem {x : NvmCmd} {p : List Byte} {s : State} {k : Nat} (hk : k < p.length)
    (ht : x.takes s k = true) : (x.page p s)[k]? = some (some p[k]) := by
  simp [NvmCmd.page, hk, ht]

theorem NvmCmd.wanted_staged {x : NvmCmd} {s : State} {st : List Host.Cell} {p : List Byte} (hx : x.commits = true)
    (hn : (x.target s.cfg).2.2 = p.length) (hst : ∀ k, k < p.length → Cells.get? st k = p[k]?) :
    x.wanted { s with nvmStage := st } = x.page p s := by
  have hflash : ∀ r a k, flashWanted { s with nvmStage := st } r a k =
      if !s.cfg.flashWriteRequiresErased || s.mem.read r a == s.cfg.erasedByte then Cells.get? st k else none := by
    intro r a k
    unfold flashWanted
    cases Cells.get? st k <;> simp
  cases x <;> simp only [NvmCmd.commits, Bool.false_eq_true] at hx
  all_goals
    simp only [NvmCmd.target] at hn
    simp only [NvmCmd.wanted, hn, hflash]
    refine List.map_congr_left fun k hk => ?_
    rw [hst k (List.mem_range.1 hk)]
    simp [NvmCmd.takes, NvmCmd.target]

/-- The end of every page write: `n` payload bytes read and staged, the commit `q` between its barriers, the status (R118,
R216, R72). -/
def writePath (c : Config) (n : Nat) (q : Prim) : List Prim :=
  readPayload n ++ [.goto .exec] ++ stagePage n ++ ([.waitReady, q, .waitReady] ++ replyStatus c c.stOk)

/-- The page and the buffer are as large as the command's target. -/
theorem NvmCmd.target_le_buf {s : State} {x : NvmCmd} (hs : StorageReady s) (hx : x.commits = true) :
    (x.target s.cfg).2.2 ≤ s.buf.length := by
  obtain ⟨happ, hee, hus⟩ := pages_fit hs.config
  rw [hs.buffer]
  cases x with
  | flashWritePage p => exact happ
  | eepromAtomicWrite p => exact hee
  | writeUsersigRow => exact hus
  | _ => cases hx

/-- The state with a payload read into the buffer and staged. -/
def State.withPage (s : State) (p rest : List Byte) (st : List Host.Cell) (tr : List Event) : State :=
  { s with
    seq := .exec, data := [], cnt := p.length, rxq := rest, trace := tr
    buf := p.map some ++ s.buf.drop p.length, nvmStage := st }

theorem silent_withPage (s : State) (p rest : List Byte) (st : List Host.Cell) (tr : List Event) :
    Silent s (s.withPage p rest st tr) :=
  ⟨_, _, _, _, _, _, _, _, _, _, _, _, _, _, rfl⟩

/-- The payload is read and staged, position by position. -/
theorem runs_loadPage {s : State} {p rest : List Byte} (hq : s.rxq = p ++ rest) (hb : p.length ≤ s.buf.length) :
    ∃ st tr, Runs (readPayload p.length ++ [.goto .exec] ++ stagePage p.length) s (s.withPage p rest st tr) ∧
      ∀ k, k < p.length → Cells.get? st k = p[k]? := by
  obtain ⟨tr, hread⟩ := runs_readPayload s p rest hq hb
  obtain ⟨st, tr', hstaging, hst⟩ := runs_stagePage (s.withPage p rest s.nvmStage tr) p fun k hk => by
    simp [State.withPage, List.getElem?_append, hk]
  exact ⟨st, tr', (hread.append (Runs.single (drive_goto .exec _))).append hstaging, hst⟩

/-- With the whole payload there a page write commits it and answers `ST_OK`; the buffer keeps the payload. -/
theorem finishes_write {s : State} {x : NvmCmd} {q : Prim} {p rest : List Byte} (hs : StorageReady s)
    (hx : x.commits = true) (hr : x.inRange s.cfg = true) (hn : (x.target s.cfg).2.2 = p.length) (hq : s.rxq = p ++ rest)
    (hcommit : ∀ st tr, Runs [.waitReady, q, .waitReady] (s.withPage p rest st tr)
      (nvmComplete (nvmIssue x (s.withPage p rest st tr)))) :
    ∃ t, Finishes (writePath s.cfg p.length q) s t ∧ Answered rest [s.cfg.stOk] s t ∧ x.Written (x.page p s) s t ∧
      t.buf = p.map some ++ s.buf.drop p.length ∧ t.idx = s.idx ∧ t.idxHi = s.idxHi ∧ t.cnt = p.length := by
  have hfits : p.length ≤ s.buf.length := hn ▸ NvmCmd.target_le_buf hs hx
  obtain ⟨st, tr, hload, hst⟩ := runs_loadPage hq hfits
  have hready : StorageReady (s.withPage p rest st tr) :=
    ⟨hs.config, hs.memory, by simpa [State.withPage, Nat.add_sub_cancel' hfits] using hs.buffer, hs.idle⟩
  have hwanted : x.wanted (s.withPage p rest st tr) = x.page p s := by
    rw [← NvmCmd.wanted_staged hx hn hst]
    cases x <;> rfl
  obtain ⟨t, ht, hanswered, hwritten, hbuf, hidx, hhi, hcnt, -⟩ :=
    finishes_commit hready hr (hcommit st tr)
  rw [hwanted] at hwritten
  exact ⟨t, ht.after hload, (silent_withPage s p rest st tr).answered hanswered, hwritten.of_eq rfl rfl, hbuf, hidx, hhi,
    hcnt⟩

/-- WRITE_USERSIG with its whole payload received (R172). -/
theorem exec_writeUsersig {s : State} {p rest : List Byte} (hs : StorageReady s) (hq : s.rxq = p ++ rest)
    (hp : p.length = s.cfg.page .us) :
    ∃ t, exec .writeUsersig s = .next t ∧ Answered rest [s.cfg.stOk] s t ∧
      NvmCmd.writeUsersigRow.Written (NvmCmd.writeUsersigRow.page p s) s t ∧
      t.buf = p.map some ++ s.buf.drop p.length ∧ t.idx = s.idx ∧ t.idxHi = s.idxHi ∧ t.cnt = p.length := by
  obtain ⟨t, ht, hrest⟩ := finishes_write (x := .writeUsersigRow) (q := .issue .writeUsersigRow) hs rfl rfl hp.symm hq
    fun _ _ => runs_commit _ _ hs.idle rfl
  refine ⟨t, Finishes.exec ?_, hrest⟩
  rw [hp] at ht
  simpa [pathOf, writeUsersigPath, userSigWrite, writePath] using ht

/-! ### The indexed page writes -/

/-- The early acknowledgement of a command, where there is one (R115). -/
def earlyPath (c : Config) (i : Instr) : List Prim :=
  if i = .writePage ∧ c.ackMode = .earlyAndFinal then replyStatus c c.stOk else []

/-- What it sends. -/
def earlyStatuses (c : Config) (i : Instr) : List Byte :=
  if i = .writePage ∧ c.ackMode = .earlyAndFinal then [c.stOk] else []

/-- In LEGACY a reply and then the rest of the command answer the bytes of both. -/
theorem Answered.prepend {x rest first bytes : List Byte} {s u t : State} (ha : Answered rest bytes u t)
    (hd : s.cfg.halfDuplex = false) (hw : OnlyWire s u) (hr : Replied x first s u) :
    Answered rest (first ++ bytes) s t := by
  obtain ⟨-, hcontrol, -⟩ := hw.same
  obtain ⟨hsent, -, hlegacy⟩ := hr
  obtain ⟨hwire, hde, hrxdis, -⟩ := hlegacy hd
  obtain ⟨hloop, ⟨hsent', -, hlegacy'⟩, hcontrol'⟩ := ha
  obtain ⟨hwire', hde', hrxdis', hrxq'⟩ := hlegacy' (hcontrol.cfg ▸ hd)
  refine ⟨hloop, ⟨by rw [hsent', hsent, List.append_assoc], fun h => by simp [hd] at h, fun _ => ?_⟩, ?_⟩
  · exact ⟨hwire'.trans hwire, hde'.trans hde, hrxdis'.trans hrxdis, hrxq'⟩
  · obtain ⟨_, _, _, _, _, _, _, _, _, _, rfl⟩ := hw
    exact hcontrol'

/-- With none, or one in LEGACY, what is answered after the early acknowledgement comes after it. -/
theorem runs_earlyPath (s : State) (i : Instr)
    (h : i = .writePage → s.cfg.ackMode = .earlyAndFinal → s.cfg.halfDuplex = false) :
    ∃ u, Runs (earlyPath s.cfg i) s u ∧ OnlyWire s u ∧ u.rxq = s.rxq ∧
      ∀ t rest bytes, Answered rest bytes u t → Answered rest (earlyStatuses s.cfg i ++ bytes) s t := by
  unfold earlyPath earlyStatuses
  split_ifs with hearly
  · have hd := h hearly.1 hearly.2
    obtain ⟨u, hu, hreplied, -, hwire, -⟩ := runs_replyStatus s s.cfg.stOk
    exact ⟨u, hu, hwire, hreplied.rxq hd, fun t rest bytes ha => ha.prepend hd hwire hreplied⟩
  · exact ⟨s, rfl, OnlyWire.refl s, rfl, fun t rest bytes ha => ha⟩

/-- The two writes of the page `idx`: their region and their commit. -/
inductive IndexedWrite : Instr → Region → PageCommit → Prop
  | flash : IndexedWrite .writePage .app .flash
  | eeprom : IndexedWrite .writeEeprom .ee .eeprom

theorem pathOf_indexedWrite (c : Config) {i : Instr} {r : Region} {kind : PageCommit} (h : IndexedWrite i r kind) :
    pathOf c i = readIndex ++ checkIndex r ++ (earlyPath c i ++ writePath c (c.page r) (.issuePage kind)) := by
  cases h
  · simp [pathOf, writePagePath, earlyAck, earlyPath, writePath, flashPageWrite]
  · simp [pathOf, writeEepromPath, earlyPath, writePath, eepromPageWrite]

/-- The command of an indexed write commits a page as large as the region's, at its index. -/
theorem IndexedWrite.command {i : Instr} {r : Region} {kind : PageCommit} (h : IndexedWrite i r kind) (c : Config)
    (idx : Half) : (kind.command idx).commits = true ∧
      (kind.command idx).target c = (r, pageOffset c r idx.toNat, c.page r) ∧
      (kind.command idx).inRange c = decide (idx.toNat < c.pageCount r) := by
  cases h <;> exact ⟨rfl, rfl, rfl⟩

/-- WRITE_PAGE and WRITE_EEPROM with a valid index and the whole payload received (R141, R161). -/
theorem exec_indexedWrite {s : State} {i : Instr} {r : Region} {kind : PageCommit} {idx : Half} {p rest : List Byte}
    (h : IndexedWrite i r kind) (hs : StorageReady s)
    (hearly : i = .writePage → s.cfg.ackMode = .earlyAndFinal → s.cfg.halfDuplex = false)
    (hq : s.rxq = be16 idx ++ p ++ rest) (hidx : idx.toNat < s.cfg.pageCount r) (hp : p.length = s.cfg.page r) :
    ∃ t, exec i s = .next t ∧ Answered rest (earlyStatuses s.cfg i ++ [s.cfg.stOk]) s t ∧
      (kind.command idx).Written ((kind.command idx).page p s) s t ∧ t.buf = p.map some ++ s.buf.drop p.length ∧
      t.idx = idx ∧ t.cnt = p.length := by
  obtain ⟨hx, htarget, hr⟩ := h.command s.cfg idx
  have hr : (kind.command idx).inRange s.cfg = true := hr.trans (decide_eq_true hidx)
  obtain ⟨hi, tr, hread⟩ := runs_checkedIndex (rest := p ++ rest) (by rw [hq, List.append_assoc]) hidx
  obtain ⟨u, hu, hwire, hrxq, hprepend⟩ := runs_earlyPath (s.withIndex idx hi (p ++ rest) tr) i hearly
  have hs' : StorageReady u := hwire.storageReady ⟨hs.config, hs.memory, hs.buffer, hs.idle⟩
  obtain ⟨_, _, _, _, _, _, _, _, _, _, rfl⟩ := hwire
  obtain ⟨t, ht, hanswered, hwritten, hbuf, hti, -, hcnt⟩ := finishes_write (x := kind.command idx)
    (q := .issuePage kind) hs' hx hr (hp ▸ congrArg (fun x => x.2.2) htarget) hrxq
    fun _ _ => runs_commitPage _ kind hs.idle hr
  have hpath := pathOf_indexedWrite s.cfg h
  rw [← hp] at hpath
  refine ⟨t, Finishes.exec ?_, (silent_withIndex s idx hi _ tr).answered (hprepend t rest _ hanswered),
    hwritten.of_eq rfl rfl, hbuf, hti, hcnt⟩
  rw [hpath]
  exact (ht.after hu).after hread

end Sys2Proof.Machine
end

section
/-! SUPPORT. Two commands one after the other (20_memory.md R75): what a page write puts there, a page read sends. -/

namespace Sys2Proof.Machine

/-- A page whose every byte the commit takes is read back as it was sent. -/
theorem NvmCmd.Written.readBytes {x : NvmCmd} {p : List Byte} {s t : State} (h : x.Written (x.page p s) s t)
    (ht : ∀ k, k < p.length → x.takes s k = true) :
    t.mem.readBytes (x.target s.cfg).1 (x.target s.cfg).2.1 p.length = p := by
  refine List.ext_getElem (NvMem.length_readBytes _ _ _ _) fun k _ hk => ?_
  simp only [NvMem.readBytes, List.getElem_map, List.getElem_range]
  exact h.read k _ (NvmCmd.page_getElem hk (ht k hk))

/-- Settles O57: the write leaves the payload in its page, and the read sends the page. -/
theorem writeThenRead : Obligations.WriteThenRead := by
  intro s wr rd r idx p hs hl hsched hpair hidx hp
  obtain ⟨kind, hwrite, hread, hwr, hrd, hsingle, htakes⟩ : ∃ kind, IndexedWrite wr r kind ∧
      (rd = .readPage ∧ r = .app ∨ rd = .readEeprom ∧ r = .ee) ∧ wr.wf s.cfg = true ∧ rd.wf s.cfg = true ∧
      ¬(wr = .writePage ∧ s.cfg.ackMode = .earlyAndFinal) ∧
      ∀ k, k < p.length → (kind.command idx).takes s k = true := by
    obtain ⟨rfl, rfl, rfl, hmode, herased⟩ | ⟨rfl, rfl, rfl⟩ := hpair
    · refine ⟨.flash, .flash, .inl ⟨rfl, rfl⟩, rfl, rfl, by simp [hmode], fun k hk => ?_⟩
      simpa [NvmCmd.takes, PageCommit.command, NvmCmd.target] using herased.imp_right fun h => h k (hp ▸ hk)
    · exact ⟨.eeprom, .eeprom, .inr ⟨rfl, rfl⟩, rfl, rfl, by simp, fun k _ => rfl⟩
  obtain ⟨t, ht, ⟨hloop, ⟨hsent, -⟩, hcontrol⟩, hwritten, -⟩ := exec_indexedWrite (s := fetched wr (be16 idx ++ p) s)
    (p := p) (rest := []) hwrite (hs.fetched _ _) (fun h h' => absurd ⟨h, h'⟩ hsingle)
    (List.append_nil _).symm hidx hp
  have hcfg : t.cfg = s.cfg := hcontrol.cfg
  have hpage : t.mem.readBytes r (pageOffset s.cfg r idx.toNat) (s.cfg.page r) = p := by
    obtain ⟨-, htarget, -⟩ := hwrite.command s.cfg idx
    have hread := hwritten.readBytes htakes
    rwa [fetched_cfg, htarget, hp] at hread
  obtain ⟨u, hu, ⟨hloop', ⟨hsent', -⟩, -⟩, -⟩ := exec_readIndexed (s := fetched rd (be16 idx) t) hread
    (List.append_nil _).symm (hcfg ▸ hidx)
  refine ⟨t, u, ?_, ?_, ?_, ?_, hloop'⟩
  · rw [encodeFrame, List.append_assoc, step_atLoop hs.config hsched hl hwr]
    exact ht
  · rw [encodeFrame, ← hcfg, step_atLoop (hcfg ▸ hs.config) (hcontrol.sched.trans hsched) hloop (hcfg ▸ hrd)]
    exact hu
  · simpa [earlyStatuses, hsingle] using hsent
  · simpa [hcfg, hpage] using hsent'

end Sys2Proof.Machine
end

section
/-! SUPPORT. A whole frame in LEGACY (20_memory.md R71, 30_encoding.md R111, R104): what each command reads of the wire, and
how much it answers. -/

namespace Sys2Proof.Machine

/-! ### What one command does with its frame -/

/-- From `s` the instruction reads the receive path up to `rest`, answers `n` bytes, and is back at the top of the loop with
the storage ready. -/
def Serves (i : Instr) (rest : List Byte) (n : Nat) (s : State) : Prop :=
  ∃ t bytes, exec i s = .next t ∧ Answered rest bytes s t ∧ bytes.length = n ∧ StorageReady t

theorem serves_silent {s : State} {i : Instr} (hs : StorageReady s) (hd : s.cfg.halfDuplex = false) (hl : s.seq = .fetch)
    (hi : pathOf s.cfg i = []) : Serves i s.rxq 0 s := by
  refine ⟨{ s with todo := loopTop }, [], ?_, ⟨⟨hl, rfl⟩, ?_, ?_⟩, rfl, hs.config, hs.memory, hs.buffer, hs.idle⟩
  · rw [exec_eq_runCommand, hi, runCommand, home, if_neg (by simp [hl]), ← hl]
  · exact ⟨(List.append_nil _).symm, fun h => by simp [hd] at h, fun _ => ⟨rfl, rfl, rfl, rfl⟩⟩
  · exact ⟨rfl, rfl, rfl, rfl, rfl, rfl, rfl, rfl, rfl, rfl, rfl, rfl⟩

/-- The length of what a query command answers (R104, R107). -/
theorem Query.length_reply {s : State} {i : Instr} {q : Query} (h : queryOf s.cfg i = some q) :
    (q.reply s).length = successLength s.cfg i := by
  cases i <;> cases h
  case readFuses.refl => simp only [Query.reply, successLength]; split_ifs <;> simp [sourceBytes, Nat.add_comm]
  case readGeometry.refl => simp [Query.reply, sourceBytes, successLength, List.length_flatMap, Nat.add_comm]
  all_goals simp +arith [Query.reply, sourceBytes, successLength, le16, le32, NvMem.length_readBytes]

theorem serves_query {s : State} {i : Instr} {q : Query} (hs : StorageReady s) (h : queryOf s.cfg i = some q) :
    Serves i s.rxq (successLength s.cfg i) s := by
  obtain ⟨t, ht, hanswered, hstorage, -⟩ := exec_query h
  exact ⟨t, _, ht, hanswered, Query.length_reply h, hstorage.storageReady hs hanswered.cfg⟩

theorem serves_erase {s : State} {i : Instr} {x : NvmCmd} (hs : StorageReady s)
    (h : i = .eraseApp ∧ x = .eraseAppSection ∨ i = .eraseUsersig ∧ x = .eraseUsersigRow) : Serves i s.rxq 1 s := by
  obtain ⟨t, ht, hanswered, hwritten, hbuf, -⟩ := exec_erase hs h
  exact ⟨t, _, ht, hanswered, rfl, hwritten.storageReady hs hanswered.cfg (congrArg List.length hbuf)⟩

theorem serves_rangeError {s : State} {i : Instr} {r : Region} {idx : Half} {rest : List Byte} (hs : StorageReady s)
    (h : indexRegion i = some r) (hq : s.rxq = be16 idx ++ rest) (hidx : ¬idx.toNat < s.cfg.pageCount r) :
    Serves i rest 1 s := by
  obtain ⟨t, ht, hanswered, hstorage, -⟩ := exec_rangeError h hq (Nat.le_of_not_lt hidx)
  exact ⟨t, _, ht, hanswered, rfl, hstorage.storageReady hs hanswered.cfg⟩

theorem serves_readIndexed {s : State} {i : Instr} {r : Region} {idx : Half} {rest : List Byte} (hs : StorageReady s)
    (h : i = .readPage ∧ r = .app ∨ i = .readEeprom ∧ r = .ee) (hq : s.rxq = be16 idx ++ rest) :
    Serves i rest (indexedLength s.cfg i idx) s := by
  have hregion : indexRegion i = some r := by obtain ⟨rfl, rfl⟩ | ⟨rfl, rfl⟩ := h <;> rfl
  simp only [indexedLength, hregion, validIndex, decide_eq_true_eq]
  split_ifs with hidx
  · obtain ⟨t, ht, hanswered, hstorage, -⟩ := exec_readIndexed h hq hidx
    refine ⟨t, _, ht, hanswered, ?_, hstorage.storageReady hs hanswered.cfg⟩
    obtain ⟨rfl, rfl⟩ | ⟨rfl, rfl⟩ := h <;> simp +arith [successLength, le16, NvMem.length_readBytes]
  · exact serves_rangeError hs hregion hq hidx

/-- The payload is as long as the page, so that the buffer keeps its size. -/
theorem NvmCmd.Written.storageReady_page {x : NvmCmd} {p : List Byte} {s t : State} (h : x.Written (x.page p s) s t)
    (hs : StorageReady s) (hx : x.commits = true) (hn : (x.target s.cfg).2.2 = p.length) (hc : t.cfg = s.cfg)
    (hb : t.buf = p.map some ++ s.buf.drop p.length) : StorageReady t := by
  have hfits : p.length ≤ s.buf.length := hn ▸ NvmCmd.target_le_buf hs hx
  exact h.storageReady hs hc (by simp [hb, hfits])

theorem serves_indexedWrite {s : State} {i : Instr} {r : Region} {kind : PageCommit} {idx : Half} {p rest : List Byte}
    (h : IndexedWrite i r kind) (hs : StorageReady s) (hd : s.cfg.halfDuplex = false)
    (hq : s.rxq = be16 idx ++ p ++ rest) (hp : p.length = payloadLength s.cfg r idx) :
    Serves i rest (indexedLength s.cfg i idx) s := by
  have hregion : indexRegion i = some r := by cases h <;> rfl
  simp only [indexedLength, hregion, validIndex, decide_eq_true_eq]
  rw [payloadLength] at hp
  split_ifs at hp ⊢ with hidx
  · obtain ⟨hx, htarget, -⟩ := h.command s.cfg idx
    obtain ⟨t, ht, hanswered, hwritten, hbuf, -⟩ := exec_indexedWrite h hs (fun _ _ => hd) hq hidx hp
    refine ⟨t, _, ht, hanswered, ?_,
      hwritten.storageReady_page hs hx (by rw [htarget, hp]) hanswered.cfg hbuf⟩
    cases h
    · by_cases hmode : s.cfg.ackMode = .earlyAndFinal <;> simp [earlyStatuses, successLength, hmode]
    · simp [earlyStatuses, successLength]
  · obtain rfl : p = [] := List.eq_nil_of_length_eq_zero hp
    exact serves_rangeError hs hregion (by simpa using hq) hidx

theorem serves_writeUsersig {s : State} {p rest : List Byte} (hs : StorageReady s) (hq : s.rxq = p ++ rest)
    (hp : p.length = s.cfg.page .us) : Serves .writeUsersig rest 1 s := by
  obtain ⟨t, ht, hanswered, hwritten, hbuf, -⟩ := exec_writeUsersig hs hq hp
  exact ⟨t, _, ht, hanswered, rfl, hwritten.storageReady_page hs rfl hp.symm hanswered.cfg hbuf⟩

/-- Every command but RESET, by the format of its frame. -/
theorem serves_frame {s : State} {f : Frame} {rest : List Byte} (hs : StorageReady s) (hd : s.cfg.halfDuplex = false)
    (hl : s.seq = .fetch) (hf : f.wf s.cfg = true) (hi : f.instr ≠ .reset) (hq : s.rxq = f.operands ++ rest) :
    Serves f.instr rest (replyLength s.cfg f) s := by
  cases f with
  | f0 i =>
    obtain rfl : s.rxq = rest := hq
    obtain ⟨hformat, -⟩ := Frame.wf_f0 hf
    cases i <;> cases hformat
    case reset.refl => exact absurd rfl hi
    case eraseApp.refl => exact serves_erase hs (.inl ⟨rfl, rfl⟩)
    case eraseUsersig.refl => exact serves_erase hs (.inr ⟨rfl, rfl⟩)
    case nop.refl => exact serves_silent hs hd hl rfl
    case unknown.refl => exact serves_silent hs hd hl rfl
    all_goals exact serves_query hs rfl
  | fi i idx =>
    obtain ⟨hformat, -⟩ := Frame.wf_fi hf
    cases i <;> cases hformat
    case readPage.refl => exact serves_readIndexed hs (.inl ⟨rfl, rfl⟩) hq
    case readEeprom.refl => exact serves_readIndexed hs (.inr ⟨rfl, rfl⟩) hq
  | fip i idx p =>
    obtain ⟨r, hformat, -, hp⟩ := Frame.wf_fip hf
    cases i <;> cases hformat
    case writePage.refl => exact serves_indexedWrite .flash hs hd hq hp
    case writeEeprom.refl => exact serves_indexedWrite .eeprom hs hd hq hp
  | fp i p =>
    obtain ⟨r, hformat, -, hp⟩ := Frame.wf_fp hf
    cases i <;> cases hformat
    case writeUsersig.refl => exact serves_writeUsersig hs hq hp

/-! ### RESET -/

/-- At `RESETTING`, the status of RESET handed over in `u` (R200): the delay, in which the transmitter may empty its queue,
and the protected write are done. -/
def State.awaitingReset (u : State) : State :=
  { log (.protectedWrite .resetTrigger 1) (log (.delay .resetDelay) (help (.delay .resetDelay) u)) with
    unlockArmed := false, seq := .resetting, todo := [] }

/-- The reset delay moves bytes from the queue to the wire, and nothing else. -/
theorem help_resetDelay_frame (u : State) :
    ∃ tx w tr, help (.delay .resetDelay) u = { u with txq := tx, wireOut := w, trace := tr } ∧ w ++ tx = sent u := by
  simp only [help]
  split_ifs
  · exact ⟨_, _, _, rfl, List.append_nil _⟩
  · exact ⟨_, _, _, rfl, rfl⟩

theorem drive_delay (d : DelayName) (s : State) : drive (.delay d) s = .done (log (.delay d) (help (.delay d) s)) := rfl

theorem drive_protectedWrite {s : State} (r : ProtectedReg) (v : Nat) (hg : s.gie = false) :
    drive (.protectedWrite r v) s = .done (log (.protectedWrite r v) { s with unlockArmed := false }) := by
  rw [drive_once _ _ rfl]
  simp [help, perform, hg]

/-- RESET with interrupts off answers `ST_OK` and waits for the reset (R200, R228). -/
theorem exec_reset {s : State} (hg : s.gie = false) :
    ∃ u, exec .reset s = .next u.awaitingReset ∧ Replied s.rxq [s.cfg.stOk] s u ∧ OnlyWire s u := by
  obtain ⟨u, hu, hreplied, -, hwire, -⟩ := runs_replyStatus s s.cfg.stOk
  have hgie : (help (.delay .resetDelay) u).gie = false := by
    obtain ⟨tx, w, tr, hdelay, -⟩ := help_resetDelay_frame u
    obtain ⟨_, _, _, _, _, _, _, _, _, _, rfl⟩ := hwire
    rw [hdelay]
    exact hg
  refine ⟨u, ?_, hreplied, hwire⟩
  have hend : Runs [.delay .resetDelay, .protectedWrite .resetTrigger 1, .goto .resetting] u
      { u.awaitingReset with todo := (help (.delay .resetDelay) u).todo } :=
    ⟨_, drive_delay .resetDelay u, _, drive_protectedWrite .resetTrigger 1 hgie, _, drive_goto .resetting _, rfl⟩
  rw [exec_eq_runCommand]
  exact runCommand_of_runs (hu.append hend)

theorem awaitingReset_frame (u : State) :
    ∃ tx w tr, u.awaitingReset =
      { u with
        txq := tx, wireOut := w, unlockArmed := false, seq := .resetting, todo := []
        trace := tr ++ [.delay .resetDelay] ++ [.protectedWrite .resetTrigger 1] } ∧ w ++ tx = sent u := by
  obtain ⟨tx, w, tr, hdelay, hsent⟩ := help_resetDelay_frame u
  exact ⟨tx, w, tr, by rw [State.awaitingReset, hdelay]; rfl, hsent⟩

/-- RESET in LEGACY: its status is sent and nothing more of the wire is read. -/
theorem exec_reset_legacy {s : State} (hs : StorageReady s) (hd : s.cfg.halfDuplex = false) (hg : s.gie = false) :
    ∃ t, exec .reset s = .next t ∧ t.rxq = s.rxq ∧ StorageReady t ∧ t.sched = s.sched ∧ t.gie = false ∧
      t.seq = .resetting ∧ sent t = sent s ++ [s.cfg.stOk] := by
  obtain ⟨u, hu, hreplied, hwire⟩ := exec_reset hg
  obtain ⟨hstorage, hcontrol, -⟩ := hwire.same
  have hready := hstorage.storageReady hs hcontrol.cfg
  obtain ⟨tx, w, tr, hframe, hmoved⟩ := awaitingReset_frame u
  refine ⟨u.awaitingReset, hu, ?_⟩
  rw [hframe]
  exact ⟨hreplied.rxq hd, ⟨hready.config, hready.memory, hready.buffer, hready.idle⟩, hcontrol.sched, hcontrol.gie.trans hg, rfl,
    hmoved.trans hreplied.1⟩

/-! ### The frame -/

/-- Settles O58: at the top of the loop the frame's first byte is its opcode, and its command reads the rest; RESET apart. -/
theorem frameIsConsumedWhole : Obligations.FrameIsConsumedWhole := by
  intro s f rest hs hl hsched hg hprotocol hf
  have hd : s.cfg.halfDuplex = false := by simp [Config.halfDuplex, hprotocol]
  have hs' := hs.fetched f.instr (f.operands ++ rest)
  rw [encodeFrame_eq, List.append_assoc, step_atLoop hs.config hsched hl (Frame.instr_wf hf)]
  by_cases hi : f.instr = .reset
  · obtain rfl := Frame.eq_f0_reset hf hi
    obtain ⟨t, ht, hrxq, hready, hsched', hgie, hseq, hsent⟩ := exec_reset_legacy hs' hd hg
    exact ⟨t, ht, hrxq, hready, hsched'.trans hsched, hgie, fun _ => hseq, fun h => absurd rfl h,
      (congrArg List.length hsent).trans List.length_append⟩
  · obtain ⟨hseq, -⟩ := hl
    obtain ⟨t, bytes, ht, ⟨hloop, hreplied, hcontrol⟩, hlen, hready⟩ := serves_frame hs' hd hseq hf hi rfl
    exact ⟨t, ht, hreplied.rxq hd, hready, hcontrol.sched.trans hsched, hcontrol.gie.trans hg, fun h => absurd h hi, fun _ => hloop,
      hlen ▸ (congrArg List.length hreplied.1).trans List.length_append⟩

end Sys2Proof.Machine
end

section
/-! SUPPORT. The decoder (30_encoding.md R102, R107 to R111) as the inverse of the encoder: of the opcode byte, and of a whole
frame. -/

namespace Sys2Proof

/-! ### The opcode byte -/

theorem mem_opcodeRows_iff (c : Config) (b : Byte) (i : Instr) :
    (b, i) ∈ opcodeRows c ↔ opcodeOf c i = b ∧ ∀ x, i ≠ .unknown x := by
  refine ⟨fun h => ?_, ?_⟩
  · cases i <;> simp_all [opcodeRows, opcodeOf]
  · rintro ⟨rfl, hi⟩
    exact mem_opcodeRows c hi

/-- A byte is decoded by its row, or has none and is the default case (R109). -/
theorem decodeOp_cases (c : Config) (b : Byte) :
    (b, decodeOp c b) ∈ opcodeRows c ∨ b ∉ c.knownBytes ∧ decodeOp c b = .unknown b := by
  unfold decodeOp
  split
  · next i hi =>
    obtain ⟨before, after, hrows, -⟩ := List.lookup_eq_some_iff.1 hi
    exact .inl (by simp [hrows])
  · next hnone =>
    refine .inr ⟨fun hb => ?_, rfl⟩
    obtain ⟨row, hrow, rfl⟩ := List.mem_map.1 (opcodeRows_keys c ▸ hb)
    simpa using List.lookup_eq_none_iff.1 hnone row hrow

theorem opcodeOf_decodeOp (c : Config) (b : Byte) : opcodeOf c (decodeOp c b) = b := by
  obtain hrow | ⟨-, hunknown⟩ := decodeOp_cases c b
  · exact ((mem_opcodeRows_iff c b _).1 hrow).1
  · rw [hunknown]
    rfl

theorem wf_decodeOp (c : Config) (b : Byte) : (decodeOp c b).wf c = true := by
  obtain hrow | ⟨hb, hunknown⟩ := decodeOp_cases c b
  · obtain ⟨-, hi⟩ := (mem_opcodeRows_iff c b _).1 hrow
    cases h : decodeOp c b
    case unknown x => exact absurd h (hi x)
    all_goals rfl
  · simpa [hunknown, Instr.wf] using hb

theorem decodeOp_of_not_mem {c : Config} {b : Byte} (hb : b ∉ c.knownBytes) : decodeOp c b = .unknown b := by
  obtain hrow | ⟨-, hunknown⟩ := decodeOp_cases c b
  · exact absurd (opcodeRows_keys c ▸ List.mem_map_of_mem hrow) hb
  · exact hunknown

/-- The no-op byte is no opcode (R8(d)). -/
theorem Config.nopByte_not_mem_ops {c : Config} (hc : c.wf = true) : c.nopByte ∉ c.ops.toList := by
  have hnodup := Config.knownBytes_nodup hc
  rw [Config.knownBytes, ← List.concat_eq_append, List.nodup_concat] at hnodup
  exact hnodup.1

theorem decode_eq_ok_iff (c : Config) (bs : List Byte) (i : Instr) (rest : List Byte) :
    decode c bs = .ok (i, rest) ↔ ∃ b, bs = b :: rest ∧ decodeOp c b = i := by
  cases bs with
  | nil => simp [decode]
  | cons b bs => simp [decode, and_comm]

/-- Settles O2: an opcode byte finds the one row that holds it (R108), and what a byte decodes to has that byte. -/
theorem decodeInvertsEncode : Obligations.DecodeInvertsEncode := by
  intro c hc
  refine ⟨fun i j hi hj hij => ?_, fun i rest hi => ?_, fun b => ⟨opcodeOf_decodeOp c b, wf_decodeOp c b⟩⟩
  · rw [← decodeOp_opcodeOf hc hi, hij, decodeOp_opcodeOf hc hj]
  · exact (decode_eq_ok_iff c _ i rest).2 ⟨opcodeOf c i, rfl, decodeOp_opcodeOf hc hi⟩

/-- Settles O3: what decodes to NOP or to the default case has the no-op byte or a byte without a row. -/
theorem otherBytesAreUnknown : Obligations.OtherBytesAreUnknown := by
  intro c b hc
  have hbyte := opcodeOf_decodeOp c b
  refine ⟨fun hb => ?_, fun hb => ⟨fun hnop => ?_, fun x hx => ?_⟩, fun rest => ⟨_, rfl⟩⟩
  · split_ifs with hnop
    · rw [hnop]
      exact decodeOp_opcodeOf (i := .nop) hc rfl
    · exact decodeOp_of_not_mem (by simpa [Config.knownBytes] using ⟨hb, hnop⟩)
  · rw [hnop] at hbyte
    obtain rfl : c.nopByte = b := hbyte
    exact Config.nopByte_not_mem_ops hc hb
  · rw [hx] at hbyte
    obtain rfl : x = b := hbyte
    have hwf := wf_decodeOp c x
    simp [hx, Instr.wf, Config.knownBytes, hb] at hwf

/-- Settles O1, each word by evaluation. -/
theorem tableWordsDecode : Obligations.TableWordsDecode := by
  unfold Obligations.TableWordsDecode
  decide

/-! ### Whole frames -/

theorem takeBytes_append (p rest : List Byte) : takeBytes p.length (p ++ rest) = .ok (p, rest) := by
  induction p with
  | nil => cases rest <;> rfl
  | cons b p ih => simp [takeBytes, ih]

/-- The bytes taken are as many as asked for, and those at the head. -/
theorem eq_append_of_takeBytes {n : Nat} {bs p rest : List Byte} (h : takeBytes n bs = .ok (p, rest)) :
    p.length = n ∧ p ++ rest = bs := by
  induction n generalizing bs p with
  | zero => cases h; exact ⟨rfl, rfl⟩
  | succ n ih =>
    cases bs with
    | nil => cases h
    | cons b bs =>
      rw [takeBytes] at h
      split at h <;> cases h
      next hq =>
        obtain ⟨hlen, happ⟩ := ih hq
        exact ⟨congrArg (· + 1) hlen, congrArg (b :: ·) happ⟩

/-- Settles O4: the opcode byte gives the format, the index bytes the index, and the index the length of the payload. -/
theorem frameRoundTrip : Obligations.FrameRoundTrip := by
  intro c f rest hc hf
  have index_read : ∀ idx : Half, ∃ h l, be16 idx = [h, l] ∧ indexOf h l = idx :=
    fun idx => ⟨_, _, rfl, Machine.indexOf_of_be16 rfl⟩
  cases f with
  | f0 i =>
    obtain ⟨hformat, hi⟩ := Frame.wf_f0 hf
    simp [encodeFrame, encode, decodeFrame, decodeOp_opcodeOf hc hi, hformat]
  | fi i idx =>
    obtain ⟨hformat, hi⟩ := Frame.wf_fi hf
    obtain ⟨h, l, hbytes, hidx⟩ := index_read idx
    simp [encodeFrame, encode, decodeFrame, decodeOp_opcodeOf hc hi, hformat, hbytes, hidx]
  | fip i idx p =>
    obtain ⟨r, hformat, hi, hp⟩ := Frame.wf_fip hf
    obtain ⟨h, l, hbytes, hidx⟩ := index_read idx
    simp [encodeFrame, encode, decodeFrame, decodeOp_opcodeOf hc hi, hformat, hbytes, hidx, ← hp, takeBytes_append]
  | fp i p =>
    obtain ⟨r, hformat, hi, hp⟩ := Frame.wf_fp hf
    simp [encodeFrame, encode, decodeFrame, decodeOp_opcodeOf hc hi, hformat, ← hp, takeBytes_append]

/-- What is decoded from an opcode byte and the bytes after it: the command of that byte, in its format, with the operands
at their head. -/
theorem decodeFrame_cons_ok {c : Config} {b : Byte} {bs rest : List Byte} {f : Frame}
    (h : decodeFrame c (b :: bs) = .ok (f, rest)) :
    f.instr = decodeOp c b ∧ f.wf c = true ∧ f.operands ++ rest = bs := by
  have hi := wf_decodeOp c b
  -- the arms of the decoder in their order: `f0`, `fi`, `fip`, `fp`, and the two frames cut short
  unfold decodeFrame at h
  dsimp only at h
  split at h
  case h_1 hformat => cases h; exact ⟨rfl, by simp [Frame.wf, hi, hformat], rfl⟩
  case h_2 hformat => cases h; exact ⟨rfl, by simp [Frame.wf, hi, hformat], by simp [Frame.operands, Machine.be16_indexOf]⟩
  case h_3 hformat =>
    split at h <;> cases h
    next htake =>
      obtain ⟨hp, rfl⟩ := eq_append_of_takeBytes htake
      exact ⟨rfl, by simp [Frame.wf, hi, hformat, hp], by simp [Frame.operands, Machine.be16_indexOf]⟩
  case h_4 hformat =>
    split at h <;> cases h
    next htake =>
      obtain ⟨hp, rfl⟩ := eq_append_of_takeBytes htake
      exact ⟨rfl, by simp [Frame.wf, hi, hformat, hp], rfl⟩
  all_goals cases h

/-- Settles O5: the operands are the bytes after the opcode, and the opcode is that of the command decoded. -/
theorem frameDecodeIsExact : Obligations.FrameDecodeIsExact := by
  intro c bs rest f _ h
  cases bs with
  | nil => cases h
  | cons b bs =>
    obtain ⟨hinstr, hwf, rfl⟩ := decodeFrame_cons_ok h
    exact ⟨hwf, by simp [encodeFrame_eq, encode, hinstr, opcodeOf_decodeOp]⟩

end Sys2Proof
end

section
/-! SUPPORT. The step at the top of the command loop (30_encoding.md R120, 10_state.md R22), whatever the byte received; and the
bytes that are consumed and change nothing else (R109, R110, 44_control_commands.md R201). -/

namespace Sys2Proof.Machine

/-- The byte the loop takes is decoded and run. -/
theorem step_fetch {s : State} {b : Byte} (hc : s.cfg.wf = true) (hs : s.sched = []) (hb : fetchByte s = some b) :
    step s = exec (decodeOp s.cfg b) (fetchOp s) := by
  simp [step, hc, hs, hb]

/-- The first iteration of the loop, the watchdog still to be petted. -/
theorem step_loopTop_cons {s : State} {b : Byte} {rest : List Byte} (hc : s.cfg.wf = true) (hs : s.sched = [])
    (ht : s.todo = loopTop) (hq : s.rxq = b :: rest) :
    step s = exec (decodeOp s.cfg b) { s with rxq := rest, op := b, trace := s.trace ++ [.wdtPet, .rx b] } := by
  have hfetch : fetchOp s = takeOpcode (log .wdtPet s) := by simp [fetchOp, ht, loopTop]
  rw [step_fetch (b := b) hc hs (by simp [fetchByte, ht, loopTop, hq]), hfetch, takeOpcode_cons (log .wdtPet s) b rest hq]
  simp [log]

/-- The watchdog petted already. -/
theorem step_rxOp_cons {s : State} {b : Byte} {rest : List Byte} (hc : s.cfg.wf = true) (hs : s.sched = [])
    (ht : s.todo = [.rxOp]) (hq : s.rxq = b :: rest) :
    step s = exec (decodeOp s.cfg b) { s with rxq := rest, op := b, trace := s.trace ++ [.rx b] } := by
  rw [step_fetch (b := b) hc hs (by simp [fetchByte, ht, hq])]
  simp [fetchOp, ht, takeOpcode_cons s b rest hq]

/-- Settles O8: the byte that decodes to the instruction is its opcode. -/
theorem stepRunsDecodedInstruction : Obligations.StepRunsDecodedInstruction := by
  intro s i rest hc hs hdecode
  obtain ⟨b, hq, rfl⟩ := (decode_eq_ok_iff s.cfg s.rxq i rest).1 hdecode
  rw [opcodeOf_decodeOp]
  exact ⟨fun ht => step_loopTop_cons hc hs ht hq, fun ht => step_rxOp_cons hc hs ht hq⟩

/-- An instruction with nothing to do is back at the top of the loop. -/
theorem exec_of_pathOf_nil {s : State} {i : Instr} (hi : pathOf s.cfg i = []) (hl : s.seq = .fetch) :
    exec i s = .next { s with todo := loopTop } := by
  rw [exec_eq_runCommand, hi, runCommand, home, if_neg (by simp [hl]), ← hl]

/-- What a byte that is no opcode decodes to has nothing to do. -/
theorem pathOf_decodeOp_nil {c : Config} {b : Byte} (hc : c.wf = true) (hb : b ∉ c.ops.toList) :
    pathOf c (decodeOp c b) = [] := by
  obtain ⟨hother, -⟩ := otherBytesAreUnknown c b hc
  rw [hother hb]
  split_ifs <;> rfl

/-- Settles O27: the no-op byte, which is no opcode either, is consumed alike. -/
theorem unknownIsIgnored : Obligations.UnknownIsIgnored := by
  refine ⟨fun s b hl => exec_of_pathOf_nil rfl hl, fun s b rest hc hs ⟨hl, ht⟩ hq hb => ?_⟩
  rw [step_loopTop_cons hc hs ht hq, exec_of_pathOf_nil (by exact pathOf_decodeOp_nil hc hb) (by exact hl), ← ht]

end Sys2Proof.Machine
end

section
/-! SUPPORT. What a command sends (30_encoding.md R105): nothing is taken back of it, the primitives before the first `TxByte`
of a control path send nothing, and that first byte is a status. -/

namespace Sys2Proof.Machine

/-! ### Primitives that send nothing -/

/-- The primitive hands no byte to the transmitter and does not branch. -/
def Prim.quiet : Prim → Bool
  | .txByte _ => false
  | .txData => false
  | .check _ => false
  | .arbitrate => false
  | .poll => false
  | _ => true

/-- What a quiet primitive comes to: the bytes sent are `w`, and there is no branch. -/
def Effect.Quiet (w : List Byte) : Effect → Prop
  | .done t => sent t = w
  | .again t => sent t = w
  | .wait t => sent t = w
  | .turn _ _ => False
  | .fault _ => True

theorem perform_quiet {p : Prim} (hp : p.quiet = true) (s : State) : (perform p s).Quiet (sent s) := by
  cases p
  case echo certain =>
    obtain ⟨e, t, n, -, -, h⟩ := echoByte_frame certain s
    simp only [perform, h]
    rfl
  case txByte | txData | check | arbitrate | poll => cases hp
  all_goals
    simp only [perform, payloadStep, tryIssue]
    repeat' split
    all_goals first | rfl | trivial

@[simp] theorem sent_drain (s : State) : sent (drain s) = sent s := by simp [sent, drain]

@[simp] theorem sent_nvmComplete (s : State) : sent (nvmComplete s) = sent s := by
  obtain ⟨m, st, t, n, tr, h⟩ := nvmComplete_frame s
  rw [h]
  rfl

/-- The other agents move what is queued to the wire at most. -/
@[simp] theorem sent_help (p : Prim) (s : State) : sent (help p s) = sent s := by
  cases p
  case waitReady => simp only [help]; split_ifs <;> simp
  case txWaitComplete => exact sent_drain s
  case delay d =>
    cases d
    case resetDelay => simp only [help]; split_ifs <;> simp
    all_goals rfl
  all_goals rfl

/-- What each time round a loop keeps, the whole loop keeps. -/
theorem iterate_keeps {Q : Effect → Prop} {p : Prim} (hp : ∀ s, Q (.again s) → Q (perform p s)) (n : Nat) {s : State}
    (hs : Q (.again s)) : Q (iterate n p s) := by
  induction n generalizing s with
  | zero => exact hs
  | succ n ih =>
    have h := hp s hs
    rw [iterate]
    cases he : perform p s with
    | again t => rw [he] at h; exact ih h
    | _ => rw [he] at h; exact h

theorem drive_quiet {p : Prim} (hp : p.quiet = true) (s : State) : (drive p s).Quiet (sent s) :=
  iterate_keeps (Q := Effect.Quiet (sent s)) (fun t ht => (show sent t = sent s from ht) ▸ perform_quiet hp t) _
    (sent_help p s)

/-- A run along quiet primitives stops among them with nothing sent, or goes on after them with nothing sent. -/
theorem runCommand_quiet {ps qs : List Prim} {s t : State} (hps : ps.all Prim.quiet = true)
    (ht : runCommand (ps ++ qs) s = .next t) :
    sent t = sent s ∨ ∃ u, Runs ps s u ∧ sent u = sent s ∧ runCommand qs u = .next t := by
  induction ps generalizing s with
  | nil => exact .inr ⟨s, rfl, rfl, ht⟩
  | cons p ps ih =>
    rw [List.all_cons, Bool.and_eq_true] at hps
    obtain ⟨hp, hps⟩ := hps
    have h := drive_quiet hp s
    rw [List.cons_append, runCommand] at ht
    cases he : drive p s <;> rw [he] at h ht
    case done v =>
      obtain hstop | ⟨u, hu, hsent, hrest⟩ := ih hps ht
      · exact .inl (hstop.trans h)
      · exact .inr ⟨u, ⟨v, he, hu⟩, hsent.trans h, hrest⟩
    case turn => exact h.elim
    case fault => cases ht
    all_goals
      cases ht
      exact .inl h

/-! ### Nothing is taken back -/

theorem prefix_sent_txByte (b : Byte) (s : State) (n : Nat) : sent s <+: sent (txByte b { s with cnt := n }) := by
  simp [sent, txByte]

/-- No primitive takes back what was sent. -/
theorem prefix_sent_perform (p : Prim) (ps : List Prim) (s : State) :
    (perform p s).Leaves (fun _ t => sent s <+: sent t) p ps := by
  by_cases hp : p.quiet = true
  · have h := perform_quiet hp s
    cases he : perform p s <;> rw [he] at h <;> first | exact h ▸ List.prefix_rfl | trivial
  · cases p
    case txByte b => exact prefix_sent_txByte b s s.cnt
    case txData =>
      simp only [perform, dataStep]
      repeat' split
      · exact List.prefix_rfl
      all_goals exact prefix_sent_txByte _ s _
    case check r =>
      simp only [perform]
      split_ifs <;> exact List.prefix_rfl
    case arbitrate =>
      simp only [perform, arbitrate]
      repeat' split
      all_goals exact List.prefix_rfl
    case poll =>
      have hdraw : sent (draw s).2 = sent s := by rw [draw_frame]; rfl
      simp only [perform, pollStep, pollByte]
      repeat' split
      all_goals first | exact List.prefix_rfl | exact hdraw ▸ List.prefix_rfl
    all_goals exact absurd rfl hp

theorem runInvariant_sent (s₀ : State) : RunInvariant fun _ u => sent s₀ <+: sent u where
  surroundings h _ _ _ _ _ _ _ _ := h
  perform {p ps s} h := (prefix_sent_perform p ps s).mono fun _ _ ht => h.trans ht
  home {s} h := by
    obtain ⟨l, x, heq⟩ := home_frame s
    rw [heq]
    exact h
  fetch {_ s} h _ := by
    obtain ⟨rx, b, es, heq⟩ := takeOpcode_frame s
    rw [heq]
    exact h
  utx {_ s} h := by
    have hsent : sent (utxMove s) = sent s := by cases hq : s.txq <;> simp [sent, utxMove, hq]
    rw [hsent]
    exact h
  nvmc {_ s} _ h := by
    rw [sent_nvmComplete]
    exact h

/-! ### The first byte of a control path -/

/-- The first byte that the path hands over is `b`. -/
def FirstSends (b : Byte) (ps : List Prim) : Prop :=
  ∃ before after, ps = before ++ .txByte b :: after ∧ before.all Prim.quiet = true

theorem FirstSends.after_quiet {b : Byte} {ps qs : List Prim} (h : FirstSends b qs) (hps : ps.all Prim.quiet = true) :
    FirstSends b (ps ++ qs) := by
  obtain ⟨before, after, rfl, hbefore⟩ := h
  exact ⟨ps ++ before, after, by simp, by rw [List.all_append, hps, hbefore, Bool.and_self]⟩

theorem FirstSends.append {b : Byte} {ps : List Prim} (h : FirstSends b ps) (qs : List Prim) : FirstSends b (ps ++ qs) := by
  obtain ⟨before, after, rfl, hbefore⟩ := h
  exact ⟨before, after ++ qs, by simp, hbefore⟩

/-- A run of such a path sends nothing or begins with `b`. -/
theorem FirstSends.sent {b : Byte} {ps : List Prim} {s t : State} (h : FirstSends b ps)
    (ht : runCommand ps s = .next t) : sent t = sent s ∨ sent s ++ [b] <+: sent t := by
  obtain ⟨before, after, rfl, hbefore⟩ := h
  refine (runCommand_quiet hbefore ht).imp_right fun ⟨u, _, hsent, hrest⟩ => ?_
  rw [runCommand, drive_txByte] at hrest
  have hgrows := (runInvariant_sent (txByte b u)).kept_runCommand List.prefix_rfl hrest
  rwa [show Machine.sent (txByte b u) = Machine.sent s ++ [b] by rw [← hsent]; simp [Machine.sent, txByte]] at hgrows

/-! ### The first byte of a command -/

theorem quiet_stagePage (n : Nat) : (stagePage n).all Prim.quiet = true := by
  simp [stagePage, Prim.quiet]

/-- The leading edge of the bracket sends nothing. -/
theorem firstSends_bracket (c : Config) (b : Byte) (body : List Prim) : FirstSends b (bracket c (.txByte b :: body)) := by
  refine ⟨txBegin c, body ++ txEnd c, by simp [bracket], ?_⟩
  unfold txBegin
  split_ifs <;> rfl

theorem firstSends_replyStatus (c : Config) (b : Byte) : FirstSends b (replyStatus c b) :=
  (firstSends_bracket c b []).after_quiet (ps := [.goto .reply]) rfl

theorem firstSends_replyData (c : Config) (b : Byte) (header : List Byte) : FirstSends b (replyData c (b :: header)) :=
  (firstSends_bracket c b (header.map Prim.txByte ++ [Prim.txData])).after_quiet (ps := [.goto .reply]) rfl

/-- A commit between its barriers, then the status. -/
theorem firstSends_commit (c : Config) {q : Prim} (hq : q.quiet = true) :
    FirstSends c.stOk ([.waitReady, q, .waitReady] ++ replyStatus c c.stOk) :=
  (firstSends_replyStatus c c.stOk).after_quiet (by simp only [List.all_cons, hq]; rfl)

theorem firstSends_writePath (c : Config) (n : Nat) {q : Prim} (hq : q.quiet = true) :
    FirstSends c.stOk (writePath c n q) :=
  (firstSends_commit c hq).after_quiet (by rw [List.all_append, quiet_stagePage]; rfl)

/-- A command without an index sends `ST_OK` first (R104, R105), READ_FUSES in LEGACY apart (R183). -/
theorem firstSends_pathOf {c : Config} {i : Instr} (hi : indexRegion i = none) (hp : pathOf c i ≠ [])
    (hfuses : ¬(i = .readFuses ∧ c.protocol = .legacy)) : FirstSends c.stOk (pathOf c i) := by
  have hquery : ∀ src header, FirstSends c.stOk (queryPath c src (c.stOk :: header)) := fun src header =>
    (firstSends_replyData c c.stOk header).after_quiet rfl
  cases i
  case nop => exact absurd rfl hp
  case unknown => exact absurd rfl hp
  case eraseApp =>
    exact (firstSends_commit c (q := .issue .eraseAppSection) rfl).after_quiet (ps := [.goto .exec]) rfl
  case eraseUsersig =>
    exact (firstSends_commit c (q := .issue .eraseUsersigRow) rfl).after_quiet (ps := [.goto .exec]) rfl
  case writeUsersig =>
    simpa [pathOf, writeUsersigPath, userSigWrite, writePath] using
      firstSends_writePath c (c.page .us) (q := .issue .writeUsersigRow) rfl
  case reset => exact (firstSends_replyStatus c c.stOk).append _
  case readCrc => exact (firstSends_replyData c c.stOk []).after_quiet rfl
  case readUsersig => exact (firstSends_replyData c c.stOk (le16 (c.size .us))).after_quiet rfl
  case readMcuId | readSerial | readVersion | readGeometry => exact hquery _ _
  case readFuses =>
    have hprotocol : c.protocol ≠ .legacy := fun h => hfuses ⟨rfl, h⟩
    simpa [pathOf, readFusesPath, hprotocol] using hquery .fuses []
  all_goals cases hi

/-- An indexed command sends `ST_OK` first, its index checked. -/
theorem firstSends_afterCheck (c : Config) {i : Instr} {r : Region} (h : indexRegion i = some r) :
    ∃ ps, pathOf c i = readIndex ++ checkIndex r ++ ps ∧ FirstSends c.stOk ps := by
  have hread : ∀ r, FirstSends c.stOk ([.fresh, .fetch (.page r)] ++ replyData c (c.stOk :: le16 (c.page r))) := fun r =>
    (firstSends_replyData c c.stOk (le16 (c.page r))).after_quiet rfl
  have hwrite : ∀ i n k, FirstSends c.stOk (earlyPath c i ++ writePath c n (.issuePage k)) := by
    intro i n k
    unfold earlyPath
    split_ifs
    · exact (firstSends_replyStatus c c.stOk).append _
    · exact firstSends_writePath c n rfl
  cases i <;> cases h
  case readPage.refl => exact ⟨_, List.append_assoc _ _ _, hread .app⟩
  case readEeprom.refl => exact ⟨_, List.append_assoc _ _ _, hread .ee⟩
  case writePage.refl => exact ⟨_, pathOf_indexedWrite c .flash, hwrite _ _ _⟩
  case writeEeprom.refl => exact ⟨_, pathOf_indexedWrite c .eeprom, hwrite _ _ _⟩

/-! ### The status -/

theorem drive_rxIdxHi_nil {s : State} (h : s.rxq = []) : drive .rxIdxHi s = .wait s := by
  rw [drive_once _ _ rfl]
  simp [help, perform, h]

theorem drive_rxIdxLo_nil {s : State} (h : s.rxq = []) : drive .rxIdxLo s = .wait s := by
  rw [drive_once _ _ rfl]
  simp [help, perform, h]

/-- An index that is read to its end is the two bytes at the head of the receive path. -/
theorem rxq_of_runs_index {s u : State} (h : Runs (readIndex ++ [.goto .check]) s u) :
    ∃ hi lo rest, s.rxq = hi :: lo :: rest := by
  obtain ⟨s1, h1, s2, h2, s3, h3, s4, h4, -⟩ := h
  obtain rfl := Effect.done.inj ((drive_goto .idxHi s).symm.trans h1)
  match hq : s.rxq with
  | [] =>
    have hwait := h2.symm.trans (drive_rxIdxHi_nil hq)
    cases hwait
  | [hi] =>
    obtain rfl := Effect.done.inj ((drive_rxIdxHi { s with seq := .idxHi } hi [] hq).symm.trans h2)
    obtain rfl := Effect.done.inj ((drive_goto .idxLo _).symm.trans h3)
    have hwait := h4.symm.trans (drive_rxIdxLo_nil rfl)
    cases hwait
  | hi :: lo :: rest => exact ⟨hi, lo, rest, rfl⟩

/-- Settles O31: a command without an index begins with `ST_OK`; one with an index too if it is in range, and out of range it
is answered `ST_FAIL`. -/
theorem failMeansRangeError : Obligations.FailMeansRangeError := by
  intro s t i b bytes _ ht hfuses hsent
  have hok : sent t = sent s ∨ sent s ++ [s.cfg.stOk] <+: sent t → b = s.cfg.stOk := by
    rw [hsent]
    rintro (hnone | hfirst)
    · simp at hnone
    · simpa [eq_comm] using hfirst
  have hrun := ht
  rw [exec_eq_runCommand] at hrun
  cases hregion : indexRegion i with
  | none =>
    refine .inl (hok ?_)
    by_cases hpath : pathOf s.cfg i = []
    · rw [hpath] at hrun
      cases hrun
      obtain ⟨l, x, hhome⟩ := home_frame s
      rw [hhome]
      exact .inl rfl
    · exact (firstSends_pathOf hregion hpath hfuses).sent hrun
  | some r =>
    obtain ⟨ps, hpath, hfirst⟩ := firstSends_afterCheck s.cfg hregion
    rw [hpath] at hrun
    obtain hstop | ⟨u, hu, -⟩ := runCommand_quiet (ps := readIndex ++ [.goto .check]) (qs := .check r :: ps) rfl hrun
    · exact .inl (hok (.inl hstop))
    obtain ⟨hi, lo, rest, hq⟩ := rxq_of_runs_index hu
    have hq' : s.rxq = be16 (indexOf hi lo) ++ rest := by rw [be16_indexOf, hq]; rfl
    by_cases hidx : (indexOf hi lo).toNat < s.cfg.pageCount r
    · obtain ⟨h, tr, hread⟩ := runs_checkedIndex hq' hidx
      rw [runCommand_append hread] at hrun
      have hchecked := hfirst.sent hrun
      exact .inl (hok hchecked)
    · obtain ⟨t', ht', ⟨-, ⟨hsent', -⟩, -⟩, -⟩ := exec_rangeError hregion hq' (Nat.le_of_not_lt hidx)
      obtain rfl : t' = t := Host.Outcome.next.inj (ht'.symm.trans ht)
      obtain ⟨rfl, rfl⟩ : b = s.cfg.stFail ∧ bytes = [] := by simpa using hsent.symm.trans hsent'
      exact .inr ⟨rfl, rfl, r, hi, lo, rest, rfl, hq, Nat.le_of_not_lt hidx⟩

end Sys2Proof.Machine
end

section
/-! SUPPORT. The trace of a write (10_state.md R38): what is taken from the receive path is logged, and so is what is staged,
issued and completed. -/

namespace Sys2Proof.Machine

/-- The primitives that take bytes from the receive path for a command, and the assignments between them. -/
def Prim.receives : Prim → Bool
  | .goto _ => true
  | .fresh => true
  | .check _ => true
  | .rxIdxHi => true
  | .rxIdxLo => true
  | .rxPayload _ => true
  | _ => false

/-- Everything received: what the trace has of it, and what is still in the receive path. -/
def received (s : State) : List Event := s.trace ++ s.rxq.map .rx

/-- Receiving goes on where it stopped: a byte is taken and logged. -/
theorem perform_received {p : Prim} (hp : p.receives = true) (ps : List Prim) (s : State) :
    (perform p s).Leaves (fun _ t => received t = received s) p ps := by
  cases p
  case goto | fresh => rfl
  case check => simp only [perform]; split_ifs <;> rfl
  case rxIdxHi => cases hq : s.rxq <;> simp [perform, hq, received, Effect.Leaves, takeIdxHi]
  case rxIdxLo => cases hq : s.rxq <;> simp [perform, hq, received, Effect.Leaves, takeIdxLo]
  case rxPayload =>
    simp only [perform, payloadStep]
    cases hq : s.rxq <;> split_ifs <;> simp [hq, received, Effect.Leaves, takePayload]
  all_goals cases hp

theorem help_of_receives {p : Prim} (hp : p.receives = true) (s : State) : help p s = s := by
  cases p <;> first | rfl | cases hp

theorem drive_received {p : Prim} (hp : p.receives = true) {s t : State} (h : drive p s = .done t) :
    received t = received s := by
  have hloop := iterate_keeps (Q := Effect.Leaves (fun _ u => received u = received s) p []) (n := bound p s)
    (fun u hu => (perform_received hp [] u).mono fun _ _ hv => hv.trans hu) (s := s) rfl
  rw [drive, help_of_receives hp] at h
  rwa [h] at hloop

/-- Along a run that only receives, the bytes gone from the receive path are those the trace has gained. -/
theorem Runs.received {ps : List Prim} {s t : State} (hps : ps.all Prim.receives = true) (h : Runs ps s t) :
    received t = received s := by
  induction ps generalizing s with
  | nil => rw [show t = s from h]
  | cons p ps ih =>
    rw [List.all_cons, Bool.and_eq_true] at hps
    obtain ⟨u, hu, hrest⟩ := h
    exact (ih hps.2 hrest).trans (drive_received hps.1 hu)

theorem Runs.trace_of_rxq {ps : List Prim} {s t : State} {bytes rest : List Byte} (hps : ps.all Prim.receives = true)
    (h : Runs ps s t) (hq : s.rxq = bytes ++ rest) (hq' : t.rxq = rest) : t.trace = s.trace ++ bytes.map .rx := by
  have hreceived := h.received hps
  rw [Machine.received, Machine.received, hq, hq', List.map_append, ← List.append_assoc] at hreceived
  exact List.append_cancel_right hreceived

/-- Staging a run of buffer positions logs each of them with its byte (45_nvm_primitives.md R216). -/
theorem Runs.stage_trace {p : List Byte} {a : Nat} {s t : State}
    (hbuf : ∀ k (hk : k < p.length), s.buf[a + k]? = some (some p[k]))
    (h : Runs ((List.range' a p.length).map .stage) s t) :
    t.trace = s.trace ++ (p.zipIdx a).map fun x => .stage x.2 x.1 := by
  induction p generalizing a s with
  | nil => rw [show t = s from h]; simp
  | cons b p ih =>
    have hb : bufAt s a = some b := congrArg Option.join (hbuf 0 (by simp))
    obtain ⟨u, hu, hrest⟩ := h
    obtain rfl := Effect.done.inj ((drive_stage s a b hb).symm.trans hu)
    rw [ih (fun k hk => ?_) hrest]
    · simp
    · have := hbuf (k + 1) (by simpa using hk)
      simpa [Nat.add_assoc, Nat.add_comm 1] using this

/-! ### The trace of an indexed write in LEGACY -/

@[simp] theorem nvmComplete_cfg (s : State) : (nvmComplete s).cfg = s.cfg := by
  obtain ⟨m, st, t, n, tr, h⟩ := nvmComplete_frame s
  rw [h]
  rfl

theorem nvmComplete_nvmIssue_trace (x : NvmCmd) (s : State) :
    (nvmComplete (nvmIssue x s)).trace = s.trace ++ [.issue x, .done x] := by
  rw [nvmComplete_pending _ x rfl]
  simp [nvmIssue]

/-- What a page write logs from its payload on: the payload read, staged in ascending positions, the commit issued and
completed, the status (R72, R73). -/
def writeEvents (x : NvmCmd) (p : List Byte) (status : Byte) : List Event :=
  p.map .rx ++ p.zipIdx.map (fun y => .stage y.2 y.1) ++ [.issue x, .done x, .txq status]

theorem runs_writePath_trace {s : State} {x : NvmCmd} {q : Prim} {p rest : List Byte} (hd : s.cfg.halfDuplex = false)
    (hb : p.length ≤ s.buf.length) (hq : s.rxq = p ++ rest)
    (hcommit : ∀ st tr, Runs [.waitReady, q, .waitReady] (s.withPage p rest st tr)
      (nvmComplete (nvmIssue x (s.withPage p rest st tr)))) :
    ∃ u, Runs (writePath s.cfg p.length q) s u ∧ u.trace = s.trace ++ writeEvents x p s.cfg.stOk := by
  obtain ⟨tr, hread⟩ := runs_readPayload s p rest hq hb
  have hload : Runs (readPayload p.length ++ [.goto .exec]) s (s.withPage p rest s.nvmStage tr) :=
    hread.append (Runs.single (drive_goto .exec _))
  have hread_trace : tr = s.trace ++ p.map .rx := hload.trace_of_rxq rfl hq rfl
  have hbuf : ∀ k (hk : k < p.length), (s.withPage p rest s.nvmStage tr).buf[k]? = some (some p[k]) := fun k hk => by
    simp [State.withPage, List.getElem?_append, hk]
  obtain ⟨st, tr', hstage, -⟩ := runs_stagePage (s.withPage p rest s.nvmStage tr) p hbuf
  have hstage_trace : tr' = tr ++ p.zipIdx.map fun y => .stage y.2 y.1 := by
    rw [stagePage, List.range_eq_range'] at hstage
    exact hstage.stage_trace (by simpa using hbuf)
  obtain ⟨u, hu, -, ⟨-, hburst⟩, -⟩ := runs_replyStatus (nvmComplete (nvmIssue x (s.withPage p rest st tr'))) s.cfg.stOk
  rw [nvmComplete_cfg] at hu hburst
  refine ⟨u, (hload.append hstage).append ((hcommit st tr').append hu), ?_⟩
  rw [hburst hd, nvmComplete_nvmIssue_trace]
  simp [State.withPage, hstage_trace, hread_trace, writeEvents]

/-- The early acknowledgement, where there is one, is logged as it is handed over. -/
theorem runs_earlyPath_trace {s : State} (i : Instr) (hd : s.cfg.halfDuplex = false) :
    ∃ u, Runs (earlyPath s.cfg i) s u ∧ OnlyWire s u ∧ u.rxq = s.rxq ∧
      u.trace = s.trace ++ (earlyStatuses s.cfg i).map .txq := by
  unfold earlyPath earlyStatuses
  split_ifs
  · obtain ⟨u, hu, hreplied, ⟨-, hburst⟩, hwire, -⟩ := runs_replyStatus s s.cfg.stOk
    exact ⟨u, hu, hwire, hreplied.rxq hd, hburst hd⟩
  · exact ⟨s, rfl, OnlyWire.refl s, rfl, (List.append_nil _).symm⟩

/-- The trace of WRITE_PAGE and WRITE_EEPROM in LEGACY with a valid index and the whole payload received (R115, R141, R161). -/
theorem exec_indexedWrite_trace {s t : State} {i : Instr} {r : Region} {kind : PageCommit} {idx : Half}
    {p rest : List Byte} (h : IndexedWrite i r kind) (hs : StorageReady s) (hd : s.cfg.halfDuplex = false)
    (hq : s.rxq = be16 idx ++ p ++ rest) (hidx : idx.toNat < s.cfg.pageCount r) (hp : p.length = s.cfg.page r)
    (ht : exec i s = .next t) :
    t.trace = s.trace ++ (be16 idx).map .rx ++ (earlyStatuses s.cfg i).map .txq ++
      writeEvents (kind.command idx) p s.cfg.stOk := by
  obtain ⟨hx, htarget, hr⟩ := h.command s.cfg idx
  have hfits : p.length ≤ s.buf.length := by
    have := NvmCmd.target_le_buf hs hx
    rwa [htarget, ← hp] at this
  have hq' : s.rxq = be16 idx ++ (p ++ rest) := by rw [hq, List.append_assoc]
  obtain ⟨hi, tr, hread⟩ := runs_checkedIndex hq' hidx
  have hread_trace : tr = s.trace ++ (be16 idx).map .rx := hread.trace_of_rxq rfl hq' rfl
  obtain ⟨u, hu, hwire, hrxq, hearly_trace⟩ := runs_earlyPath_trace (s := s.withIndex idx hi (p ++ rest) tr) i hd
  obtain ⟨⟨-, hbuf, hbusy, -⟩, hcontrol, hu_idx, -⟩ := hwire.same
  have hu_cfg : u.cfg = s.cfg := hcontrol.cfg
  have hu_range : (kind.command u.idx).inRange u.cfg = true := by
    rw [hu_cfg, hu_idx]
    exact hr.trans (decide_eq_true hidx)
  obtain ⟨v, hv, hwrite_trace⟩ := runs_writePath_trace (s := u) (x := kind.command u.idx) (q := .issuePage kind)
    (hu_cfg ▸ hd) (hbuf ▸ hfits) hrxq fun _ _ => runs_commitPage _ kind (hbusy.trans hs.idle) hu_range
  rw [hu_cfg] at hv hwrite_trace
  have hrun := runCommand_of_runs (hread.append (hu.append hv))
  rw [withIndex_cfg, hp, ← pathOf_indexedWrite s.cfg h, ← exec_eq_runCommand, ht] at hrun
  obtain ⟨l, x, hhome⟩ := home_frame v
  rw [Host.Outcome.next.inj hrun, hhome]
  simp [hwrite_trace, hearly_trace, hread_trace, hu_idx, State.withIndex]

end Sys2Proof.Machine
end

section
/-! SUPPORT. WRITE_PAGE with both acknowledgements (30_encoding.md R115): in LEGACY one run; in HALFDUPLEX the wait for the
payload after the first, and the step that goes on from there. -/

namespace Sys2Proof.Machine

/-! ### The wait for a payload -/

/-- A page write from the first byte of its payload on. -/
def payloadPath (c : Config) (n : Nat) (q : Prim) : List Prim :=
  .rxPayload n :: .goto .exec :: (stagePage n ++ ([.waitReady, q, .waitReady] ++ replyStatus c c.stOk))

theorem writePath_eq (c : Config) (n : Nat) (q : Prim) :
    writePath c n q = [.fresh, .goto .payload] ++ payloadPath c n q := by
  simp [writePath, readPayload, payloadPath]

/-- Where a page write stands that waits for the first byte of its payload. -/
def State.awaitingPayload (s : State) (path : List Prim) : State :=
  { s with seq := .payload, cnt := 0, data := [], todo := path }

theorem drive_rxPayload_nil {s : State} {n : Nat} (hq : s.rxq = []) (hn : s.cnt < n) : drive (.rxPayload n) s = .wait s := by
  simp [drive, help, bound, iterate, perform, payloadStep, hq, hn]

/-- With no byte of the payload there, a page write waits for the first. -/
theorem runCommand_writePath_waits {s : State} {n : Nat} (q : Prim) (hq : s.rxq = []) (hn : 0 < n) :
    runCommand (writePath s.cfg n q) s = .next (s.awaitingPayload (payloadPath s.cfg n q)) := by
  have hstart : Runs [.fresh, .goto .payload] s (s.awaitingPayload s.todo) :=
    ⟨_, drive_fresh s, _, drive_goto .payload _, rfl⟩
  have hwait : drive (.rxPayload n) (s.awaitingPayload s.todo) = .wait (s.awaitingPayload s.todo) :=
    drive_rxPayload_nil hq hn
  rw [writePath_eq, runCommand_append hstart, payloadPath, runCommand, hwait]
  rfl

/-- With bytes there it goes on, as if from the start of its payload. -/
theorem step_awaitingPayload {s : State} {n : Nat} {q : Prim} (hc : s.cfg.wf = true) (hs : s.sched = []) (hq : s.rxq ≠ []) :
    step (s.awaitingPayload (payloadPath s.cfg n q)) =
      runCommand (writePath s.cfg n q) (s.awaitingPayload (payloadPath s.cfg n q)) := by
  have hstart : Runs [.fresh, .goto .payload] (s.awaitingPayload (payloadPath s.cfg n q))
      (s.awaitingPayload (payloadPath s.cfg n q)) := ⟨_, drive_fresh _, _, drive_goto .payload _, rfl⟩
  rw [writePath_eq, runCommand_append hstart]
  exact step_path hc hs rfl rfl (by simp [blocked, State.awaitingPayload, payloadPath, hq])

/-! ### Echoes -/

theorem Config.one_le_echoMax {c : Config} (hc : c.wf = true) : 1 ≤ c.echoMax := by
  simp only [Config.wf, Bool.and_eq_true, Config.echoOk, decide_eq_true_eq] at hc
  obtain ⟨-, -, -, -, -, -, -, -, -, ⟨hecho, -⟩, -⟩ := hc
  exact hecho

theorem Config.page_pos {c : Config} (hc : c.wf = true) (r : Region) : 0 < c.page r := by
  simp only [Config.wf, Bool.and_eq_true, Config.pagesOk_iff] at hc
  exact (hc.1 r).1

/-- With as many discarding reads as echo bytes can come, a reply leaves nothing in an empty receive path (R245). -/
theorem Replied.rxq_nil {bytes : List Byte} {s t : State} (h : Replied [] bytes s t) (hc : s.cfg.wf = true)
    (hd : s.cfg.halfDuplex = true) (hecho : s.cfg.echoMax ≤ s.cfg.echoDiscardReads) : t.rxq = [] := by
  obtain ⟨-, hduplex, -⟩ := h
  obtain ⟨-, -, -, echo, -, hlen, hrxq⟩ := hduplex hd
  have := Config.one_le_echoMax hc
  rw [hrxq, List.nil_append]
  exact List.drop_eq_nil_of_le (by omega)

/-! ### WRITE_PAGE -/

/-- Each byte of the page is its payload byte, if the flash takes it (R220). -/
theorem NvmCmd.Written.flash_read {p : List Byte} {idx : Half} {s t : State}
    (h : (PageCommit.flash.command idx).Written ((PageCommit.flash.command idx).page p s) s t) (k : Nat)
    (hk : k < p.length) (htakes : s.cfg.flashWriteRequiresErased = false ∨
      s.mem.read .app (pageOffset s.cfg .app idx.toNat + k) = s.cfg.erasedByte) :
    t.mem.read .app (pageOffset s.cfg .app idx.toNat + k) = p[k] :=
  h.read k _ (NvmCmd.page_getElem hk (by simpa [NvmCmd.takes, PageCommit.command, NvmCmd.target] using htakes))

/-- What is wanted of a page, too, depends on the configuration and the memory only. -/
theorem NvmCmd.Written.page_of_eq {x : NvmCmd} {p : List Byte} {s s' t : State} (h : x.Written (x.page p s') s' t)
    (hc : s'.cfg = s.cfg) (hm : s'.mem = s.mem) : x.Written (x.page p s) s t := by
  have hpage : x.page p s' = x.page p s := by simp [NvmCmd.page, NvmCmd.takes, hc, hm]
  exact hpage ▸ h.of_eq hc hm

/-- In HALFDUPLEX, with the index received and no more, WRITE_PAGE acknowledges it and waits for its payload. -/
theorem exec_writePage_waits {s : State} {idx : Half} (hc : s.cfg.wf = true) (hmode : s.cfg.ackMode = .earlyAndFinal)
    (hd : s.cfg.halfDuplex = true) (hecho : s.cfg.echoMax ≤ s.cfg.echoDiscardReads) (hq : s.rxq = be16 idx)
    (hidx : idx.toNat < s.cfg.pageCount .app) :
    ∃ u, exec .writePage s =
        .next (u.awaitingPayload (payloadPath u.cfg (u.cfg.page .app) (.issuePage .flash))) ∧
      u.rxq = [] ∧ u.idx = idx ∧ Replied [] [s.cfg.stOk] s u ∧ SameStorage s u ∧ SameControl s u := by
  obtain ⟨hi, tr, hread⟩ := runs_checkedIndex (hq.trans (List.append_nil _).symm) hidx
  obtain ⟨u, hu, hreplied, -, hwire, -⟩ := runs_replyStatus (s.withIndex idx hi [] tr) s.cfg.stOk
  obtain ⟨hstorage, hcontrol, hu_idx, -⟩ := hwire.same
  have hu_cfg : u.cfg = s.cfg := hcontrol.cfg
  have hu_rxq : u.rxq = [] := hreplied.rxq_nil hc hd hecho
  have hwait := runCommand_writePath_waits (.issuePage .flash) hu_rxq (Config.page_pos (hu_cfg ▸ hc) .app)
  have hearly : earlyPath s.cfg .writePage = replyStatus s.cfg s.cfg.stOk := if_pos ⟨rfl, hmode⟩
  refine ⟨u, ?_, hu_rxq, hu_idx, hreplied, hstorage, hcontrol⟩
  rw [exec_eq_runCommand, pathOf_indexedWrite s.cfg .flash, runCommand_append hread, hearly]
  rw [hu_cfg] at hwait ⊢
  exact (runCommand_append hu _).trans hwait

/-- The payload received, the step commits the page and answers. -/
theorem step_writePage_resumes {s : State} {p : List Byte} (hs : StorageReady s) (hsched : s.sched = [])
    (hidx : s.idx.toNat < s.cfg.pageCount .app) (hp : p.length = s.cfg.page .app) :
    ∃ t, step { s.awaitingPayload (payloadPath s.cfg (s.cfg.page .app) (.issuePage .flash)) with rxq := p } = .next t ∧
      AtLoop t ∧ sent t = sent s ++ [s.cfg.stOk] ∧
      (PageCommit.flash.command s.idx).Written ((PageCommit.flash.command s.idx).page p s) s t := by
  have hr : (PageCommit.flash.command s.idx).inRange s.cfg = true := decide_eq_true hidx
  have hne : p ≠ [] := List.ne_nil_of_length_pos (hp ▸ Config.page_pos hs.config .app)
  obtain ⟨t, ht, ⟨hloop, ⟨hsent, -⟩, -⟩, hwritten, -⟩ := finishes_write (p := p)
    (s := State.awaitingPayload { s with rxq := p } (payloadPath s.cfg (s.cfg.page .app) (.issuePage .flash)))
    (x := PageCommit.flash.command s.idx) (q := .issuePage .flash)
    ⟨hs.config, hs.memory, hs.buffer, hs.idle⟩ rfl hr hp.symm (List.append_nil p).symm
    fun _ _ => runs_commitPage _ .flash hs.idle hr
  rw [hp] at ht
  exact ⟨t, (step_awaitingPayload (s := { s with rxq := p }) hs.config hsched hne).trans ht.runCommand, hloop, hsent,
    hwritten.page_of_eq rfl rfl⟩

/-- Settles O12: in LEGACY the run of an indexed write and its trace; in HALFDUPLEX the wait after the first acknowledgement,
and the page write that goes on from it. -/
theorem writePageAcknowledgesTwice : Obligations.WritePageAcknowledgesTwice := by
  intro s idx p hs hmode hidx hp
  refine ⟨fun rest hprotocol hq => ?_, fun hprotocol hecho hsched hq => ?_⟩
  · have hd : s.cfg.halfDuplex = false := by simp [Config.halfDuplex, hprotocol]
    have hearly : earlyStatuses s.cfg .writePage = [s.cfg.stOk] := if_pos ⟨rfl, hmode⟩
    obtain ⟨t, ht, hanswered, hwritten, -⟩ := exec_indexedWrite .flash hs (fun _ _ => hd) hq hidx hp
    have htrace := exec_indexedWrite_trace .flash hs hd hq hidx hp ht
    rw [hearly] at hanswered htrace
    refine ⟨t, ht, hanswered, hwritten.flash_read, hwritten.outside, ?_⟩
    simpa [writeEvents, PageCommit.command] using htrace
  · have hd : s.cfg.halfDuplex = true := by simp [Config.halfDuplex, hprotocol]
    obtain ⟨t, hexec, ht_rxq, rfl, hreplied, hstorage, hcontrol⟩ := exec_writePage_waits hs.config hmode hd hecho hq hidx
    have hcfg : t.cfg = s.cfg := hcontrol.cfg
    have hready : StorageReady t := hstorage.storageReady hs hcfg
    obtain ⟨u, hstep, hloop, hsent, hwritten⟩ :=
      step_writePage_resumes hready (hcontrol.sched.trans hsched) (hcfg ▸ hidx) (hcfg ▸ hp)
    have hwritten := hwritten.page_of_eq hcfg hstorage.1
    refine ⟨_, hexec, rfl, rfl, hreplied, ht_rxq, rfl, hstorage, hcontrol, u, hstep, hloop, ?_, hwritten.flash_read,
      hwritten.outside⟩
    rw [hsent, hreplied.1, hcfg, List.append_assoc]
    rfl

end Sys2Proof.Machine
end

section
/-! The flash commands (40_flash_commands.md R140 to R143): what each leaves in memory and what it answers. -/

namespace Sys2Proof.Machine

/-! ### What memory reads as after a command -/

/-- Where one value is wanted all over, each byte reads as that value. -/
theorem NvmCmd.Written.read_replicate {x : NvmCmd} {n : Nat} {v : Byte} {s t : State}
    (h : x.Written (List.replicate n (some v)) s t) {k : Nat} (hk : k < n) :
    t.mem.read (x.target s.cfg).1 ((x.target s.cfg).2.1 + k) = v :=
  h.read k v (by simp [hk])

/-- Bytes that all hold one value are read as so many copies of it. -/
theorem NvMem.readBytes_eq_replicate {m : NvMem} {r : Region} {a n : Nat} {v : Byte}
    (h : ∀ k, k < n → m.read r (a + k) = v) : m.readBytes r a n = List.replicate n v := by
  refine List.eq_replicate_iff.2 ⟨NvMem.length_readBytes m r a n, fun b hb => ?_⟩
  obtain ⟨k, hk, rfl⟩ := List.mem_map.1 hb
  exact h k (List.mem_range.1 hk)

/-- The other regions are read as before. -/
theorem SameMemoryOutside.readBytes_of_ne {r r' : Region} {a n : Nat} {s t : State} (h : SameMemoryOutside r a n s t)
    (hr : r' ≠ r) (b k : Nat) : t.mem.readBytes r' b k = s.mem.readBytes r' b k :=
  List.map_congr_left fun i _ => h r' (b + i) fun hin => hr hin.1

/-! ### ERASE_APP and WRITE_PAGE -/

/-- Settles O9: the erase has Application Flash as its target and wants the erased value all over it. -/
theorem eraseAppErases : Obligations.EraseAppErases := by
  intro s hs
  obtain ⟨t, ht, hanswered, hwritten, hbuf, hops⟩ := exec_erase hs (.inl ⟨rfl, rfl⟩)
  refine ⟨t, ht, hanswered, fun a ha => ?_, hwritten.outside, hbuf, hwritten.idle, hops⟩
  simpa [NvmCmd.target] using hwritten.read_replicate ha

/-- Settles O11: with the single acknowledgement the indexed write of a flash page has no early status. -/
theorem writePageCommits : Obligations.WritePageCommits := by
  intro s idx p rest hs hmode hq hidx hp
  have hearly : earlyStatuses s.cfg .writePage = [] := if_neg (by simp [hmode])
  obtain ⟨t, ht, hanswered, hwritten, hbuf, hti, hcnt⟩ :=
    exec_indexedWrite .flash hs (fun _ h => by simp [hmode] at h) hq hidx hp
  rw [hearly] at hanswered
  exact ⟨t, ht, hanswered, hwritten.flash_read, hwritten.outside, hbuf, hwritten.idle, hti, hcnt⟩

/-! ### READ_PAGE and READ_CRC -/

/-- Settles O16: the read of an indexed page, of Application Flash. -/
theorem readPageReplies : Obligations.ReadPageReplies := fun _ _ _ hq hidx => exec_readIndexed (.inl ⟨rfl, rfl⟩) hq hidx

/-- Settles O19: a query whose two sources are the checksums, of four bytes each. -/
theorem readCrcReplies : Obligations.ReadCrcReplies := by
  intro s
  obtain ⟨t, ht, hanswered, hstorage, hidx, hhi, hcnt⟩ := exec_query (s := s) (i := .readCrc) rfl
  refine ⟨t, ht, ?_, hstorage, hidx, hhi, ?_⟩
  · simpa [Query.reply, sourceBytes, crcOf] using hanswered
  · simpa [sourceBytes, le32] using hcnt

/-- Settles O20: the checksums are those of the memory the erase leaves. -/
theorem eraseThenChecksum : Obligations.EraseThenChecksum := by
  intro s hs
  obtain ⟨t, ht, hanswered, herased, houtside, -⟩ := eraseAppErases s hs
  obtain ⟨u, hu, ⟨-, ⟨hsent, -⟩, -⟩, -⟩ := readCrcReplies t
  have happ : t.mem.readBytes .app 0 (s.cfg.size .app) = List.replicate (s.cfg.size .app) s.cfg.erasedByte :=
    NvMem.readBytes_eq_replicate fun k hk => (Nat.zero_add k).symm ▸ herased k hk
  have hboot : t.mem.readBytes .boot 0 (s.cfg.size .boot) = s.mem.readBytes .boot 0 (s.cfg.size .boot) :=
    houtside.readBytes_of_ne (by decide) 0 _
  refine ⟨t, u, ht, hu, ?_⟩
  rw [hsent, hanswered.cfg, happ, hboot]

end Sys2Proof.Machine
end

section
/-! The EEPROM commands (41_eeprom_commands.md R160, R161): what a page write leaves and a page read answers. -/

namespace Sys2Proof.Machine

/-- An EEPROM page takes every byte whatever it held (R221), so a page write leaves its payload there. -/
theorem NvmCmd.Written.eeprom_readBytes {p : List Byte} {idx : Half} {s t : State}
    (h : (PageCommit.eeprom.command idx).Written ((PageCommit.eeprom.command idx).page p s) s t) :
    t.mem.readBytes .ee (pageOffset s.cfg .ee idx.toNat) p.length = p :=
  h.readBytes fun _ _ => rfl

/-- Settles O13: the indexed write of an EEPROM page, which has no early status in either mode. -/
theorem writeEepromCommits : Obligations.WriteEepromCommits := by
  intro s idx p rest hs hq hidx hp
  obtain ⟨t, ht, hanswered, hwritten, hbuf, hti, hcnt⟩ :=
    exec_indexedWrite .eeprom hs (fun hi => nomatch hi) hq hidx hp
  exact ⟨t, ht, hanswered, hp ▸ hwritten.eeprom_readBytes, hwritten.outside, hbuf, hwritten.idle, hti, hcnt⟩

/-- Settles O17: the read of an indexed page, of the EEPROM. -/
theorem readEepromReplies : Obligations.ReadEepromReplies := fun _ _ _ hq hidx =>
  exec_readIndexed (.inr ⟨rfl, rfl⟩) hq hidx

end Sys2Proof.Machine
end

section
/-! The user-signature-row commands (42_usersig_commands.md R170 to R172): what an erase and a write leave in the row, and
what a read answers. -/

namespace Sys2Proof.Machine

/-- The row takes the payload wherever the controller need not find erased bytes, or finds one (R224 with `W` of R218). -/
theorem NvmCmd.Written.row_read {p : List Byte} {s t : State}
    (h : NvmCmd.writeUsersigRow.Written (NvmCmd.writeUsersigRow.page p s) s t) (k : Nat) (hk : k < p.length)
    (hw : s.cfg.flashWriteRequiresErased = false ∨ s.mem.read .us k = s.cfg.erasedByte) :
    t.mem.read .us k = p[k] := by
  have htakes : NvmCmd.writeUsersigRow.takes s k = true := by simpa [NvmCmd.takes, NvmCmd.target] using hw
  simpa [NvmCmd.target] using h.read k p[k] (NvmCmd.page_getElem hk htakes)

/-- Settles O10: the erase has the row as its target and wants the erased value all over it. -/
theorem eraseUsersigErases : Obligations.EraseUsersigErases := by
  intro s hs
  obtain ⟨t, ht, hanswered, hwritten, hbuf, hops⟩ := exec_erase hs (.inr ⟨rfl, rfl⟩)
  refine ⟨t, ht, hanswered, fun a ha => ?_, hwritten.outside, hbuf, hwritten.idle, hops⟩
  simpa [NvmCmd.target] using hwritten.read_replicate ha

/-- Settles O14: the one page of the row is committed with no index read. -/
theorem writeUsersigCommits : Obligations.WriteUsersigCommits := by
  intro s p rest hs hq hp
  obtain ⟨t, ht, hanswered, hwritten, hbuf, hidx, hhi, hcnt⟩ := exec_writeUsersig hs hq hp
  exact ⟨t, ht, hanswered, hwritten.row_read, hwritten.outside, hbuf, hwritten.idle, hidx, hhi, hcnt⟩

/-- Settles O18: a query whose one source is the whole row. -/
theorem readUsersigReplies : Obligations.ReadUsersigReplies := by
  intro s
  obtain ⟨t, ht, hanswered, hstorage, hidx, hhi, hcnt⟩ := exec_query (s := s) (i := .readUsersig) rfl
  refine ⟨t, ht, ?_, hstorage, hidx, hhi, ?_⟩
  · simpa [Query.reply, sourceBytes] using hanswered
  · simpa [sourceBytes, NvMem.length_readBytes] using hcnt

end Sys2Proof.Machine
end

section
/-! The identification and query commands (43_query_commands.md R180 to R184): each answers the bytes of one source after
its header. -/

namespace Sys2Proof.Machine

/-- A query of one source answers the header and the bytes of the source, and `cnt` counts the latter (R24). -/
theorem exec_query_one {s : State} {i : Instr} {label : Seq} {header : List Byte} {src : Source}
    (h : queryOf s.cfg i = some ⟨label, header, [src]⟩) :
    ∃ t, exec i s = .next t ∧ Answered s.rxq (header ++ sourceBytes s src) s t ∧ SameStorage s t ∧ t.idx = s.idx ∧
      t.idxHi = s.idxHi ∧ t.cnt = (sourceBytes s src).length := by
  simpa only [Query.reply, List.flatMap_singleton] using exec_query h

/-- With the spec's list, the fields of READ_GEOMETRY are the six quantities in its order (R184). -/
theorem sourceBytes_geometry_reference {s : State} (h : s.cfg.geomFields = Config.referenceFields) :
    sourceBytes s .geometry =
      leBytes s.cfg.geomW s.cfg.app.size ++ leBytes s.cfg.geomW s.cfg.boot.size ++
        leBytes s.cfg.geomW s.cfg.app.page ++ leBytes s.cfg.geomW s.cfg.ee.size ++
        leBytes s.cfg.geomW s.cfg.ee.page ++ leBytes s.cfg.geomW s.cfg.us.size := by
  simp [sourceBytes, h, Config.referenceFields, Config.quantity, Config.size, Config.page, Config.geo]

/-- Six fields in a well-formed configuration (R184), but the count holds of a list of any length. -/
theorem length_sourceBytes_geometry (s : State) :
    (sourceBytes s .geometry).length = s.cfg.geomFields.length * s.cfg.geomW := by
  simp [sourceBytes, List.length_flatMap]

/-- Settles O21: three queries of one source, a constant of the configuration. -/
theorem identificationReplies : Obligations.IdentificationReplies := fun _ =>
  ⟨exec_query_one (i := .readMcuId) rfl, exec_query_one (i := .readSerial) rfl, exec_query_one (i := .readVersion) rfl⟩

/-- Settles O22: the protocol decides the header, which is empty in LEGACY and the status in HALFDUPLEX. -/
theorem readFusesReplies : Obligations.ReadFusesReplies := by
  intro s
  obtain ⟨t, ht, hanswered, hrest⟩ := exec_query_one (s := s) (i := .readFuses) rfl
  refine ⟨t, ht, fun hlegacy => ?_, fun hhalf => ?_, hrest⟩
  · simpa [hlegacy, sourceBytes] using hanswered
  · simpa [hhalf, sourceBytes] using hanswered

/-- Settles O23: a query whose one source is the list of fields. -/
theorem readGeometryReplies : Obligations.ReadGeometryReplies := by
  intro s
  obtain ⟨t, ht, hanswered, hstorage, hidx, hhi, hcnt⟩ := exec_query_one (s := s) (i := .readGeometry) rfl
  refine ⟨t, ht, hanswered, fun hfields => ?_, hstorage, hidx, hhi, hcnt.trans (length_sourceBytes_geometry s)⟩
  obtain ⟨-, ⟨hsent, -⟩, -⟩ := hanswered
  rw [hsent, sourceBytes_geometry_reference hfields, List.singleton_append]

end Sys2Proof.Machine
end

section
/-! The control commands (44_control_commands.md R200, R202): RESET acknowledges and then waits for its reset, and the no-op
byte is consumed. -/

namespace Sys2Proof.Machine

/-! ### RESET -/

/-- Once the status is handed over, RESET comes to wait for its reset, interrupts being off (R200, R228). -/
theorem exec_reset_of_runs {s u : State} (hu : Runs (replyStatus s.cfg s.cfg.stOk) s u) (hg : u.gie = false) :
    exec .reset s = .next u.awaitingReset := by
  have hgie : (help (.delay .resetDelay) u).gie = false := by
    obtain ⟨_, _, _, hdelay, -⟩ := help_resetDelay_frame u
    rw [hdelay]
    exact hg
  have hend : Finishes [.delay .resetDelay, .protectedWrite .resetTrigger 1, .goto .resetting] u u.awaitingReset :=
    ⟨_, ⟨_, drive_delay .resetDelay u, _, drive_protectedWrite .resetTrigger 1 hgie, _, drive_goto .resetting _, rfl⟩, rfl⟩
  exact Finishes.exec (i := .reset) (hend.after hu)

/-- `awaitingReset_frame` with the history: the trace is only added to, and a queue that the delay covers (R336, log 13), or
that was empty before it, is empty after it. -/
theorem awaitingReset_history (u : State) :
    ∃ tx w tr, u.awaitingReset =
      { u with
        txq := tx, wireOut := w, unlockArmed := false, seq := .resetting, todo := []
        trace := tr ++ [.delay .resetDelay, .protectedWrite .resetTrigger 1] } ∧
      w ++ tx = sent u ∧ u.trace <+: tr ∧ (u.txq = [] ∨ u.cfg.resetDelayCoversTx = true → tx = []) := by
  by_cases hcovers : u.cfg.resetDelayCoversTx = true
  · refine ⟨[], sent u, u.trace ++ u.txq.map .tx, ?_, List.append_nil _, List.prefix_append _ _, fun _ => rfl⟩
    simp [State.awaitingReset, help, hcovers, drain, log, sent]
  · refine ⟨u.txq, u.wireOut, u.trace, ?_, rfl, List.prefix_rfl, fun h => h.resolve_right hcovers⟩
    simp [State.awaitingReset, help, hcovers, log]

/-- A burst only adds to the trace. -/
theorem TracedBurst.trace_prefix {bytes : List Byte} {s t : State} (h : TracedBurst bytes s t) : s.trace <+: t.trace := by
  obtain ⟨hhalf, hlegacy⟩ := h
  cases hd : s.cfg.halfDuplex with
  | true =>
    obtain ⟨es, htrace, -⟩ := hhalf hd
    exact ⟨es, htrace.symm⟩
  | false => exact ⟨_, (hlegacy hd).symm⟩

/-- Settles O24: the reply leaves the queue empty in HALFDUPLEX, the delay empties it where it covers the transmitter, and
what is sent and not queued is on the wire. -/
theorem resetAcknowledges : Obligations.ResetAcknowledges := by
  intro s hg
  obtain ⟨u, hu, ⟨hsent, hhalf, hlegacy⟩, hburst, hwire, -, hcnt⟩ := runs_replyStatus s s.cfg.stOk
  obtain ⟨hstorage, ⟨hcfg, hop, hentry, htcnt, htrun, hgie, hivsel, hextaddr, -⟩, hidx, hhi, hdata, -⟩ := hwire.same
  obtain ⟨tx, w, tr, hframe, hmoved, hgrows, hempty⟩ := awaitingReset_history u
  have htx : s.cfg.halfDuplex = true ∨ s.cfg.resetDelayCoversTx = true → tx = [] := fun h =>
    hempty (h.imp (fun hd => (hhalf hd).1) fun hcovers => hcfg ▸ hcovers)
  refine ⟨u.awaitingReset, tr, exec_reset_of_runs hu (hgie.trans hg), ?_⟩
  rw [hframe]
  refine ⟨rfl, rfl, hmoved.trans hsent, fun h => ⟨htx h, ?_⟩, rfl, hburst.trace_prefix.trans hgrows, fun hd => ?_, fun hd => ?_,
    rfl, hstorage, ⟨hidx, hhi, hcnt, hdata⟩, hcfg, hop, hentry, htcnt, htrun, hgie.trans hg, hivsel, hextaddr⟩
  · rw [htx h, List.append_nil] at hmoved
    exact hmoved.trans hsent
  · obtain ⟨-, hde, hrxdis, -⟩ := hhalf hd
    exact ⟨hde, hrxdis⟩
  · obtain ⟨-, hsame⟩ := hlegacy hd
    exact hsame

/-! ### The no-op byte -/

/-- Settles O26: the no-op byte is no opcode, so it is consumed as every such byte is (R202). -/
theorem nopIsConsumed : Obligations.NopIsConsumed := by
  obtain ⟨-, hignored⟩ := unknownIsIgnored
  exact ⟨fun _ hl => exec_of_pathOf_nil rfl hl,
    fun s rest hc hs hloop hq => hignored s _ rest hc hs hloop hq (Config.nopByte_not_mem_ops hc)⟩

end Sys2Proof.Machine
end

section
/-! SUPPORT. Progress (45_nvm_primitives.md R229, R228, 10_state.md R25(d), 20_memory.md R63): from a state that meets the
invariant no primitive faults, so every run, every move and every step answers a next state. -/

namespace Sys2Proof.Machine

/-- The move of `SEQ` at a primitive that it performs by its own move. -/
theorem applyMove_seq_standing {p : Prim} {ps : List Prim} {s : State} (hl : s.seq ≠ .resetting) (ht : s.todo = p :: ps)
    (hp : p.ofSeq = true) : applyMove .seq s = (perform p s).standing p ps := by
  have hmove := seqMove_standing hp ps s
  rw [← ht] at hmove
  exact (applyMove_seq hl).trans hmove

/-- Short of a fault the block stands somewhere after a primitive. -/
theorem Effect.standing_answers {e : Effect} (he : ∀ f, e ≠ .fault f) (p : Prim) (ps : List Prim) :
    ∃ t, e.standing p ps = .next t := by
  cases e
  case fault f => exact absurd rfl (he f)
  all_goals exact ⟨_, rfl⟩

/-! ### Primitives -/

theorem InvFor.perform_ne_fault {p : Prim} {ps : List Prim} {s : State} (h : InvFor (p :: ps) s) (f : Fault) :
    perform p s ≠ .fault f := by
  intro he
  have hkeeps := keeps_perform p s h.steady h.safe.1
  rw [he] at hkeeps
  exact hkeeps

/-- Nor does a primitive with its whole loop, each time round being such a primitive again. -/
theorem InvFor.drive_ne_fault {p : Prim} {ps : List Prim} {s : State} (h : InvFor (p :: ps) s) :
    ∀ f, drive p s ≠ .fault f := by
  have hloop : (drive p s).Leaves InvFor p ps ∧ ∀ f, drive p s ≠ .fault f :=
    iterate_keeps (Q := fun e => e.Leaves InvFor p ps ∧ ∀ f, e ≠ .fault f)
      (fun _ ⟨hagain, _⟩ => ⟨hagain.leaves_perform, hagain.perform_ne_fault⟩) _
      ⟨runInvariant_invFor.kept_help p h, nofun⟩
  exact hloop.2

/-! ### Runs of control paths -/

theorem InvFor.runWith_answers {turned : List Prim → State → Result}
    (hturned : ∀ path s, InvFor path s → ∃ t, turned path s = .next t) {ps : List Prim} {s : State} (h : InvFor ps s) :
    ∃ t, runWith turned ps s = .next t := by
  induction ps generalizing s with
  | nil => exact ⟨_, rfl⟩
  | cons p ps ih =>
    have hleaves := runInvariant_invFor.kept_drive h
    have hfault := h.drive_ne_fault
    rw [runWith]
    cases he : drive p s <;> rw [he] at hleaves hfault
    case done s' => exact ih hleaves
    case turn path s' => exact hturned path s' hleaves
    all_goals exact Effect.standing_answers hfault p ps

theorem InvFor.runPath_answers {ps : List Prim} {s : State} (h : InvFor ps s) : ∃ t, runPath ps s = .next t := by
  rw [runPath_eq_runWith]
  exact h.runWith_answers fun _ _ _ => ⟨_, rfl⟩

theorem InvFor.runCommand_answers {ps : List Prim} {s : State} (h : InvFor ps s) : ∃ t, runCommand ps s = .next t := by
  rw [runCommand_eq_runWith]
  exact h.runWith_answers fun _ _ hpath => hpath.runPath_answers

/-! ### Moves and steps -/

/-- `SEQ` at a primitive, at one that waits for another agent or for a byte, or at none. -/
theorem Inv.seqMove_answers {s : State} (h : Inv s) : ∃ t, seqMove s = .next t := by
  cases htodo : s.todo with
  | nil => exact ⟨s, by simp [seqMove, htodo]⟩
  | cons p ps =>
    have hpath : InvFor (p :: ps) s := htodo ▸ invFor_todo.2 h
    by_cases hp : p.ofSeq = true
    · have hl : s.seq ≠ .resetting := endsAt_cons hpath.ending
      rw [← applyMove_seq hl, applyMove_seq_standing hl htodo hp]
      exact Effect.standing_answers hpath.perform_ne_fault p ps
    · cases p
      case echo certain => exact ⟨s, by simp [seqMove, htodo]⟩
      case rxOp => cases hq : s.rxq <;> exact ⟨_, by simp only [seqMove, htodo, hq]; rfl⟩
      all_goals exact absurd rfl hp

/-- Of all the moves only that of `SEQ` can stop the machine. -/
theorem Inv.applyMove_answers {s : State} (h : Inv s) (m : Move) : ∃ t, applyMove m s = .next t := by
  unfold applyMove
  by_cases hr : s.seq = .resetting
  · rw [if_pos hr]
    split <;> exact ⟨_, rfl⟩
  · rw [if_neg hr]
    cases m
    case seq => exact h.seqMove_answers
    all_goals exact ⟨_, rfl⟩

theorem Inv.advance_answers {s : State} (h : Inv s) : ∃ t, advance s = .next t := by
  unfold advance
  split
  · exact ⟨_, rfl⟩
  · split_ifs
    · exact ⟨_, rfl⟩
    · exact (invFor_todo.2 h).runCommand_answers

/-- Settles O50: a scheduled move, the run of a command fetched, and the rest of the path in hand all answer. -/
theorem invNeverStops : Obligations.InvNeverStops := by
  intro s hinv
  have hpath : InvFor s.todo s := invFor_todo.2 hinv
  rw [step, if_pos hinv.config]
  split
  · next m rest _ =>
    have hrest : Inv { s with sched := rest } :=
      invFor_todo.1 (runInvariant_invFor.surroundings hpath _ rest _ _ _ _ _ _)
    exact hrest.applyMove_answers m
  · split
    · next b hb =>
      rw [exec_eq_runCommand, fetchOp_cfg]
      exact (runInvariant_invFor.kept_fetchOp hpath hb).runCommand_answers
    · exact hinv.advance_answers

end Sys2Proof.Machine
end

section
/-! SUPPORT. The completion of each controller command (45_nvm_primitives.md R218), the reset that cuts one (R230), and the
primitives that fault (R229, R228, 10_state.md R25). -/

namespace Sys2Proof.Machine

/-! ### Completion -/

/-- `W` of R218 is the staged byte where the commit may leave it. -/
theorem flashWanted_staged {s : State} {r : Region} {a k : Nat} {v : Byte} (hst : Cells.get? s.nvmStage k = some v)
    (hw : s.cfg.flashWriteRequiresErased = false ∨ s.mem.read r a = s.cfg.erasedByte) :
    flashWanted s r a k = some v := by
  have htakes : (!s.cfg.flashWriteRequiresErased || s.mem.read r a == s.cfg.erasedByte) = true := by simpa using hw
  simp [flashWanted, hst, htakes]

/-- Settles O34: each clause is a byte that the command wants, read where its completion writes it. -/
theorem completionWritesTarget : Obligations.CompletionWritesTarget := by
  intro s t c hc hm hl hbusy hp hr ht
  obtain rfl : nvmComplete s = t := by simpa [applyMove, hl, hbusy] using ht
  have hwritten := nvmComplete_written hc hm hp hr
  refine ⟨?_, ?_, ?_, ?_, ?_, ?_, hwritten.outside, hwritten.idle, ?_⟩
  · rintro rfl a ha
    simpa [NvmCmd.target] using hwritten.read_replicate ha
  · rintro rfl a ha
    simpa [NvmCmd.target] using hwritten.read_replicate ha
  · rintro rfl a ha
    simpa [NvmCmd.target] using hwritten.read_replicate ha
  · rintro p rfl k v hk hst
    exact hwritten.read k v (by simp [NvmCmd.wanted, hk, hst])
  · rintro p rfl k v hk hst hw
    have hflash : flashWanted s .app (pageOffset s.cfg .app p + k) k = some v := flashWanted_staged hst hw
    exact hwritten.read k v (by simp [NvmCmd.wanted, hk, hflash])
  · rintro rfl k v hk hst hw
    simpa [NvmCmd.target] using hwritten.read k v (by simp [NvmCmd.wanted, hk, flashWanted_staged hst hw])
  · rw [nvmComplete_pending s c hp]
    exact ⟨rfl, rfl, rfl, rfl⟩

/-! ### A command cut by a reset -/

/-- Draws take the bytes of the tape in their order (00_scope.md R11). -/
theorem fillDraws_tape (bs rest : List Byte) {s : State} (h : s.tape = bs ++ rest) :
    (fillDraws (List.replicate bs.length none) s).1 = bs := by
  induction bs generalizing s with
  | nil => rfl
  | cons b bs ih =>
    have hdraw : draw s = (b, { s with tape := bs ++ rest }) := by simp [draw, h]
    simp only [List.length_cons, List.replicate_succ, fillDraws, hdraw]
    rw [ih rfl]

/-- The bytes that a reset leaves in the target of the command it cuts are so many draws (R230). -/
theorem applyReset_mem_draws {s : State} (cause : ResetCause) {c : NvmCmd} (h : s.nvmPending = some c) :
    (applyReset cause s).mem = s.mem.writeBytes (c.target s.cfg).1 (c.target s.cfg).2.1
      (fillDraws (List.replicate (c.target s.cfg).2.2 none) s).1 := by
  simp [applyReset, scramble, h, writeTarget]

/-- Settles O38: draws are written to the whole target, and they are the bytes of the tape. -/
theorem cutCommandDraws : Obligations.CutCommandDraws := by
  intro s cause c bs rest _ hm hp _
  have hcanonical := NvMem.canonical_of_wf hm
  refine ⟨fun r x hx => ?_, fun htape hlen => ?_⟩
  · rw [applyReset_mem_draws cause hp, NvMem.read_writeBytes _ _ _ _ _ _ hcanonical, length_fillDraws,
      List.length_replicate, if_neg hx]
  · rw [applyReset_mem_draws cause hp, ← hlen, fillDraws_tape bs rest htape]
    exact NvMem.readBytes_writeBytes _ _ _ _ hcanonical

/-! ### Faults -/

/-- The machine stops with the fault of the primitive that `SEQ` performs. -/
theorem applyMove_seq_fault {p : Prim} {ps : List Prim} {s : State} {f : Fault} (hl : s.seq ≠ .resetting)
    (ht : s.todo = p :: ps) (hp : p.ofSeq = true) (hf : perform p s = .fault f) : applyMove .seq s = .fault f := by
  rw [applyMove_seq_standing hl ht hp, hf]
  rfl

/-- A controller command while one is in flight (R229). -/
theorem tryIssue_of_busy {s : State} (c : NvmCmd) (h : s.nvmBusy = true) :
    tryIssue c s = .fault .nvmCommandWhileBusy := by
  simp [tryIssue, h]

/-- Settles O36: each primitive comes to its fault, and `SEQ` with it. -/
theorem violationsFault : Obligations.ViolationsFault := by
  refine ⟨fun s c ps hl ht hb => ?_, fun s k ps hl ht hb => ?_, fun s r v ps hl ht hg => ?_, fun s k ps hl ht hb => ?_⟩
  · exact applyMove_seq_fault hl ht rfl (tryIssue_of_busy c hb)
  · exact applyMove_seq_fault hl ht rfl (tryIssue_of_busy (k.command s.idx) hb)
  · exact applyMove_seq_fault hl ht rfl (by simp [perform, hg])
  · exact applyMove_seq_fault hl ht rfl (by simp [perform, bufAt, hb])

end Sys2Proof.Machine
end

section
/-! SUPPORT. The order of events in a page write (45_nvm_primitives.md R220, 20_memory.md R72, R73), and the two primitives of
the EEPROM that no command calls as they stand (R221, R222). -/

namespace Sys2Proof.Machine

/-! ### The page write -/

/-- Settles O29: the trace of an indexed write, which has no early status with the single acknowledgement. -/
theorem pageWriteOrder : Obligations.PageWriteOrder := by
  intro s idx p rest hs hmode hprotocol hq hidx hp
  have hd : s.cfg.halfDuplex = false := by simp [Config.halfDuplex, hprotocol]
  have hearly : earlyStatuses s.cfg .writePage = [] := if_neg (by simp [hmode])
  obtain ⟨t, ht, -⟩ := exec_indexedWrite .flash hs (fun _ _ => hd) hq hidx hp
  refine ⟨t, ht, ?_⟩
  rw [exec_indexedWrite_trace .flash hs hd hq hidx hp ht, hearly]
  simp [writeEvents, PageCommit.command]

/-! ### The primitives called directly -/

/-- The state with a staging area and the trace of its staging. -/
def State.withStage (s : State) (st : List Host.Cell) (tr : List Event) : State := { s with nvmStage := st, trace := tr }

theorem Silent.sameControl {s u : State} (h : Silent s u) : SameControl s u := by
  obtain ⟨_, _, _, _, _, _, _, _, _, _, _, _, _, _, rfl⟩ := h
  exact ⟨rfl, rfl, rfl, rfl, rfl, rfl, rfl, rfl, rfl, rfl, rfl, rfl⟩

theorem Silent.sent {s u : State} (h : Silent s u) : sent u = sent s := by
  obtain ⟨_, _, _, _, _, _, _, _, _, _, _, _, _, _, rfl⟩ := h
  rfl

/-- A controller command called directly, something or nothing being staged before it: it is completed, and nothing but the
storage and the control point differs. -/
theorem runCommand_called {s : State} {x : NvmCmd} {staging : List Prim} {st : List Host.Cell} {tr : List Event}
    (hs : StorageReady s) (hr : x.inRange s.cfg = true) (hstaging : Runs staging s (s.withStage st tr)) :
    ∃ t, runCommand (staging ++ [.waitReady, .issue x, .waitReady]) s = .next t ∧
      x.Written (x.wanted (s.withStage st tr)) s t ∧ t.buf = s.buf ∧ ControllerIdle t ∧ sent t = sent s ∧ t.rxq = s.rxq ∧
      SameOperands s t ∧ SameControl s t := by
  have hcommit := runs_commit (s.withStage st tr) x hs.idle hr
  obtain ⟨u, rfl, hwritten, hsilent, -, hrxq, hbuf, hops⟩ :=
    nvmComplete_nvmIssue (s := s.withStage st tr) hs.config hs.memory hr
  have hwritten : x.Written (x.wanted (s.withStage st tr)) s _ := hwritten.of_eq rfl rfl
  have hidle := hwritten.idle
  have hsent := hsilent.sent
  have hcontrol := hsilent.sameControl
  obtain ⟨l, todo, hhome⟩ := home_frame (nvmComplete (nvmIssue x (s.withStage st tr)))
  refine ⟨_, runCommand_of_runs (hstaging.append hcommit), ?_⟩
  rw [hhome]
  exact ⟨hwritten.of_sameStorage ⟨rfl, rfl, rfl, rfl, rfl⟩, hbuf, hidle, hsent, hrxq, hops, hcontrol⟩

/-- Bytes staged one by one: each of a list whose offsets rise stands at its offset. -/
theorem runs_stageBytes {staged : List Host.Cell} (hrising : Cells.rising staged = true) (s : State) :
    ∃ st tr, Runs (staged.map fun x => .stageByte x.1 x.2) s (s.withStage st tr) ∧
      (∀ x ∈ staged, Cells.get? st x.1 = some x.2) ∧
      ∀ k, (∀ x ∈ staged, x.1 ≠ k) → Cells.get? st k = Cells.get? s.nvmStage k := by
  induction staged generalizing s with
  | nil => exact ⟨s.nvmStage, s.trace, rfl, nofun, fun _ _ => rfl⟩
  | cons y staged ih =>
    obtain ⟨hfirst, hrest⟩ := List.pairwise_cons.1 (of_decide_eq_true hrising)
    obtain ⟨st, tr, hrun, hstaged, hother⟩ := ih (decide_eq_true hrest) (stageByte y.1 y.2 s)
    refine ⟨st, tr, ⟨_, rfl, hrun⟩, fun x hx => ?_, fun k hk => ?_⟩
    · obtain rfl | hx := List.mem_cons.1 hx
      · rw [hother x.1 fun z hz => (hfirst z hz).ne', stageByte_nvmStage, Cells.get?_set, if_pos rfl]
      · exact hstaged x hx
    · rw [hother k fun x hx => hk x (List.mem_cons_of_mem y hx), stageByte_nvmStage, Cells.get?_set,
        if_neg (hk y List.mem_cons_self).symm]

/-- Settles O32: the page wants each staged byte at its offset. -/
theorem partialEepromWrite : Obligations.PartialEepromWrite := by
  intro s p staged hs _ hp hrising hfits
  obtain ⟨st, tr, hstaging, hstaged, -⟩ := runs_stageBytes hrising s
  obtain ⟨t, ht, hwritten, hrest⟩ :=
    runCommand_called (x := .eepromAtomicWrite p) hs (decide_eq_true hp) hstaging
  refine ⟨t, ht, fun x hx => hwritten.read x.1 x.2 ?_, hwritten.outside, hrest⟩
  simp [NvmCmd.wanted, State.withStage, hfits x hx, hstaged x hx]

/-- Settles O33: with nothing to stage; the erase has the EEPROM as its target and wants 0xFF all over it. -/
theorem fullEepromErase : Obligations.FullEepromErase := by
  intro s hs
  obtain ⟨t, ht, hwritten, hrest⟩ := runCommand_called (x := .eepromEraseAll) (staging := [])
    (st := s.nvmStage) (tr := s.trace) hs rfl rfl
  refine ⟨t, ht, fun a ha => ?_, hwritten.outside, hrest⟩
  simpa [NvmCmd.target] using hwritten.read_replicate ha

end Sys2Proof.Machine
end

section
/-! SUPPORT. The order of events in a bracket (46_transceiver.md R241 to R247), for bytes in hand and for the commands whose
reply follows their opcode alone. -/

namespace Sys2Proof.Machine

/-- The return to the command loop changes neither the bytes sent nor the trace of a burst. -/
theorem runCommand_burst {ps : List Prim} {bytes : List Byte} {s u : State} (h : Runs ps s u)
    (hsent : sent u = sent s ++ bytes) (hburst : TracedBurst bytes s u) :
    ∃ t, runCommand ps s = .next t ∧ sent t = sent s ++ bytes ∧ TracedBurst bytes s t := by
  obtain ⟨l, x, hhome⟩ := home_frame u
  refine ⟨home u, runCommand_of_runs h, ?_⟩
  rw [hhome]
  exact ⟨hsent, hburst⟩

/-- The sources of a query are loaded before its reply begins. -/
theorem runs_querySources {s : State} {i : Instr} {q : Query} (h : queryOf s.cfg i = some q) :
    Runs (.goto q.label :: .fresh :: q.sources.map .fetch) s
      { s with seq := q.label, cnt := 0, data := q.sources.flatMap (sourceBytes s) } := by
  have hbytes : sourceBytes { s with seq := q.label, cnt := 0, data := [] } = sourceBytes s :=
    funext fun src => by cases src <;> rfl
  have hrange : sourceInRange { s with seq := q.label, cnt := 0, data := [] } = sourceInRange s :=
    funext fun src => by cases src <;> rfl
  have hload := runs_fetches q.sources { s with seq := q.label, cnt := 0, data := [] }
    (by rw [hrange]; exact queryOf_inRange h)
  rw [hbytes, List.nil_append] at hload
  exact ⟨_, drive_goto q.label s, _, drive_fresh _, hload⟩

/-- A query's answer is one burst of the trace. -/
theorem exec_query_burst {s : State} {i : Instr} {q : Query} (h : queryOf s.cfg i = some q) :
    ∃ t, exec i s = .next t ∧ sent t = sent s ++ q.reply s ∧ TracedBurst (q.reply s) s t := by
  obtain ⟨u, hu, ⟨hsent, -⟩, hburst, -⟩ := runs_replyData
    { s with seq := q.label, cnt := 0, data := q.sources.flatMap (sourceBytes s) } q.header rfl
  rw [exec_eq_runCommand, pathOf_query h]
  exact runCommand_burst ((runs_querySources h).append hu) hsent hburst

/-- In HALFDUPLEX every query sends a status before its data (30_encoding.md R105). -/
theorem queryOf_header_ne_nil {c : Config} {i : Instr} {q : Query} (h : queryOf c i = some q) (hd : c.halfDuplex = true) :
    q.header ≠ [] := by
  have hprotocol : c.protocol ≠ .legacy := fun hl => by simp [Config.halfDuplex, hl] at hd
  cases i <;> cases h
  case readFuses.refl => simp [hprotocol]
  all_goals exact List.cons_ne_nil _ _

/-- Settles O28: each path is one bracket, around the bytes in hand or after the sources of the reply are loaded. -/
theorem bracketOrder : Obligations.BracketOrder := by
  refine ⟨fun s bytes => ?_, fun s header hc => ?_, fun s i hi => ?_⟩
  · obtain ⟨u, hu, ⟨hsent, -⟩, hburst, -⟩ := runs_bracket s (bytes.map .txByte) bytes s.cnt fun d r tr =>
      runs_txBytes bytes { s with de := d, rxdis := r, trace := tr }
    exact runCommand_burst hu hsent hburst
  · obtain ⟨u, hu, ⟨hsent, -⟩, hburst, -⟩ := runs_replyData s header hc
    exact runCommand_burst hu hsent hburst
  · obtain ⟨q, hq⟩ : ∃ q, queryOf s.cfg i = some q := by
      simp only [List.mem_cons, List.not_mem_nil, or_false] at hi
      obtain rfl | rfl | rfl | rfl | rfl | rfl | rfl := hi <;> exact ⟨_, rfl⟩
    obtain ⟨t, ht, hsent, hburst⟩ := exec_query_burst hq
    exact ⟨t, q.reply s, ht, hsent, hburst, fun hd => List.append_ne_nil_of_left_ne_nil (queryOf_header_ne_nil hq hd) _⟩

end Sys2Proof.Machine
end

section
/-! SUPPORT. What the invariant says of the bus and of the storage barriers (46_transceiver.md R247, 20_memory.md R73,
10_state.md R30), and what becomes of a host byte (R250). -/

namespace Sys2Proof.Machine

/-! ### The bus and the barriers -/

/-- The controller ready and nothing waiting for a commit, as fields of the state. -/
theorem committed_of {s : State} (hr : (knownOf s).ready = true) (hc : (knownOf s).clean = true) :
    s.nvmBusy = false ∧ s.nvmStage = [] := by
  have hbusy : s.nvmBusy = false := by simpa [knownOf] using hr
  exact ⟨hbusy, by simpa [knownOf, hbusy] using hc⟩

/-- What holds between two commands, as fields of the state. -/
theorem idle_of {s : State} (h : (knownOf s).idle = true) :
    s.nvmBusy = false ∧ s.nvmStage = [] ∧ s.de = false ∧ s.rxdis = false := by
  simp only [Known.idle, Bool.and_eq_true] at h
  obtain ⟨⟨hlisten, hready⟩, hclean⟩ := h
  obtain ⟨hbusy, hstage⟩ := committed_of hready hclean
  exact ⟨hbusy, hstage, listening_of hlisten⟩

theorem Known.listening_of_idle {k : Known} (h : k.idle = true) : k.listening = true := by
  simp only [Known.idle, Bool.and_eq_true] at h
  obtain ⟨⟨hlisten, -⟩, -⟩ := h
  exact hlisten

/-- The primitive at the head of the path in hand has what it needs, and so has the rest after it. -/
theorem Inv.safe {p : Prim} {ps : List Prim} {s : State} (h : Inv s) (ht : s.todo = p :: ps) :
    p.safe s.cfg (knownOf s) = true ∧ pathSafe s.cfg (p.after (knownOf s)) ps = true :=
  InvFor.safe (ht ▸ invFor_todo.2 h)

/-- A byte is handed over in drive mode and with every commit done (R247(a), R73). -/
theorem Prim.sending_of_safe {c : Config} {k : Known} {p : Prim} (hp : (∃ b, p = .txByte b) ∨ p = .txData)
    (h : p.safe c k = true) : (c.halfDuplex = true → k.de = true) ∧ k.ready = true ∧ k.clean = true := by
  have hsafe : ((!c.halfDuplex || k.de) && k.ready && k.clean) = true := by
    obtain ⟨b, rfl⟩ | rfl := hp <;> exact h
  simp only [Bool.and_eq_true] at hsafe
  obtain ⟨⟨hdrive, hready⟩, hclean⟩ := hsafe
  exact ⟨fun hd => by simpa [hd] using hdrive, hready, hclean⟩

/-- A byte is waited for in listen mode (R247(b)). -/
theorem Prim.listening_of_safe {c : Config} {k : Known} {p : Prim}
    (hp : p = .rxOp ∨ p = .rxIdxHi ∨ p = .rxIdxLo ∨ (∃ n, p = .rxPayload n) ∨ p = .poll) (h : p.safe c k = true) :
    k.listening = true := by
  obtain rfl | rfl | rfl | ⟨n, rfl⟩ | rfl := hp
  · exact Known.listening_of_idle h
  · exact h
  · exact h
  · simp only [Prim.safe, Bool.and_eq_true] at h
    obtain ⟨⟨hlisten, -⟩, -⟩ := h
    exact hlisten
  · simp only [Prim.safe, Bool.and_eq_true] at h
    exact Known.listening_of_idle h.1

/-- Settles O54: the path in hand has what its first primitive needs, and at the top of the loop also what the second
does. -/
theorem busAndBarriers : Obligations.BusAndBarriers := by
  intro s hinv
  refine ⟨fun p ps ht hp => ?_, fun p ps ht hp => ?_, fun ⟨_, ht⟩ => ?_⟩
  · obtain ⟨hsafe, -⟩ := hinv.safe ht
    obtain ⟨hdrive, hready, hclean⟩ := Prim.sending_of_safe hp hsafe
    exact ⟨hdrive, committed_of hready hclean⟩
  · obtain ⟨hsafe, -⟩ := hinv.safe ht
    exact listening_of (Prim.listening_of_safe hp hsafe)
  · obtain ⟨-, hfetch⟩ := hinv.safe (p := .wdtPet) (ps := [.rxOp]) ht
    have hidle : (knownOf s).idle = true := by simpa [pathSafe, Prim.safe, Prim.after] using hfetch
    exact idle_of hidle

/-! ### The fate of a host byte -/

theorem applyMove_send {s : State} (b : Byte) (hl : s.seq ≠ .resetting) : applyMove (.send b) s = .next (hostSend b s) := by
  simp [applyMove, hl]

theorem hostSend_free {s : State} (b : Byte) (h : busBusy s = false) : hostSend b s = { s with rxq := s.rxq ++ [b] } := by
  simp [hostSend, h]

/-- What arrives of a byte sent on a busy bus, by the draw that chooses and the byte drawn in its place (log 17). -/
def busyArrival (b choice drawn : Byte) : List Byte :=
  if choice.toNat % 3 = 0 then [] else if choice.toNat % 3 = 1 then [b] else [drawn]

theorem length_busyArrival_le (b choice drawn : Byte) : (busyArrival b choice drawn).length ≤ 1 := by
  unfold busyArrival
  split_ifs <;> simp

theorem hostSend_busy {s : State} (b : Byte) (h : busBusy s = true) :
    (hostSend b s).rxq = s.rxq ++ busyArrival b (draw s).1 (draw (draw s).2).1 := by
  simp [hostSend, h, busyArrival]

/-- No more than one byte arrives, and every such arrival has its two draws. -/
theorem exists_busyArrival (b : Byte) {extra : List Byte} (h : extra.length ≤ 1) :
    ∃ choice drawn, busyArrival b choice drawn = extra := by
  match extra with
  | [] => exact ⟨0, 0, rfl⟩
  | [v] => exact ⟨2, v, rfl⟩

/-- A host that keeps its duty (b) sends on a free bus only (R262(b)). -/
theorem busBusy_of_dutyB {s : State} {b : Byte} {v : HostView} (hl : s.seq ≠ .resetting)
    (h : dutyB s v (.send b) = true) : busBusy s = false := by
  cases hd : s.cfg.halfDuplex with
  | false => simp [busBusy, hd]
  | true =>
    simp only [dutyB, sends, hl, if_false, Option.isNone_some, hd, Bool.not_true, Bool.or_self, Bool.false_or,
      Bool.and_eq_true, Bool.not_eq_true'] at h
    exact h.1

/-- Settles O56: on a free bus the byte arrives, and on a busy one as two bytes of the tape have it. -/
theorem hostByteFate : Obligations.HostByteFate := by
  intro s b hl
  have hfree : busBusy s = false → applyMove (.send b) s = .next { s with rxq := s.rxq ++ [b] } := fun h => by
    rw [applyMove_send b hl, hostSend_free b h]
  refine ⟨hfree, fun v hduty => hfree (busBusy_of_dutyB hl hduty), fun hbusy => ⟨fun t ht => ?_, fun extra hextra => ?_⟩⟩
  · obtain rfl : hostSend b s = t := Host.Outcome.next.inj ((applyMove_send b hl).symm.trans ht)
    exact ⟨_, length_busyArrival_le b _ _, hostSend_busy b hbusy⟩
  · obtain ⟨choice, drawn, rfl⟩ := exists_busyArrival b hextra
    exact ⟨[choice, drawn], _, applyMove_send b hl, hostSend_busy (s := { s with tape := [choice, drawn] }) b hbusy⟩

end Sys2Proof.Machine
end

section
/-! Resets (70_reset_and_hazards.md R320, R321) and the one exception (60_exceptions.md R289): which resets are enabled, what
a reset leaves, and what an index out of range comes to. -/

namespace Sys2Proof.Machine

/-- At `RESETTING` every move but the software reset is not enabled (log 15). -/
theorem applyMove_resetting {s : State} {m : Move} (hl : s.seq = .resetting) (hm : m ≠ .reset .software) :
    applyMove m s = .next s := by
  unfold applyMove
  rw [if_pos hl]
  split
  · exact absurd rfl hm
  · rfl

theorem applyMove_softwareReset {s : State} (hl : s.seq = .resetting) :
    applyMove (.reset .software) s = .next (applyReset .software s) := by
  simp [applyMove, hl]

/-- Elsewhere a reset takes place if the environment may raise it. -/
theorem applyMove_reset {s : State} (cause : ResetCause) (hl : s.seq ≠ .resetting) :
    applyMove (.reset cause) s = .next (if resetEnabled s cause then applyReset cause s else s) := by
  simp [applyMove, hl]

/-- With nothing scheduled the block at `RESETTING` resets. -/
theorem step_resetting {s : State} (hc : s.cfg.wf = true) (hl : s.seq = .resetting) (ht : s.todo = []) (hs : s.sched = []) :
    step s = .next (applyReset .software s) := by
  simp [step, hc, hs, fetchByte, advance, ht, hl]

/-- Settles O25: the moves at `RESETTING` and away from it, each cause by what enables it. -/
theorem softwareResetIsTheOnlyStep : Obligations.SoftwareResetIsTheOnlyStep :=
  ⟨fun _ _ => applyMove_resetting, fun _ => applyMove_softwareReset, fun _ => step_resetting, fun _ hl =>
    ⟨applyMove_reset .software hl, fun hw => by simp [applyMove_reset, hl, resetEnabled, hw],
      fun hw => by simp [applyMove_reset, hl, resetEnabled, hw], applyMove_reset .powerOn hl, applyMove_reset .external hl⟩⟩

/-- Settles O37: every field is that of `State.resetOf` or kept, and the memory is as it was where no command is cut. -/
theorem resetClearsState : Obligations.ResetClearsState := fun _ cause =>
  ⟨rfl, rfl, rfl, ⟨rfl, rfl, rfl⟩, rfl, rfl, rfl, rfl, rfl, rfl, rfl, rfl, rfl, rfl, rfl, applyReset_mem_of_none cause,
    fun _ => rfl⟩

/-- Settles O30: the check of the latched index turns the command to the reply `ST_FAIL`. -/
theorem rangeErrorReplies : Obligations.RangeErrorReplies := fun _ _ _ _ _ h hq hidx => exec_rangeError h hq hidx

end Sys2Proof.Machine
end

section
/-! The Device Entry Arbiter (70_reset_and_hazards.md R322 to R326): what it decides, the boot window, the jump sequence and
the terminal state. -/

namespace Sys2Proof.Machine

/-! ### Driving a primitive that is no loop -/

theorem drive_eq_perform {p : Prim} {s : State} (h : bound p (help p s) = 1) : drive p s = perform p (help p s) := by
  rw [drive_once p s h]
  split <;> simp_all

theorem drive_arbitrate (s : State) : drive .arbitrate s = arbitrate s := drive_eq_perform rfl

theorem drive_poll (s : State) : drive .poll s = pollStep s := drive_eq_perform rfl

/-! ### The jump sequence -/

/-- The four actions of the jump sequence (R326). -/
def jumpActions : List Prim := [.clearGie, .selectAppTable, .cleanExtAddr, .jumpToApp]

/-- In the terminal state, the four actions done. -/
def State.jumped (s : State) : State :=
  { s with
    seq := .app, todo := [], gie := false, ivsel := .appTable, extaddr := .clean
    trace := s.trace ++ [.jump s.cfg.appEntryAddr] }

theorem runPath_jumpToApp (s : State) : runPath jumpToApp s = .next s.jumped := by
  have hrun : Runs jumpToApp s { s.jumped with todo := s.todo } := ⟨_, rfl, _, rfl, _, rfl, _, rfl, _, rfl, rfl⟩
  exact runPath_of_runs hrun

/-- One of the actions is one move. -/
theorem applyMove_jump {p : Prim} {ps : List Prim} {s t : State} (hl : s.seq = .jump) (ht : s.todo = p :: ps)
    (hp : p.ofSeq = true) (h : (perform p s).standing p ps = .next t) : applyMove .seq s = .next t :=
  (applyMove_seq_standing (by simp [hl]) ht hp).trans h

/-- Settles O45: the effect of each action, with the rest of the path left to be done. -/
theorem jumpSequence : Obligations.JumpSequence := by
  intro s hl ht
  exact ⟨applyMove_jump hl ht rfl rfl, applyMove_jump hl rfl rfl rfl, applyMove_jump hl rfl rfl rfl,
    applyMove_jump hl rfl rfl rfl⟩

/-! ### Variant A -/

/-- The first step after a reset is the arbiter's. -/
theorem step_arbitrate {s : State} (hc : s.cfg.wf = true) (hs : s.sched = []) (ht : s.todo = [.arbitrate]) :
    step s = runCommand [.arbitrate] s :=
  step_path hc hs ht (by simp [fetchByte, ht]) (by simp [blocked, ht])

/-- Settles O40: the line asserted, the path turned to is empty and the loop begins; else it is the jump sequence. -/
theorem variantADecides : Obligations.VariantADecides := by
  intro s hc hs hv hl ht
  rw [step_arbitrate hc hs ht, runCommand, drive_arbitrate]
  refine ⟨fun hline => ?_, fun hline => ?_⟩
  · simp [arbitrate, hv, hline, runPath, home, hl]
  · simp only [arbitrate, hv, hline, leave, Bool.false_eq_true, if_false]
    exact runPath_jumpToApp _

/-! ### One poll of Variant B -/

theorem timerExpired_iff (s : State) : timerExpired s = true ↔ s.trun = true ∧ s.cfg.bootTimeoutTicks ≤ s.tcnt := by
  simp [timerExpired]

theorem timerExpired_of_lt {s : State} (h : s.tcnt < s.cfg.bootTimeoutTicks) : timerExpired s = false := by
  simp [timerExpired, h]

/-- The decision to stay taken, with the acknowledgement to be sent and the timer to be stopped (R324). -/
def State.staying (s : State) : State :=
  { rxPoll s with
    entry := .bootloader, seq := .arbAck, todo := bracket s.cfg [.txByte s.cfg.arbAckByte] ++ [.timerStop] }

/-- The decision to leave taken, with the jump sequence to be done (R324). -/
def State.leaving (s : State) : State := { s with entry := .application, seq := .jump, todo := jumpActions }

/-- The arbiter polls again, the byte dropped (R324). -/
def State.dropping (s : State) : State := { rxPoll s with todo := [.poll] }

theorem settle_acknowledge (c : Config) (s : State) :
    settle (acknowledge c) s =
      { s with seq := .arbAck, todo := bracket c [.txByte c.arbAckByte] ++ [.timerStop] } := by
  cases hd : c.halfDuplex <;> simp [acknowledge, bracket, txBegin, hd, settle]

theorem standing_stay (s : State) (ps : List Prim) : (stay (rxPoll s)).standing .poll ps = .next s.staying :=
  congrArg Host.Outcome.next (settle_acknowledge _ _)

theorem standing_leave (s : State) (ps : List Prim) : (leave s).standing .poll ps = .next s.leaving := rfl

/-- The byte is taken; the no-op byte decides to stay (P1, P2 of R324). -/
theorem standing_pollByte (b : Byte) (s : State) :
    (pollByte b s).standing .poll [] = .next (if b = s.cfg.nopByte then s.staying else s.dropping) := by
  unfold pollByte
  split_ifs
  · exact standing_stay s []
  · rfl

theorem pollStep_waits {s : State} (hq : s.rxq = []) (ht : timerExpired s = false) : pollStep s = .wait s := by
  simp [pollStep, hq, ht]

theorem pollStep_expired {s : State} (hq : s.rxq = []) (ht : timerExpired s = true) : pollStep s = leave s := by
  simp [pollStep, hq, ht]

theorem pollStep_takes {s : State} {b : Byte} {rest : List Byte} (hq : s.rxq = b :: rest) (ht : timerExpired s = false) :
    pollStep s = pollByte b s := by
  simp [pollStep, hq, ht]

/-- A byte waiting and the timer expired: the draw decides which is seen first (R325). -/
theorem pollStep_races {s : State} {b : Byte} {rest : List Byte} (hq : s.rxq = b :: rest) (ht : timerExpired s = true) :
    pollStep s = if (draw s).1 = 0 then pollByte b (draw s).2 else leave (draw s).2 := by
  simp [pollStep, hq, ht]

theorem applyMove_poll {s : State} (hl : s.seq = .arbPoll) (ht : s.todo = [.poll]) :
    applyMove .seq s = (pollStep s).standing .poll [] :=
  applyMove_seq_standing (by simp [hl]) ht rfl

/-- Settles O41: the start of the timer, and the poll in its four cases. -/
theorem variantBPolls : Obligations.VariantBPolls := by
  intro s hv
  refine ⟨fun hl ht => ?_, fun hl ht hrun => ?_⟩
  · rw [applyMove_seq_standing (by simp [hl]) ht rfl]
    simp only [perform, arbitrate, hv]
    rfl
  · rw [applyMove_poll hl ht]
    refine ⟨fun hq hlt => ?_, fun b rest hq hlt hb => ?_, fun rest hq hlt => ?_, fun hq hle => ?_⟩
    · rw [pollStep_waits hq (timerExpired_of_lt hlt), Effect.standing, ← ht]
    · rw [pollStep_takes hq (timerExpired_of_lt hlt), standing_pollByte, if_neg hb, State.dropping, ← ht]
      simp [rxPoll, hq]
    · rw [pollStep_takes hq (timerExpired_of_lt hlt), standing_pollByte, if_pos rfl]
      exact ⟨_, rfl, rfl, rfl, by simp [State.staying, hq], by simp [State.staying, hq], hrun, rfl⟩
    · rw [pollStep_expired hq ((timerExpired_iff s).2 ⟨hrun, hle⟩), standing_leave]
      exact ⟨_, rfl, rfl, rfl, hrun, rfl, rfl⟩

/-- A poll with a byte waiting and the timer expired, by the draw it makes (R325). -/
theorem applyMove_race {s : State} {b : Byte} {rest : List Byte} (hl : s.seq = .arbPoll) (ht : s.todo = [.poll])
    (hq : s.rxq = b :: rest) (hexp : timerExpired s = true) :
    applyMove .seq s = .next (if (draw s).1 = 0 then
      if b = s.cfg.nopByte then (draw s).2.staying else (draw s).2.dropping else (draw s).2.leaving) := by
  have hcfg : (draw s).2.cfg = s.cfg := by rw [draw_frame]; rfl
  rw [applyMove_poll hl ht, pollStep_races hq hexp]
  by_cases hdraw : (draw s).1 = 0
  · rw [if_pos hdraw, if_pos hdraw, standing_pollByte, hcfg]
  · rw [if_neg hdraw, if_neg hdraw, standing_leave]

/-- Settles O43: the draw that a poll makes has either value on some tape, and no third outcome. -/
theorem raceAdmitsBoth : Obligations.RaceAdmitsBoth := by
  intro s b rest hl ht hrun hq hle
  have hexp : timerExpired s = true := (timerExpired_iff s).2 ⟨hrun, hle⟩
  have hrace := applyMove_race hl ht hq hexp
  have htaken := applyMove_race (s := { s with tape := [0] }) hl ht hq hexp
  have hleft := applyMove_race (s := { s with tape := [1] }) hl ht hq hexp
  refine ⟨fun hb => ⟨[0], _, htaken, ?_⟩, fun hb => ⟨[0], _, htaken, ?_⟩, ⟨[1], _, hleft, rfl, rfl, rfl⟩, _, hrace, ?_⟩
  · simp [draw, hb, State.staying, hq]
  · simp [draw, hb, State.dropping, hq, hl]
  · rw [draw_frame]
    split_ifs with hdraw hb
    · exact .inr (.inl ⟨hb, rfl, rfl, by simp [State.staying, hq]⟩)
    · exact .inr (.inr ⟨hb, rfl, hl, rfl, by simp [State.dropping, hq]⟩)
    · exact .inl ⟨rfl, rfl, rfl⟩

/-! ### The acknowledgement -/

/-- The acknowledgement is a burst in its bracket, and then the timer stops (R324). -/
theorem runs_acknowledgement (s : State) :
    ∃ u, Runs (bracket s.cfg [.txByte s.cfg.arbAckByte] ++ [.timerStop]) s (timerStop u) ∧
      Replied s.rxq [s.cfg.arbAckByte] s u ∧ OnlyWire s u ∧ u.seq = s.seq ∧ u.cnt = s.cnt := by
  obtain ⟨u, hu, hreplied, -, hwire, hseq, hcnt⟩ := runs_bracket s [.txByte s.cfg.arbAckByte] [s.cfg.arbAckByte] s.cnt
    fun d r tr => ⟨_, drive_txByte _ _, rfl⟩
  exact ⟨u, hu.append (Runs.single rfl), hreplied, hwire, hseq, hcnt⟩

/-- A run of the acknowledgement ends at the top of the loop, the timer stopped and its count as it was. -/
theorem finishes_acknowledgement {s : State} (hl : s.seq = .arbAck) :
    ∃ t, Finishes (bracket s.cfg [.txByte s.cfg.arbAckByte] ++ [.timerStop]) s t ∧ AtLoop t ∧
      Replied s.rxq [s.cfg.arbAckByte] s t ∧ SameStorage s t ∧ SameOperands s t ∧
      SameControl { s with trun := false } t := by
  obtain ⟨u, hu, hreplied, hwire, hseq, hcnt⟩ := runs_acknowledgement s
  obtain ⟨hstorage, hcontrol, hidx, hhi, hdata, -⟩ := hwire.same
  obtain ⟨hcfg, hop, hentry, htcnt, -, hrest⟩ := hcontrol
  have hhome : home (timerStop u) = { timerStop u with seq := .fetch, todo := loopTop } := by simp [home, hseq, hl]
  refine ⟨_, ⟨_, hu, rfl⟩, ?_⟩
  rw [hhome]
  exact ⟨⟨rfl, rfl⟩, hreplied, hstorage, ⟨hidx, hhi, hcnt, hdata⟩, hcfg, hop, hentry, htcnt, rfl, hrest⟩

/-- Settles O42: the poll turns to the acknowledgement, and the run goes on along it. -/
theorem variantBAcknowledges : Obligations.VariantBAcknowledges := by
  intro s rest hc hs hl ht hq hlt
  let stayed : State := { rxPoll s with entry := .bootloader, seq := .arbAck }
  obtain ⟨t, hack, hloop, hreplied, hstorage, hops, hcfg, hop, hentry, htcnt, htrun, hgie, hivsel, hextaddr, -⟩ :=
    finishes_acknowledgement (s := stayed) rfl
  have hpoll : drive .poll s = stay (rxPoll s) := by
    rw [drive_poll, pollStep_takes hq (timerExpired_of_lt hlt), pollByte, if_pos rfl]
  have hstep : step s = .next t := by
    rw [step_path hc hs ht (by simp [fetchByte, ht]) (by simp [blocked, ht, hq]), runCommand, hpoll]
    exact hack.runPath
  have hrest : stayed.rxq = rest := by simp [stayed, hq]
  exact ⟨t, hstep, hloop, hentry, hrest ▸ hreplied, htrun, htcnt, hstorage, hops, hcfg, hop, hgie, hivsel, hextaddr⟩

/-! ### The boot window -/

/-- With no byte arriving the timer ticks until it has expired, and the block jumps in the step after that (R325). -/
theorem runSteps_bootWindow (d : Nat) {s : State} (hc : s.cfg.wf = true) (hs : s.sched = []) (ht : s.todo = [.poll])
    (hrun : s.trun = true) (hq : s.rxq = []) (hx : s.txq = []) (hb : s.nvmBusy = false)
    (hd : s.cfg.bootTimeoutTicks - s.tcnt = d) :
    runSteps (d + 1) s = .next ({ s with entry := .application, tcnt := s.tcnt + d } : State).jumped := by
  have hfetch : fetchByte s = none := by simp [fetchByte, ht]
  induction d generalizing s with
  | zero =>
    have hexp : timerExpired s = true := (timerExpired_iff s).2 ⟨hrun, by omega⟩
    have hstep : step s = .next ({ s with entry := .application } : State).jumped := by
      rw [step_path hc hs ht hfetch (by simp [blocked, ht, hexp]), runCommand, drive_poll, pollStep_expired hq hexp]
      exact runPath_jumpToApp _
    simp [runSteps, hstep]
  | succ d ih =>
    have hwaits : timerExpired s = false := timerExpired_of_lt (by omega)
    have hstep : step s = .next { s with tcnt := s.tcnt + 1 } := by
      rw [step_blocked hc hs ht hfetch (by simp [blocked, ht, hq, hwaits])]
      simp [othersMove, hb, hx, timerTick, hrun]
    have hrest := ih (s := { s with tcnt := s.tcnt + 1 }) hc hs ht hrun hq hx hb (by simp; omega) hfetch
    rw [runSteps, hstep]
    simpa [Nat.add_assoc, Nat.add_comm 1] using hrest

/-- Settles O44: the ticks that are left, and the jump. -/
theorem bootWindowEnds : Obligations.BootWindowEnds := by
  intro s hc hs _ ht hrun hq hx hb
  exact ⟨_, runSteps_bootWindow _ hc hs ht hrun hq hx hb rfl, rfl, rfl, rfl, hx, rfl, by simp [State.jumped]; omega, hrun, rfl⟩

/-! ### The terminal state -/

/-- The block has jumped and is as it was in `s`, the environment, the receive path and the draws apart. -/
structure Terminal (s t : State) : Prop where
  label : t.seq = .app
  idle : t.nvmBusy = false
  storage : t.mem = s.mem ∧ t.buf = s.buf
  lines : t.de = false ∧ t.rxdis = false
  sent : sent t = sent s
  control : t.entry = s.entry ∧ t.gie = s.gie ∧ t.ivsel = s.ivsel ∧ t.extaddr = s.extaddr

/-- With nothing left to be done, no move of an agent but a reset takes the block out of it. -/
theorem pathInvariant_terminal (s₀ : State) : PathInvariant fun ps u => ps = [] ∧ Terminal s₀ u where
  surroundings := fun ⟨hps, h⟩ _ _ _ _ _ _ _ _ => ⟨hps, h.label, h.idle, h.storage, h.lines, h.sent, h.control⟩
  perform := fun ⟨hps, _⟩ => absurd hps (List.cons_ne_nil _ _)
  home {s} := fun ⟨_, h⟩ => by
    rw [home, if_pos (.inl h.label)]
    exact ⟨rfl, h.label, h.idle, h.storage, h.lines, h.sent, h.control⟩
  fetch := fun ⟨hps, _⟩ => absurd hps (List.cons_ne_nil _ _)
  utx {_ s} := fun ⟨hps, h⟩ => by
    have hsent : sent (utxMove s) = sent s := by cases hx : s.txq <;> simp [utxMove, sent, hx]
    obtain ⟨bs, heq⟩ := utxMove_frame s
    refine ⟨hps, ?_⟩
    rw [heq] at hsent ⊢
    exact ⟨h.label, h.idle, h.storage, h.lines, hsent.trans h.sent, h.control⟩

/-- Settles O46: with an empty path the invariant says that the controller is idle and the block listens, and every move but a
reset keeps it there. -/
theorem appIsTerminal : Obligations.AppIsTerminal := by
  intro s t m hinv hl ht hm hstep
  obtain ⟨hidle, -, hlines⟩ := idle_of (show (knownOf s).idle = true by simpa [ht, pathSafe] using hinv.path)
  have hs : Terminal s s := ⟨hl, hidle, ⟨rfl, rfl⟩, hlines, rfl, rfl, rfl, rfl, rfl⟩
  obtain ⟨htodo, h⟩ | ⟨cause, hreset, -⟩ := (pathInvariant_terminal s).kept_applyMove ⟨ht, hs⟩
    (fun _ hbusy => by simp [hidle] at hbusy) hstep
  · obtain ⟨hlabel, -, ⟨hmem, hbuf⟩, ⟨hde, hrxdis⟩, hsent, hentry, hrest⟩ := h
    exact ⟨hlabel, htodo, hentry, hmem, hde, hrxdis, hsent, hbuf, hrest⟩
  · exact absurd hreset (hm cause)

end Sys2Proof.Machine
end

section
/-! A payload cut short (60_exceptions.md R299(b), 30_encoding.md R118): what is received is kept, the command waits, and the
bytes that arrive later complete it as if all had been there at once. -/

namespace Sys2Proof.Machine

/-! ### A payload in two parts -/

/-- A payload that is there from `cnt` on is read to its end, and logged. -/
theorem drive_rxPayload {s : State} {n : Nat} {p rest : List Byte} (hq : s.rxq = p ++ rest) (hn : s.cnt + p.length = n)
    (hb : n ≤ s.buf.length) :
    drive (.rxPayload n) s = .done
      { s with
        rxq := rest, cnt := n, trace := s.trace ++ p.map .rx
        buf := s.buf.take s.cnt ++ p.map some ++ s.buf.drop n } := by
  obtain ⟨tr, h⟩ := iterate_rxPayload n p rest (n + 1) s hq hn hb (by omega)
  have hdrive : drive (.rxPayload n) s = .done _ := h
  have htrace : tr = s.trace ++ p.map .rx := (Runs.single hdrive).trace_of_rxq rfl hq rfl
  rw [hdrive, htrace]

/-- With bytes missing those there are taken, and it waits. -/
theorem drive_rxPayload_short {s : State} {n : Nat} {p : List Byte} (hq : s.rxq = p) (hn : s.cnt + p.length < n)
    (hb : n ≤ s.buf.length) :
    drive (.rxPayload n) s = .wait
      { s with
        rxq := [], cnt := s.cnt + p.length, trace := s.trace ++ p.map .rx
        buf := s.buf.take s.cnt ++ p.map some ++ s.buf.drop (s.cnt + p.length) } :=
  iterate_rxPayload_short n p (n + 1) s hq hn hb (by omega)

/-- Inside a page write, the part `p` of its payload received and nothing more, `path` still to be done. -/
def State.holding (s : State) (p : List Byte) (path : List Prim) : State :=
  { s with
    seq := .payload, data := [], cnt := p.length, rxq := [], trace := s.trace ++ p.map .rx
    buf := p.map some ++ s.buf.drop p.length, todo := path }

/-- The start of a page write, its label and its counter set. -/
theorem runs_payloadStart (s : State) : Runs [.fresh, .goto .payload] s (s.awaitingPayload s.todo) :=
  ⟨_, drive_fresh s, _, drive_goto .payload _, rfl⟩

/-- With bytes of its payload missing a page write takes those there and waits. -/
theorem runCommand_writePath_short {s : State} {n : Nat} {p : List Byte} (q : Prim) (hq : s.rxq = p) (hn : p.length < n)
    (hb : n ≤ s.buf.length) :
    runCommand (writePath s.cfg n q) s = .next (s.holding p (payloadPath s.cfg n q)) := by
  have hwait : drive (.rxPayload n) (s.awaitingPayload s.todo) = .wait (s.holding p s.todo) := by
    have h := drive_rxPayload_short (s := s.awaitingPayload s.todo) hq (by simpa [State.awaitingPayload]) hb
    simpa [State.awaitingPayload, State.holding] using h
  rw [writePath_eq, runCommand_append (runs_payloadStart s), payloadPath, runCommand, hwait]
  rfl

theorem runCommand_congr {p : Prim} (ps : List Prim) {s t : State} (h : drive p s = drive p t) :
    runCommand (p :: ps) s = runCommand (p :: ps) t := by
  rw [runCommand, runCommand, h]

/-- The rest of the payload received, the page write goes on as if it had been received at once. -/
theorem step_holding {s : State} {n : Nat} {part more : List Byte} (q : Prim) (rest : List Byte) (hc : s.cfg.wf = true)
    (hs : s.sched = []) (hpart : part.length < n) (hn : part.length + more.length = n) (hb : n ≤ s.buf.length) :
    step { s.holding part (payloadPath s.cfg n q) with rxq := more ++ rest } =
      runCommand (writePath s.cfg n q) { s with rxq := part ++ more ++ rest, todo := payloadPath s.cfg n q } := by
  have hmore : more ≠ [] := List.ne_nil_of_length_pos (by omega)
  have hpath := step_path (s := { s.holding part (payloadPath s.cfg n q) with rxq := more ++ rest }) hc hs rfl rfl
    (by simp [blocked, State.holding, payloadPath, hmore])
  have hsecond := drive_rxPayload (s := { s.holding part (payloadPath s.cfg n q) with rxq := more ++ rest }) rfl hn
    (by simp [State.holding]; omega)
  have hwhole := drive_rxPayload (p := part ++ more) (rest := rest)
    (s := State.awaitingPayload { s with rxq := part ++ more ++ rest } (payloadPath s.cfg n q)) rfl
    (by simpa [State.awaitingPayload] using hn) hb
  have hdrop : (part.map some ++ s.buf.drop part.length).drop n = s.buf.drop n := by
    rw [← hn, ← List.drop_drop, List.drop_left' (by simp), List.drop_drop]
  rw [writePath_eq, runCommand_append (runs_payloadStart _)]
  refine hpath.trans (runCommand_congr _ (hsecond.trans (Eq.trans ?_ hwhole.symm)))
  simp [State.holding, State.awaitingPayload, hdrop]

/-! ### The early acknowledgement -/

theorem Runs.unique {ps : List Prim} {s t t' : State} (h : Runs ps s t) (h' : Runs ps s t') : t = t' := by
  induction ps generalizing s with
  | nil => exact h.trans h'.symm
  | cons p ps ih =>
    obtain ⟨u, hu, hrest⟩ := h
    obtain ⟨u', hu', hrest'⟩ := h'
    obtain rfl := Effect.done.inj (hu.symm.trans hu')
    exact ih hrest hrest'

/-- Between `s` and `t` the bytes are queued and nothing else of the wire differs. -/
def Queued (bytes : List Byte) (s t : State) : Prop :=
  t.txq = s.txq ++ bytes ∧ t.wireOut = s.wireOut ∧ t.de = s.de ∧ t.rxdis = s.rxdis

/-- In LEGACY a reply is queued (46_transceiver.md R246). -/
theorem Replied.queued {rest bytes : List Byte} {s t : State} (h : Replied rest bytes s t)
    (hd : s.cfg.halfDuplex = false) : Queued bytes s t := by
  obtain ⟨hsent, -, hlegacy⟩ := h
  obtain ⟨hwire, hde, hrxdis, -⟩ := hlegacy hd
  rw [sent, sent, hwire, List.append_assoc] at hsent
  exact ⟨List.append_cancel_left hsent, hwire, hde, hrxdis⟩

theorem Runs.earlyPath_queued {s u : State} {i : Instr} (hu : Runs (earlyPath s.cfg i) s u)
    (h : i = .writePage → s.cfg.ackMode = .earlyAndFinal → s.cfg.halfDuplex = false) :
    Queued (earlyStatuses s.cfg i) s u := by
  unfold earlyPath at hu
  unfold earlyStatuses
  split_ifs at hu ⊢ with hearly
  · obtain ⟨u', hu', hreplied, -⟩ := runs_replyStatus s s.cfg.stOk
    obtain rfl := hu.unique hu'
    exact hreplied.queued (h hearly.1 hearly.2)
  · obtain rfl : u = s := hu
    exact ⟨(List.append_nil _).symm, rfl, rfl, rfl⟩

/-! ### A write command up to its payload -/

/-- From `s` the write command `i` comes in `u` to the payload of the controller command `x`, which the primitive `q` issues;
it has queued `acks` and left the storage alone. -/
structure ReachesPayload (i : Instr) (x : NvmCmd) (q : Prim) (acks : List Byte) (s u : State) : Prop where
  path : ∃ ps, pathOf s.cfg i = ps ++ writePath s.cfg (x.target s.cfg).2.2 q ∧ Runs ps s u
  commits : x.commits = true
  inRange : x.inRange s.cfg = true
  issues : ∀ v : State, v.cfg = u.cfg → v.idx = u.idx → v.nvmBusy = false →
    Runs [.waitReady, q, .waitReady] v (nvmComplete (nvmIssue x v))
  storage : SameStorage s u
  control : SameControl s u
  queued : Queued acks s u
  answered : ∀ t rest bytes, Answered rest bytes u t → Answered rest (acks ++ bytes) s t

/-- WRITE_USERSIG begins with its payload (R172). -/
theorem reachesPayload_writeUsersig (s : State) :
    ReachesPayload .writeUsersig .writeUsersigRow (.issue .writeUsersigRow) [] s s where
  path := ⟨[], by simp [pathOf, writeUsersigPath, userSigWrite, writePath, NvmCmd.target], rfl⟩
  commits := rfl
  inRange := rfl
  issues v _ _ hb := runs_commit v _ hb rfl
  storage := ⟨rfl, rfl, rfl, rfl, rfl⟩
  control := ⟨rfl, rfl, rfl, rfl, rfl, rfl, rfl, rfl, rfl, rfl, rfl, rfl⟩
  queued := ⟨(List.append_nil _).symm, rfl, rfl, rfl⟩
  answered _ _ _ h := h

/-- WRITE_PAGE and WRITE_EEPROM come to it with a valid index read and the early acknowledgement, if there is one, queued
(R115, R141, R161). -/
theorem reachesPayload_indexed {s : State} {i : Instr} {r : Region} {kind : PageCommit} {idx : Half} {part : List Byte}
    (h : IndexedWrite i r kind) (hearly : i = .writePage → s.cfg.ackMode = .earlyAndFinal → s.cfg.halfDuplex = false)
    (hq : s.rxq = be16 idx ++ part) (hidx : idx.toNat < s.cfg.pageCount r) :
    ∃ u, ReachesPayload i (kind.command idx) (.issuePage kind) (earlyStatuses s.cfg i) s u ∧ u.rxq = part ∧ u.idx = idx := by
  obtain ⟨hx, htarget, hr⟩ := h.command s.cfg idx
  have hr : (kind.command idx).inRange s.cfg = true := hr.trans (decide_eq_true hidx)
  obtain ⟨hi, tr, hread⟩ := runs_checkedIndex hq hidx
  obtain ⟨u, hu, hwire, hrxq, hprepend⟩ := runs_earlyPath (s.withIndex idx hi part tr) i hearly
  obtain ⟨hstorage, hcontrol, hu_idx, -⟩ := hwire.same
  have hu_idx : u.idx = idx := hu_idx
  refine ⟨u, ⟨⟨_, ?_, hread.append hu⟩, hx, hr, fun v hv hvi hb => ?_, hstorage, hcontrol, hu.earlyPath_queued hearly,
    fun t rest bytes ha => (silent_withIndex s idx hi part tr).answered (hprepend t rest bytes ha)⟩, hrxq, hu_idx⟩
  · rw [htarget, pathOf_indexedWrite s.cfg h, List.append_assoc]
    rfl
  · have hcommand : kind.command v.idx = kind.command idx := by rw [hvi, hu_idx]
    rw [← hcommand]
    exact runs_commitPage v kind hb (by rw [hcommand, hv, hcontrol.cfg]; exact hr)

/-- With its payload cut short the command waits in it. -/
theorem ReachesPayload.exec_waits {i : Instr} {x : NvmCmd} {q : Prim} {acks part : List Byte} {s u : State}
    (h : ReachesPayload i x q acks s u) (hs : StorageReady s) (hq : u.rxq = part)
    (hpart : part.length < (x.target s.cfg).2.2) :
    exec i s = .next (u.holding part (payloadPath u.cfg (x.target s.cfg).2.2 q)) := by
  obtain ⟨ps, hpath, hrun⟩ := h.path
  have hbuf : u.buf = s.buf := h.storage.2.1
  have hwait := runCommand_writePath_short q hq hpart (hbuf ▸ NvmCmd.target_le_buf hs h.commits)
  rw [exec_eq_runCommand, hpath, runCommand_append hrun, ← h.control.cfg]
  rw [h.control.cfg] at hwait ⊢
  exact hwait

/-- The rest of the payload completes it. -/
theorem ReachesPayload.step_completes {i : Instr} {x : NvmCmd} {q : Prim} {acks part more : List Byte} {s u : State}
    (h : ReachesPayload i x q acks s u) (hs : StorageReady s) (hsched : s.sched = []) (rest : List Byte)
    (hpart : part.length < (x.target s.cfg).2.2) (hn : part.length + more.length = (x.target s.cfg).2.2) :
    ∃ t, step { u.holding part (payloadPath u.cfg (x.target s.cfg).2.2 q) with rxq := more ++ rest } = .next t ∧
      Answered rest (acks ++ [s.cfg.stOk]) s t ∧ x.Written (x.page (part ++ more) s) s t := by
  have hcfg : u.cfg = s.cfg := h.control.cfg
  obtain ⟨hmem, hbuf, hbusy, -⟩ := h.storage
  have hready : StorageReady u := h.storage.storageReady hs hcfg
  have hlen : (x.target u.cfg).2.2 = (part ++ more).length := by rw [hcfg, List.length_append, hn]
  obtain ⟨t, ht, hanswered, hwritten, -⟩ := finishes_write (x := x) (q := q) (p := part ++ more) (rest := rest)
    (s := { u with rxq := part ++ more ++ rest, todo := payloadPath u.cfg (x.target s.cfg).2.2 q })
    ⟨hready.config, hready.memory, hready.buffer, hready.idle⟩ h.commits (hcfg ▸ h.inRange) hlen rfl
    fun st tr => h.issues _ rfl rfl hready.idle
  have hstep := step_holding (s := u) (more := more) q rest hready.config (h.control.sched.trans hsched) hpart hn
    (hbuf ▸ NvmCmd.target_le_buf hs h.commits)
  rw [← hlen, hcfg] at ht
  rw [hcfg] at hstep ⊢
  refine ⟨t, hstep.trans ?_, h.answered t rest _ (hcfg ▸ hanswered), hwritten.page_of_eq hcfg hmem⟩
  exact ht.runCommand

/-- The target of a page write holds its payload wherever the commit takes a byte. -/
theorem NvmCmd.Written.page_read {x : NvmCmd} {r : Region} {a n : Nat} {p : List Byte} {s t : State}
    (h : x.Written (x.page p s) s t) (htarget : x.target s.cfg = (r, a, n)) (k : Nat) (hk : k < p.length)
    (htakes : r = .ee ∨ s.cfg.flashWriteRequiresErased = false ∨ s.mem.read r (a + k) = s.cfg.erasedByte) :
    t.mem.read r (a + k) = p[k] := by
  have hread := h.read k _ (NvmCmd.page_getElem hk (by simpa [NvmCmd.takes, htarget] using htakes))
  rwa [htarget] at hread

/-- Settles O15: each of the three commands comes to its payload, waits in it, and is completed by the rest. -/
theorem shortPayloadWaits : Obligations.ShortPayloadWaits := by
  intro s i r p idx head part more rest hs hsched hp hcase hq hpart hn acks
  obtain ⟨x, q, u, hu, hrxq, hidx, htarget⟩ : ∃ x q u, ReachesPayload i x q acks s u ∧ u.rxq = part ∧ u.idx = idx ∧
      x.target s.cfg = (r, pageOffset s.cfg r p, s.cfg.page r) := by
    obtain ⟨rfl, rfl, rfl, rfl, hlegacy⟩ | ⟨rfl, rfl, rfl, rfl⟩ | ⟨rfl, rfl, rfl, rfl, rfl⟩ := hcase
    · obtain ⟨u, hu, hrest⟩ := reachesPayload_indexed .flash
        (fun _ hmode => by simp [Config.halfDuplex, hlegacy hmode]) hq hp
      exact ⟨_, _, u, hu, hrest.1, hrest.2, rfl⟩
    · obtain ⟨u, hu, hrest⟩ := reachesPayload_indexed .eeprom (fun hi => nomatch hi) hq hp
      exact ⟨_, _, u, hu, hrest.1, hrest.2, rfl⟩
    · exact ⟨_, _, s, reachesPayload_writeUsersig s, hq, rfl, by simp [NvmCmd.target, pageOffset]⟩
  have hsize : (x.target s.cfg).2.2 = s.cfg.page r := by rw [htarget]
  obtain ⟨hmem, hbuf, hbusy, -, hstage⟩ := hu.storage
  obtain ⟨htxq, hwire, hde, hrxdis⟩ := hu.queued
  obtain ⟨v, hv, hanswered, hwritten⟩ := hu.step_completes hs hsched rest (hsize ▸ hpart) (hn.trans hsize.symm)
  have houtside := hwritten.outside
  rw [htarget] at houtside
  refine ⟨_, hu.exec_waits hs hrxq (hsize ▸ hpart), rfl, rfl, rfl, hidx, ?_, hmem, hstage, hbusy.trans hs.idle, htxq, hwire, hde,
    hrxdis, hu.control, v, hv, hanswered, hwritten.page_read htarget, houtside⟩
  rw [← hbuf]
  rfl

end Sys2Proof.Machine
end

section
/-! The host (47_host_environment.md R260 to R264): one exchange of a frame and its status, and the update of R261 that is made
of exchanges. -/

namespace Sys2Proof.Machine

/-! ### A status seen -/

theorem SameStorage.trans {s t u : State} (h : SameStorage s t) (h' : SameStorage t u) : SameStorage s u := by
  obtain ⟨hm, hb, hbusy, hp, hst⟩ := h
  obtain ⟨hm', hb', hbusy', hp', hst'⟩ := h'
  exact ⟨hm'.trans hm, hb'.trans hb, hbusy'.trans hbusy, hp'.trans hp, hst'.trans hst⟩

/-- From `s`, in which nothing is queued or unseen, the block has answered the one byte `b`; in `t` it is at the top of the
loop, with nothing left to be read if no echo is. -/
structure AnswersOnce (b : Byte) (s t : State) : Prop extends StorageReady t where
  loop : AtLoop t
  replied : Replied [] [b] s t
  cfg : t.cfg = s.cfg
  unscheduled : t.sched = []
  interrupts : t.gie = false
  drained : s.txq = []
  listening : s.de = false ∧ s.rxdis = false
  seen : t.hostRead = s.wireOut.length

/-- From `t`, in which `s` has answered `b`, the host has seen `b`, and in `u` the block waits for a command. -/
structure Acknowledged (b : Byte) (s t u : State) : Prop where
  between : Between u
  wireOut : u.wireOut = s.wireOut ++ [b]
  storage : SameStorage t u
  cfg : u.cfg = s.cfg
  entry : u.entry = t.entry
  trun : u.trun = t.trun

/-- In HALFDUPLEX the byte is on the wire already, and the host takes it. -/
theorem AnswersOnce.await_halfDuplex {b : Byte} {s t : State} (h : AnswersOnce b s t) (hd : s.cfg.halfDuplex = true)
    (hecho : s.cfg.echoMax ≤ s.cfg.echoDiscardReads) (n : Nat) :
    ∃ u, await n t = (some b, u) ∧ Acknowledged b s t u := by
  obtain ⟨hl, -⟩ := h.loop
  obtain ⟨hsent, hduplex, -⟩ := h.replied
  obtain ⟨htxq, hde, hrxdis, -⟩ := hduplex hd
  have hrxq : t.rxq = [] := h.replied.rxq_nil (h.cfg ▸ h.config) hd hecho
  have hwire : t.wireOut = s.wireOut ++ [b] := by simpa [sent, htxq, h.drained] using hsent
  refine ⟨_, await_seen n (by simp [hl]) (unseen_one hwire h.seen), ⟨⟨h.config, h.memory, h.buffer, h.idle⟩, .inl h.loop,
    h.unscheduled, h.interrupts, hrxq, htxq, ?_, hde, hrxdis⟩, hwire, ⟨rfl, rfl, rfl, rfl, rfl⟩, h.cfg, rfl, rfl⟩
  simp [hwire, h.seen]

/-- Waiting for a byte, the watchdog petted. -/
def State.petted (s : State) : State := { s with todo := [.rxOp], trace := s.trace ++ [.wdtPet] }

/-- In LEGACY the block pets the watchdog, lets the byte leave, and then the host takes it. -/
theorem AnswersOnce.await_legacy {b : Byte} {s t : State} (h : AnswersOnce b s t) (hd : s.cfg.halfDuplex = false)
    (n : Nat) :
    ∃ u, await (n + 2) t = (some b, u) ∧ Acknowledged b s t u := by
  obtain ⟨hl, htop⟩ := h.loop
  obtain ⟨htxq, hwire, hde, hrxdis⟩ := h.replied.queued hd
  have htxq : t.txq = [b] := by rw [htxq, h.drained]; rfl
  have hrxq : t.rxq = [] := h.replied.rxq hd
  have hunseen : unseen t = [] := by simp [unseen, hwire, h.seen]
  have hpet : step t = .next t.petted := step_loopTop h.config h.unscheduled htop hrxq
  have hleaves := step_drains (s := t.petted) h.config h.unscheduled rfl hrxq h.idle htxq
  have hwaits : await (n + 2) t = await n _ :=
    (await_step _ hunseen hpet).trans (await_step (s := t.petted) n hunseen hleaves)
  refine ⟨_, hwaits.trans (await_seen n ?_ (unseen_one (w := t.wireOut) rfl ?_)),
    ⟨⟨h.config, h.memory, h.buffer, h.idle⟩, .inr ⟨hl, rfl⟩, h.unscheduled, h.interrupts, hrxq, rfl, ?_,
      hde.trans h.listening.1, hrxdis.trans h.listening.2⟩,
    ?_, ⟨rfl, rfl, rfl, rfl, rfl⟩, h.cfg, rfl, rfl⟩
  · simp [State.petted, hl]
  · exact h.seen.trans (congrArg List.length hwire.symm)
  · simp [State.petted, hwire, h.seen]
  · simp [State.petted, hwire]

/-- The host sees the byte within two steps, and the block waits for the next command. -/
theorem AnswersOnce.await {b : Byte} {s t : State} {n : Nat} (h : AnswersOnce b s t)
    (hecho : s.cfg.halfDuplex = true → s.cfg.echoMax ≤ s.cfg.echoDiscardReads) (hn : 2 ≤ n) :
    ∃ u, await n t = (some b, u) ∧ Acknowledged b s t u := by
  obtain ⟨m, rfl⟩ := Nat.exists_eq_add_of_le' hn
  cases hd : s.cfg.halfDuplex with
  | true => exact h.await_halfDuplex hd (hecho hd) _
  | false => exact h.await_legacy hd m

/-! ### One exchange -/

/-- Between two commands the bus is free (R262(b)). -/
theorem Between.busBusy {s : State} (h : Between s) : busBusy s = false := by
  obtain ⟨hde, hrxdis⟩ := h.listening
  obtain ⟨-, ht⟩ | ⟨-, ht⟩ := h.fetch <;> simp [Machine.busBusy, hde, hrxdis, ht, turning, loopTop]

theorem Between.seq {s : State} (h : Between s) : s.seq = .fetch := by
  obtain ⟨hl, -⟩ | ⟨hl, -⟩ := h.fetch <;> exact hl

theorem Between.sendFrame {s : State} (h : Between s) (f : Frame) :
    sendFrame f s = { s with rxq := encodeFrame s.cfg f } := by
  rw [sendFrame_free f (by simp [h.seq]) h.busBusy, h.read, List.nil_append]

/-- The first byte of the frame taken as an opcode, the others still to be read. -/
def State.taking (s : State) (f : Frame) (tr : List Event) : State :=
  { s with rxq := f.operands, op := opcodeOf s.cfg f.instr, trace := tr }

/-- A frame sent between two commands is run in the next step. -/
theorem Between.step_sendFrame {s : State} {f : Frame} (h : Between s) (hf : f.wf s.cfg = true) :
    ∃ tr, step (Machine.sendFrame f s) = exec f.instr (s.taking f tr) := by
  have hop : decodeOp s.cfg (opcodeOf s.cfg f.instr) = f.instr := decodeOp_opcodeOf h.config (Frame.instr_wf hf)
  have hframe : encodeFrame s.cfg f = opcodeOf s.cfg f.instr :: f.operands := encodeFrame_eq s.cfg f
  rw [h.sendFrame, hframe]
  obtain ⟨-, ht⟩ | ⟨-, ht⟩ := h.fetch
  · have hstep := step_loopTop_cons (s := { s with rxq := opcodeOf s.cfg f.instr :: f.operands }) h.config h.unscheduled ht rfl
    exact ⟨_, hstep.trans (congrArg (exec · _) hop)⟩
  · have hstep := step_rxOp_cons (s := { s with rxq := opcodeOf s.cfg f.instr :: f.operands }) h.config h.unscheduled ht rfl
    exact ⟨_, hstep.trans (congrArg (exec · _) hop)⟩

/-- What an update asks: one acknowledgement a command, a discarding read for every echo byte, and a host that waits for three
steps (R115, R245, R264). -/
structure Updatable (c : Config) (patience : Nat) : Prop where
  single : c.ackMode = .single
  echoes : c.halfDuplex = true → c.echoMax ≤ c.echoDiscardReads
  patience : 3 ≤ patience

/-- A command that answers `ST_OK` alone is an exchange, after which the block waits for the next. -/
theorem Between.exchange {s : State} {f : Frame} {n : Nat} (h : Between s) (hf : f.wf s.cfg = true)
    (hupdate : Updatable s.cfg n) :
    ∃ tr, ∀ t, exec f.instr (s.taking f tr) = .next t → Answered [] [s.cfg.stOk] (s.taking f tr) t → StorageReady t →
      ∃ u, exchange n f s = some u ∧ Between u ∧ u.cfg = s.cfg ∧ u.wireOut = s.wireOut ++ [s.cfg.stOk] ∧
        SameStorage t u := by
  obtain ⟨tr, hstep⟩ := h.step_sendFrame hf
  refine ⟨tr, fun t ht hanswered hready => ?_⟩
  obtain ⟨hloop, hreplied, hcfg, -, -, -, -, hgie, -, -, -, -, hseen, hsched⟩ := hanswered
  have honce : AnswersOnce s.cfg.stOk (s.taking f tr) t := ⟨hready, hloop, hreplied, hcfg, hsched.trans h.unscheduled,
    hgie.trans h.interrupts, h.drained, h.listening, hseen.trans h.seen⟩
  have hpatience := hupdate.patience
  obtain ⟨m, rfl⟩ : ∃ m, n = m + 1 := ⟨n - 1, by omega⟩
  obtain ⟨u, hawait, hbetween, hwire, hstorage, hu_cfg, -⟩ := honce.await (n := m) hupdate.echoes (by omega)
  have hunseen : unseen (Machine.sendFrame f s) = [] := by simp [h.sendFrame, unseen, h.seen]
  have hexchange : Machine.await (m + 1) (Machine.sendFrame f s) = (some s.cfg.stOk, u) :=
    (await_step m hunseen (hstep.trans ht)).trans hawait
  exact ⟨u, by simp [Machine.exchange, hexchange], hbetween, hu_cfg, hwire, hstorage⟩

end Sys2Proof.Machine
end

section
/-! The update of R261 (47_host_environment.md): the image installed page by page, from a block that waits for a command. -/

namespace Sys2Proof.Machine

/-! ### Pages -/

theorem Config.pageCount_app_le {c : Config} (hc : c.wf = true) : c.pageCount .app ≤ 65536 := by
  simp only [Config.wf, Bool.and_eq_true, Config.indicesOk, decide_eq_true_eq] at hc
  obtain ⟨-, -, -, -, -, ⟨happ, -⟩, -⟩ := hc
  exact happ

/-- A page of Application Flash ends inside it. -/
theorem Config.page_fits {c : Config} (hc : c.wf = true) {i : Nat} (hi : i < c.pageCount .app) :
    pageOffset c .app i + c.page .app ≤ c.size .app :=
  NvmCmd.target_inside c (.flashWritePage i) hc (decide_eq_true hi)

/-- A page ends before each later one begins. -/
theorem pageOffset_add_le (c : Config) (r : Region) {i j : Nat} (h : i < j) :
    pageOffset c r i + c.page r ≤ pageOffset c r j := by
  rw [pageOffset, pageOffset, ← Nat.succ_mul]
  exact Nat.mul_le_mul_right _ h

/-- Bytes that lie apart from those that may differ are read as before. -/
theorem SameMemoryOutside.readBytes_of_disjoint {r : Region} {a n b k : Nat} {s t : State}
    (h : SameMemoryOutside r a n s t) (hd : b + k ≤ a) : t.mem.readBytes r b k = s.mem.readBytes r b k :=
  List.map_congr_left fun i hi => h r (b + i) fun hin => by have := List.mem_range.1 hi; omega

/-- Two changes inside the same bytes are one. -/
theorem SameMemoryOutside.trans {r : Region} {a n a' n' : Nat} {s t u : State} (h : SameMemoryOutside r a n s t)
    (h' : SameMemoryOutside r a' n' t u) (ha : a ≤ a') (hn : a' + n' ≤ a + n) : SameMemoryOutside r a n s u :=
  fun r' x hx => (h' r' x fun hin => hx ⟨hin.1, by omega⟩).trans (h r' x hx)

/-! ### The exchanges of an update -/

/-- The erase as an exchange (R140). -/
theorem Between.exchange_eraseApp {s : State} {n : Nat} (h : Between s) (hupdate : Updatable s.cfg n) :
    ∃ u, Machine.exchange n (.f0 .eraseApp) s = some u ∧ Between u ∧ u.cfg = s.cfg ∧
      u.wireOut = s.wireOut ++ [s.cfg.stOk] ∧
      NvmCmd.eraseAppSection.Written (List.replicate (s.cfg.size .app) (some s.cfg.erasedByte)) s u := by
  obtain ⟨tr, hexchange⟩ := h.exchange (f := .f0 .eraseApp) rfl hupdate
  have hready : StorageReady (s.taking (.f0 .eraseApp) tr) := ⟨h.config, h.memory, h.buffer, h.idle⟩
  obtain ⟨t, ht, hanswered, hwritten, hbuf, -⟩ := exec_erase hready (.inl ⟨rfl, rfl⟩)
  obtain ⟨u, hu, hbetween, hcfg, hwire, hstorage⟩ := hexchange t ht hanswered
    (hwritten.storageReady hready hanswered.cfg (congrArg List.length hbuf))
  exact ⟨u, hu, hbetween, hcfg, hwire, (hwritten.of_sameStorage hstorage).of_eq rfl rfl⟩

theorem Frame.wf_writePage {c : Config} {idx : Half} {p : List Byte} (hidx : idx.toNat < c.pageCount .app)
    (hp : p.length = c.page .app) : (Frame.fip .writePage idx p).wf c = true := by
  simp [Frame.wf, Instr.format, Instr.wf, payloadLength, hidx, hp]

/-- The write of a page as an exchange (R141). -/
theorem Between.exchange_writePage {s : State} {n : Nat} {idx : Half} {p : List Byte} (h : Between s)
    (hupdate : Updatable s.cfg n) (hidx : idx.toNat < s.cfg.pageCount .app) (hp : p.length = s.cfg.page .app) :
    ∃ u, Machine.exchange n (.fip .writePage idx p) s = some u ∧ Between u ∧ u.cfg = s.cfg ∧
      u.wireOut = s.wireOut ++ [s.cfg.stOk] ∧
      (NvmCmd.flashWritePage idx.toNat).Written ((NvmCmd.flashWritePage idx.toNat).page p s) s u := by
  obtain ⟨tr, hexchange⟩ := h.exchange (Frame.wf_writePage hidx hp) hupdate
  have hready : StorageReady (s.taking (.fip .writePage idx p) tr) := ⟨h.config, h.memory, h.buffer, h.idle⟩
  have hearly : earlyStatuses s.cfg .writePage = [] := if_neg (by simp [hupdate.single])
  obtain ⟨t, ht, hanswered, hwritten, hbuf, -⟩ := exec_indexedWrite (rest := []) .flash hready
    (fun _ hmode => by simp [State.taking, hupdate.single] at hmode) (List.append_nil _).symm hidx hp
  have hanswered : Answered [] ([] ++ [s.cfg.stOk]) _ t := hearly ▸ hanswered
  obtain ⟨u, hu, hbetween, hcfg, hwire, hstorage⟩ := hexchange t ht hanswered
    (hwritten.storageReady_page hready rfl hp.symm hanswered.cfg hbuf)
  exact ⟨u, hu, hbetween, hcfg, hwire, (hwritten.of_sameStorage hstorage).page_of_eq rfl rfl⟩

/-! ### The image -/

/-- From `s` to `t` Application Flash has been erased and the first pages written, each command acknowledged by one `ST_OK`. -/
structure Installed (s : State) (pages : List (List Byte)) (t : State) : Prop where
  between : Between t
  cfg : t.cfg = s.cfg
  idle : ControllerIdle t
  wireOut : t.wireOut = s.wireOut ++ List.replicate (pages.length + 1) s.cfg.stOk
  page : ∀ i (hi : i < pages.length), t.mem.readBytes .app (pageOffset s.cfg .app i) (s.cfg.page .app) = pages[i]
  erased : ∀ a, pageOffset s.cfg .app pages.length ≤ a → a < s.cfg.size .app → t.mem.read .app a = s.cfg.erasedByte
  outside : SameMemoryOutside .app 0 (s.cfg.size .app) s t

/-- The erase installs the empty image. -/
theorem Between.exchange_installs {s : State} {n : Nat} (h : Between s) (hupdate : Updatable s.cfg n) :
    ∃ t, Machine.exchange n (.f0 .eraseApp) s = some t ∧ Installed s [] t := by
  obtain ⟨t, ht, hbetween, hcfg, hwire, hwritten⟩ := h.exchange_eraseApp hupdate
  refine ⟨t, ht, hbetween, hcfg, hwritten.idle, hwire, nofun, fun a _ ha => ?_, hwritten.outside⟩
  simpa [NvmCmd.target] using hwritten.read_replicate ha

/-- Each write installs the page at the end, and leaves the pages before it and the erased bytes after it. -/
theorem Installed.exchange_installs {s t : State} {pages : List (List Byte)} {p : List Byte} {n : Nat}
    (h : Installed s pages t) (hupdate : Updatable s.cfg n) (hroom : pages.length < s.cfg.pageCount .app)
    (hp : p.length = s.cfg.page .app) :
    ∃ u, Machine.exchange n (.fip .writePage (BitVec.ofNat 16 pages.length) p) t = some u ∧
      Installed s (pages ++ [p]) u := by
  have hcfg : t.cfg = s.cfg := h.cfg
  have hconfig : s.cfg.wf = true := hcfg ▸ h.between.config
  have hfits := Config.page_fits hconfig hroom
  have hidx : (BitVec.ofNat 16 pages.length).toNat = pages.length := by
    rw [BitVec.toNat_ofNat]
    exact Nat.mod_eq_of_lt (lt_of_lt_of_le hroom (Config.pageCount_app_le hconfig))
  obtain ⟨u, hu, hbetween, hu_cfg, hwire, hwritten⟩ := h.between.exchange_writePage (idx := BitVec.ofNat 16 pages.length)
    (p := p) (hcfg ▸ hupdate) (by rw [hidx, hcfg]; exact hroom) (hcfg ▸ hp)
  rw [hidx] at hwritten
  have houtside : SameMemoryOutside .app (pageOffset s.cfg .app pages.length) (s.cfg.page .app) t u :=
    hcfg ▸ hwritten.outside
  have htakes : ∀ k, k < p.length → (NvmCmd.flashWritePage pages.length).takes t k = true := fun k hk => by
    have herased := h.erased (pageOffset s.cfg .app pages.length + k) (by omega) (by omega)
    simp [NvmCmd.takes, NvmCmd.target, hcfg, herased]
  have hpage : u.mem.readBytes .app (pageOffset s.cfg .app pages.length) (s.cfg.page .app) = p := by
    have hread := hwritten.readBytes htakes
    rwa [hcfg, hp] at hread
  refine ⟨u, hu, hbetween, hu_cfg.trans hcfg, hwritten.idle, ?_, fun i hi => ?_, fun a ha hlt => ?_,
    h.outside.trans houtside (Nat.zero_le _) (by omega)⟩
  · rw [hwire, h.wireOut, hcfg, List.append_assoc, List.length_append, List.length_singleton,
      List.replicate_succ' (n := pages.length + 1)]
  · rw [List.length_append, List.length_singleton] at hi
    obtain hlt | rfl := Nat.lt_succ_iff_lt_or_eq.1 hi
    · rw [houtside.readBytes_of_disjoint (pageOffset_add_le s.cfg .app hlt), h.page i hlt, List.getElem_append_left hlt]
    · simpa using hpage
  · have hnext := pageOffset_add_le s.cfg .app (Nat.lt_add_one pages.length)
    rw [List.length_append, List.length_singleton] at ha
    rw [houtside .app a (by omega), h.erased a (by omega) hlt]

/-- The frames that write `pages` from page `k` on. -/
def pageFrames (k : Nat) (pages : List (List Byte)) : List Frame :=
  (pages.zipIdx k).map fun x => .fip .writePage (BitVec.ofNat 16 x.2) x.1

theorem updateFrames_eq (image : List (List Byte)) : updateFrames image = .f0 .eraseApp :: pageFrames 0 image := rfl

theorem pageFrames_cons (k : Nat) (p : List Byte) (pages : List (List Byte)) :
    pageFrames k (p :: pages) = .fip .writePage (BitVec.ofNat 16 k) p :: pageFrames (k + 1) pages := rfl

theorem take_pageFrames (j k : Nat) (pages : List (List Byte)) :
    (pageFrames k pages).take j = pageFrames k (pages.take j) := by
  induction pages generalizing j k with
  | nil => simp [pageFrames]
  | cons p pages ih =>
    cases j with
    | zero => rfl
    | succ j => rw [pageFrames_cons, List.take_succ_cons, List.take_succ_cons, pageFrames_cons, ih]

/-- The first frames of an update are those of an update with the first pages. -/
theorem take_updateFrames (j : Nat) (image : List (List Byte)) :
    (updateFrames image).take (j + 1) = updateFrames (image.take j) := by
  rw [updateFrames_eq, updateFrames_eq, List.take_succ_cons, take_pageFrames]

/-- The writes of the pages still to come, one exchange after the other. -/
theorem Installed.exchanges_pageFrames {s t : State} {pages rest : List (List Byte)} {n : Nat} (h : Installed s pages t)
    (hupdate : Updatable s.cfg n) (hroom : (pages ++ rest).length ≤ s.cfg.pageCount .app)
    (hrest : ∀ p ∈ rest, p.length = s.cfg.page .app) :
    ∃ u, exchanges n (pageFrames pages.length rest) t = some u ∧ Installed s (pages ++ rest) u := by
  induction rest generalizing pages t with
  | nil => exact ⟨t, rfl, (List.append_nil pages).symm ▸ h⟩
  | cons p rest ih =>
    obtain ⟨hp, hrest⟩ := List.forall_mem_cons.1 hrest
    obtain ⟨v, hv, hinstalled⟩ := h.exchange_installs hupdate (by simp at hroom; omega) hp
    rw [List.append_cons] at hroom ⊢
    obtain ⟨u, hu, hall⟩ := ih hinstalled hroom hrest
    refine ⟨u, ?_, hall⟩
    rw [pageFrames_cons, exchanges, hv]
    simpa using hu

/-- Steps 2 and 3 of R261. -/
theorem Between.exchanges_updateFrames {s : State} {image : List (List Byte)} {n : Nat} (h : Between s)
    (hupdate : Updatable s.cfg n) (hroom : image.length ≤ s.cfg.pageCount .app)
    (hpages : ∀ p ∈ image, p.length = s.cfg.page .app) :
    ∃ t, exchanges n (updateFrames image) s = some t ∧ Installed s image t := by
  obtain ⟨v, hv, hinstalled⟩ := h.exchange_installs hupdate
  obtain ⟨u, hu, hall⟩ := hinstalled.exchanges_pageFrames (rest := image) hupdate hroom hpages
  refine ⟨u, ?_, hall⟩
  rw [updateFrames_eq, exchanges, hv]
  exact hu

/-- The frames of an update are well-formed, and each is answered by one byte (R262(d)). -/
theorem updateFrames_wf {c : Config} {image : List (List Byte)} (hc : c.wf = true) (hmode : c.ackMode = .single)
    (hroom : image.length ≤ c.pageCount .app) (hpages : ∀ p ∈ image, p.length = c.page .app) :
    ∀ f ∈ updateFrames image, f.wf c = true ∧ replyLength c f = 1 := by
  refine List.forall_mem_cons.2 ⟨⟨rfl, rfl⟩, fun f hf => ?_⟩
  obtain ⟨⟨p, i⟩, hx, rfl⟩ := List.mem_map.1 hf
  obtain ⟨hi, hp⟩ := List.mem_zipIdx' hx
  have hidx : (BitVec.ofNat 16 i).toNat = i := by
    rw [BitVec.toNat_ofNat]
    exact Nat.mod_eq_of_lt (lt_of_lt_of_le (lt_of_lt_of_le hi hroom) (Config.pageCount_app_le hc))
  have hvalid : (BitVec.ofNat 16 i).toNat < c.pageCount .app := hidx.symm ▸ lt_of_lt_of_le hi hroom
  refine ⟨Frame.wf_writePage hvalid (hp ▸ hpages _ (List.getElem_mem hi)), ?_⟩
  simp [replyLength, indexedLength, indexRegion, validIndex, successLength, hmode]

/-- Settles O59: an exchange a frame, and after each of them the pages so far installed. -/
theorem updateInstallsImage : Obligations.UpdateInstallsImage := by
  intro s image n hs hmode hecho hpatience hroom hpages
  have hupdate : Updatable s.cfg n := ⟨hmode, fun hd => hecho (by simpa [Config.halfDuplex] using hd), hpatience⟩
  refine ⟨updateFrames_wf hs.config hmode hroom hpages, fun k hk => ?_, ?_⟩
  · cases k with
    | zero => exact ⟨s, rfl, hs, hs.busBusy, (List.append_nil _).symm⟩
    | succ j =>
      obtain ⟨t, ht, hinstalled⟩ := hs.exchanges_updateFrames (image := image.take j) hupdate
        (le_trans (by simp) hroom) fun p hp => hpages p (List.mem_of_mem_take hp)
      have hwire := hinstalled.wireOut
      rw [List.length_take_of_le (Nat.le_of_succ_le_succ hk)] at hwire
      exact ⟨t, take_updateFrames j image ▸ ht, hinstalled.between, hinstalled.between.busBusy, hwire⟩
  · obtain ⟨t, ht, hinstalled⟩ := hs.exchanges_updateFrames hupdate hroom hpages
    exact ⟨t, ht, hinstalled.page, hinstalled.erased, hinstalled.outside⟩

end Sys2Proof.Machine
end

section
/-! The whole update (47_host_environment.md R261): the rendezvous with a Variant B block that has been reset, the image, and
RESET. -/

namespace Sys2Proof.Machine

/-! ### The rendezvous -/

/-- A Variant B block that has been reset, a no-op byte received, starts the timer, takes the byte and decides to stay (R324). -/
theorem step_reset_stays {s : State} (hc : s.cfg.wf = true) (hs : s.sched = []) (ht : s.todo = [.arbitrate])
    (hv : s.cfg.entryVariant = .b) (hq : s.rxq = [s.cfg.nopByte]) (htimeout : 0 < s.cfg.bootTimeoutTicks) :
    step s = .next ({ timerStart s with seq := .arbPoll } : State).staying := by
  have harbitrate : drive .arbitrate s = .turn [.goto .arbPoll, .poll] (timerStart s) := by
    simp only [drive_arbitrate, arbitrate, hv]
  have hpoll : drive .poll { timerStart s with seq := .arbPoll } = stay (rxPoll { timerStart s with seq := .arbPoll }) := by
    rw [drive_poll, pollStep_takes (s := { timerStart s with seq := .arbPoll }) hq (timerExpired_of_lt htimeout), pollByte]
    exact if_pos rfl
  rw [step_arbitrate hc hs ht, runCommand, harbitrate]
  simp only [runPath, drive_goto, hpoll]
  exact standing_stay _ []

/-- The next step is the whole acknowledgement. -/
theorem step_staying {s : State} (hc : s.cfg.wf = true) (hs : s.sched = []) :
    step s.staying = runCommand (bracket s.cfg [.txByte s.cfg.arbAckByte] ++ [.timerStop]) s.staying := by
  obtain ⟨p, ps, hpath, hp⟩ : ∃ p ps, bracket s.cfg [.txByte s.cfg.arbAckByte] ++ [.timerStop] = p :: ps ∧
      (p = .setDE true ∨ p = .txByte s.cfg.arbAckByte) := by
    cases hd : s.cfg.halfDuplex <;> simp [bracket, txBegin, hd]
  have ht : s.staying.todo = p :: ps := hpath
  rw [hpath]
  refine step_path hc hs ht ?_ ?_ <;> obtain rfl | rfl := hp <;> simp [fetchByte, blocked, ht]

/-- After it the block has answered the acknowledgement byte alone, to a host that has seen everything before it. -/
theorem step_staying_answers {s : State} (hready : StorageReady s) (hs : s.sched = []) (hg : s.gie = false)
    (hq : s.rxq.tail = []) (hx : s.txq = []) (hlisten : s.de = false ∧ s.rxdis = false)
    (hseen : s.hostRead = s.wireOut.length) :
    ∃ t, step s.staying = .next t ∧ AnswersOnce s.cfg.arbAckByte s t ∧ SameStorage s t ∧ t.entry = .bootloader ∧
      t.trun = false := by
  obtain ⟨t, hack, hloop, hreplied, hstorage, -, hcfg, -, hentry, -, htrun, hgie, -, -, -, -, ht_seen, hsched⟩ :=
    finishes_acknowledgement (s := s.staying) rfl
  have hreplied : Replied s.rxq.tail [s.cfg.arbAckByte] s t := hreplied
  rw [hq] at hreplied
  have hstorage : SameStorage s t := hstorage
  exact ⟨t, (step_staying hready.config hs).trans hack.runCommand, ⟨hstorage.storageReady hready hcfg, hloop, hreplied, hcfg,
    hsched.trans hs, hgie.trans hg, hx, hlisten, ht_seen.trans hseen⟩, hstorage, hentry, htrun⟩

/-- A Variant B block right after its reset, nothing unread, queued or unseen. -/
structure AfterReset (s : State) : Prop extends StorageReady s where
  variant : s.cfg.entryVariant = .b
  label : s.seq = .rst
  path : s.todo = [.arbitrate]
  unscheduled : s.sched = []
  interrupts : s.gie = false
  timeout : 0 < s.cfg.bootTimeoutTicks
  read : s.rxq = []
  drained : s.txq = []
  listening : s.de = false ∧ s.rxdis = false
  seen : s.hostRead = s.wireOut.length

/-- The byte sent after the reset arrives. -/
theorem AfterReset.hostMove_send {s : State} (h : AfterReset s) (b : Byte) :
    hostMove (.send b) s = { s with rxq := [b] } := by
  obtain ⟨hde, hrxdis⟩ := h.listening
  rw [Machine.hostMove_send b (by simp [h.label]) (by simp [busBusy, hde, hrxdis, h.path, turning]), h.read]
  rfl

/-- Step 1 of R261: the first no-op byte is acknowledged, and the block waits for a command. -/
theorem AfterReset.rendezvous {s : State} {n tries : Nat} (h : AfterReset s)
    (hecho : s.cfg.halfDuplex = true → s.cfg.echoMax ≤ s.cfg.echoDiscardReads) (hn : 4 ≤ n) (htries : 1 ≤ tries) :
    ∃ r, rendezvous n tries s = some r ∧ Between r ∧ r.cfg = s.cfg ∧ r.entry = .bootloader ∧ r.trun = false ∧
      r.wireOut = s.wireOut ++ [s.cfg.arbAckByte] ∧ SameStorage s r := by
  let probed : State := { s with rxq := [s.cfg.nopByte] }
  let polled : State := { timerStart probed with seq := .arbPoll }
  have hunseen : s.wireOut.drop s.hostRead = [] := by simp [h.seen]
  have hstays : step probed = .next polled.staying :=
    step_reset_stays h.config h.unscheduled h.path h.variant rfl h.timeout
  obtain ⟨t, hanswers, honce, hstorage, hentry, htrun⟩ := step_staying_answers (s := polled)
    ⟨h.config, h.memory, h.buffer, h.idle⟩ h.unscheduled h.interrupts rfl h.drained h.listening h.seen
  obtain ⟨m, rfl⟩ := Nat.exists_eq_add_of_le' (le_trans (by decide : 2 ≤ 4) hn)
  obtain ⟨k, rfl⟩ := Nat.exists_eq_add_of_le' htries
  obtain ⟨r, hr, hbetween, hwire, hstorage', hcfg, hentry', htrun'⟩ := honce.await (n := m) hecho (by omega)
  have hawait : await (m + 2) { s with rxq := [s.cfg.nopByte] } = (some s.cfg.arbAckByte, r) :=
    (await_step (s := probed) (m + 1) hunseen hstays).trans ((await_step (s := polled.staying) m hunseen hanswers).trans hr)
  refine ⟨r, ?_, hbetween, hcfg, hentry'.trans hentry, htrun'.trans htrun, hwire, hstorage.trans hstorage'⟩
  simp [Machine.rendezvous, h.hostMove_send, hawait]

/-! ### RESET -/

/-- Step 4 of R261: RESET is acknowledged, and the software reset keeps the memory. -/
theorem Between.sendReset {s : State} (h : Between s) (hidle : ControllerIdle s) :
    ∃ u, step (Machine.sendFrame (.f0 .reset) s) = .next u ∧ sent u = s.wireOut ++ [s.cfg.stOk] ∧
      step u = .next (applyReset .software u) ∧ (applyReset .software u).mem = s.mem := by
  obtain ⟨-, hidle_pending, -⟩ := hidle
  obtain ⟨tr, hstep⟩ := h.step_sendFrame (f := .f0 .reset) rfl
  obtain ⟨w, hreset, hreplied, hwire⟩ := exec_reset (s := s.taking (.f0 .reset) tr) h.interrupts
  obtain ⟨tx, out, tr', hframe, hsent⟩ := awaitingReset_frame w
  obtain ⟨⟨hmem, -, -, hpending, -⟩, hcontrol, -⟩ := hwire.same
  have hready := hwire.storageReady ⟨h.config, h.memory, h.buffer, h.idle⟩
  rw [hframe] at hreset
  refine ⟨_, hstep.trans hreset, ?_, ?_, ?_⟩
  · have hanswer : w.wireOut ++ w.txq = s.wireOut ++ s.txq ++ [s.cfg.stOk] := hreplied.1
    rw [h.drained, List.append_nil] at hanswer
    exact hsent.trans hanswer
  · exact step_resetting hready.config rfl rfl (hcontrol.sched.trans h.unscheduled)
  · refine (applyReset_mem_of_none .software ?_).trans hmem
    exact hpending.trans hidle_pending

/-- Settles O60: the rendezvous, the exchanges of the image, RESET. -/
theorem wholeUpdate : Obligations.WholeUpdate := by
  intro s image n tries hs hsched hg hl ht hv htimeout hq hx hseen hde hrxdis hmode hecho hpatience htries hroom hpages
  have hecho : s.cfg.halfDuplex = true → s.cfg.echoMax ≤ s.cfg.echoDiscardReads := fun hd =>
    hecho (by simpa [Config.halfDuplex] using hd)
  have hreset : AfterReset s := ⟨hs, hv, hl, ht, hsched, hg, htimeout, hq, hx, ⟨hde, hrxdis⟩, hseen⟩
  obtain ⟨r, hr, hbetween, hcfg, hentry, htrun, hwire, hstorage⟩ := hreset.rendezvous hecho hpatience htries
  obtain ⟨t, ht, hinstalled⟩ := hbetween.exchanges_updateFrames (image := image) (n := n)
    (hcfg.symm ▸ ⟨hmode, hecho, by omega⟩) (hcfg.symm ▸ hroom) (hcfg.symm ▸ hpages)
  obtain ⟨u, hu, hsent, hv, hmem⟩ := hinstalled.between.sendReset hinstalled.idle
  have hupdate : update n tries image s = some (sendFrame (.f0 .reset) t) := by simp [update, hr, ht]
  have hfinal : (sendFrame (.f0 .reset) t).mem = t.mem := by rw [hinstalled.between.sendFrame]
  have hr_mem : r.mem = s.mem := hstorage.1
  have hacks : sent u = r.wireOut ++ List.replicate (image.length + 2) s.cfg.stOk := by
    rw [hsent, hinstalled.wireOut, hinstalled.cfg, hcfg, List.append_assoc, ← List.replicate_succ']
  refine ⟨r, _, u, _, hr, hbetween, hentry, htrun, hwire, hstorage, hupdate, ?_, ?_, ?_, hu, hacks, hv, rfl, rfl, rfl,
    hmem.trans hfinal.symm⟩
  · rw [hfinal, ← hcfg]
    exact hinstalled.page
  · rw [hfinal, ← hcfg]
    exact hinstalled.erased
  · intro region a ha
    rw [hfinal, hinstalled.outside region a (hcfg.symm ▸ ha), hr_mem]

end Sys2Proof.Machine
end
